-- ==== Sys2Proof/Word.lean ====
section
/-! DEFINITION. The widths the spec uses (00_scope.md R10), and a vector of request or response data as a list of its
32-bit words: word `i` of a vector is its bits `[32*i+31 : 32*i]` (30_encoding.md R64). -/

namespace Sys2Proof

/-- A byte of host memory (20_memory.md R41). -/
abbrev Byte := BitVec 8

/-- A 16-bit pattern of either 16-bit format (00_scope.md R15: "code"). -/
abbrev Code := BitVec 16

/-- A binary32 pattern, always handled as its 32 bits (00_scope.md R13). -/
abbrev Word32 := BitVec 32

/-- The operation code `req_op[3:0]` (30_encoding.md R60). -/
abbrev OpCode := BitVec 4

/-- `32 * LANES` bits of `req_data` or `rsp_data`, as `LANES` words, the one with bits `[31:0]` first. -/
abbrev DataVec := List Word32

end Sys2Proof
end

