-- ==== Sys2Proof/Config.lean ====
section
/-! DEFINITION. The block's parameters (00_scope.md R6), the values the spec leaves free, and the fixed choices of R6. -/

namespace Sys2Proof

/-- `LANES`, "one of 1, 8, 16" (00_scope.md R6). -/
inductive LaneCount where
  | one
  | eight
  | sixteen
  deriving DecidableEq, Repr

/-- The number of lanes. -/
def LaneCount.count : LaneCount → Nat
  | .one => 1
  | .eight => 8
  | .sixteen => 16

/-- The constants of one block (00_scope.md R6). They are fixed when the block is built; State carries them so that a
statement about every state is a statement about every block (log 1). -/
structure Params where
  /-- `LANES` (R7: never changes while the block is in use). -/
  lanes : LaneCount
  /-- `LAT`, the least number of clock edges between acceptance and offer (70_reset_and_hazards.md R197). -/
  lat : Nat
  /-- `DEPTH`, the greatest number of requests accepted and not yet answered (10_state.md R30). -/
  depth : Nat
  deriving DecidableEq, Repr

/-- What an exact tie of `f16.enc` rounds to. The spec fixes `even` (40_float16.md R98); `away` is the other reading it
records for conservative claims (93_implementation_defined.md U2, log 15). -/
inductive TieRule where
  | even
  | away
  deriving DecidableEq, Repr

namespace Config

/-- The parameters `State.reset` carries. DESIGN CHOICE (log 1): the spec leaves all three open. -/
def resetParams : Params := { lanes := .eight, lat := 0, depth := 1 }

/-- The tie rule of `f16.enc` (00_scope.md R6: "float16 tie rule | fixed | ties to even"). -/
def f16Tie : TieRule := .even

/-- `F16_QNAN_MANT` (00_scope.md R6): the mantissa of the canonical NaN. -/
def f16QnanMant : BitVec 10 := 0x200

/-- FREE VALUE (log 4). The edges an accepted request takes beyond `LAT`, from its operation code, the fullness of the
queue and the model's draw counter. The operands are no argument of it (70_reset_and_hazards.md R196). -/
opaque extraLatency : OpCode → Nat → Nat → Nat

/-- FREE VALUE (log 5). `rsp_err` while `rsp_valid = 0`, by draw counter (93_implementation_defined.md U5). -/
opaque idleRspErr : Nat → Bool

/-- FREE VALUE (log 5). `rsp_data` while `rsp_valid = 0`: word by draw counter and word index
(93_implementation_defined.md U5). -/
opaque idleRspData : Nat → Nat → Word32

end Config

end Sys2Proof
end

