-- ==== Sys2Proof/Syntax.lean ====
section
/-! DEFINITION. The five operations as syntax, the request that carries one, and the host's batch pseudo-instruction
(00_scope.md R2, 30_encoding.md R60, R63, R71). -/

namespace Sys2Proof

/-- The names of the five operations (00_scope.md R2). -/
inductive Op where
  | f16Enc
  | f16Dec
  | bf16Enc
  | bf16Dec
  | bf16EncRne
  deriving DecidableEq, Repr

/-- The two formats of 30_encoding.md R63: binary32 lanes in and codes out, or codes in and binary32 lanes out. -/
inductive Format where
  | enc
  | dec
  deriving DecidableEq, Repr

/-- One instruction: an operation with the `req_data` it is given, high half included (30_encoding.md R60, R65). -/
inductive Instr where
  /-- `f16.enc`, 40_float16.md R96. -/
  | f16Enc (data : DataVec)
  /-- `f16.dec`, 40_float16.md R110. -/
  | f16Dec (data : DataVec)
  /-- `bf16.enc`, 41_bfloat16.md R131. -/
  | bf16Enc (data : DataVec)
  /-- `bf16.dec`, 41_bfloat16.md R134. -/
  | bf16Dec (data : DataVec)
  /-- `bf16.enc.rne`, 41_bfloat16.md R138. -/
  | bf16EncRne (data : DataVec)
  deriving DecidableEq, Repr

/-- The operation an instruction names. -/
def Instr.op : Instr → Op
  | .f16Enc _ => .f16Enc
  | .f16Dec _ => .f16Dec
  | .bf16Enc _ => .bf16Enc
  | .bf16Dec _ => .bf16Dec
  | .bf16EncRne _ => .bf16EncRne

/-- The operand vector of an instruction. -/
def Instr.data : Instr → DataVec
  | .f16Enc d => d
  | .f16Dec d => d
  | .bf16Enc d => d
  | .bf16Dec d => d
  | .bf16EncRne d => d

/-- The instruction of an operation and an operand vector. -/
def Instr.ofOp : Op → DataVec → Instr
  | .f16Enc => .f16Enc
  | .f16Dec => .f16Dec
  | .bf16Enc => .bf16Enc
  | .bf16Dec => .bf16Dec
  | .bf16EncRne => .bf16EncRne

/-- A request: the pair (`req_op`, `req_data`) (30_encoding.md R60). Its operation code may name no operation. -/
structure Request where
  op : OpCode
  data : DataVec
  deriving DecidableEq, Repr

/-- The host's pseudo-instruction `<op>.batch dst, src, n` (30_encoding.md R71, 42_lanes_and_batch.md R153). -/
structure Batch where
  op : Op
  dst : Nat
  src : Nat
  n : Nat
  deriving DecidableEq, Repr

end Sys2Proof
end

