-- ==== Sys2Proof/WellFormed.lean ====
section
/-! DEFINITION. Which instructions and parameters exist on a block. The data vector of a request has exactly `LANES`
words (60_exceptions.md R177); `DEPTH` is at least 1 (00_scope.md R6). Nothing else of an instruction can be ill-formed:
every operand pattern is legal (00_scope.md R8). -/

namespace Sys2Proof

/-- A vector has the `32 * LANES` bits of the block's `req_data` and `rsp_data`. -/
def DataVec.fits (L : LaneCount) (v : DataVec) : Bool := v.length == L.count

/-- The instruction can be presented to a block of `L` lanes. -/
def Instr.wf (L : LaneCount) : Instr → Bool
  | .f16Enc d => DataVec.fits L d
  | .f16Dec d => DataVec.fits L d
  | .bf16Enc d => DataVec.fits L d
  | .bf16Dec d => DataVec.fits L d
  | .bf16EncRne d => DataVec.fits L d

/-- The parameters are ones a block can have. -/
def Params.wf (p : Params) : Bool := decide (1 ≤ p.depth)

end Sys2Proof
end

