-- ==== Sys2Proof/Decode.lean ====
section
/-! DEFINITION. Operation codes, the decoder, the encoder, and the request seen as one word (30_encoding.md section 1 to
4). "A decoder reads `req_op` and nothing else" (R69). -/

namespace Sys2Proof

/-- Format of each operation (30_encoding.md R63). -/
def Op.format : Op → Format
  | .f16Enc => .enc
  | .f16Dec => .dec
  | .bf16Enc => .enc
  | .bf16Dec => .dec
  | .bf16EncRne => .enc

/-- Field `DIR`, `req_op[0]`: 1 for decode (30_encoding.md R62). -/
def fieldDir (c : OpCode) : Bool := c.getLsbD 0

/-- Field `FMT`, `req_op[1]`: 1 for bfloat16 (30_encoding.md R62). -/
def fieldFmt (c : OpCode) : Bool := c.getLsbD 1

/-- Field `ALT`, `req_op[2]`: 1 for the alternate policy (30_encoding.md R62). -/
def fieldAlt (c : OpCode) : Bool := c.getLsbD 2

/-- The code of each operation (30_encoding.md R63, the table's hexadecimal column). -/
def Op.code : Op → OpCode
  | .f16Enc => 0x0
  | .f16Dec => 0x1
  | .bf16Enc => 0x2
  | .bf16Dec => 0x3
  | .bf16EncRne => 0x6

/-- The operation a code names (30_encoding.md R63); the eleven other codes are reserved and name none (R68). -/
def Op.ofCode? (c : OpCode) : Option Op :=
  if c = 0x0 then some .f16Enc
  else if c = 0x1 then some .f16Dec
  else if c = 0x2 then some .bf16Enc
  else if c = 0x3 then some .bf16Dec
  else if c = 0x6 then some .bf16EncRne
  else none

/-- What 30_encoding.md R62 says of the fields of a defined code: bit 3 is 0, and `ALT` stands only beside `FMT = 1`,
`DIR = 0`. -/
def fieldsDefined (c : OpCode) : Bool := !c.getLsbD 3 && (!fieldAlt c || (fieldFmt c && !fieldDir c))

/-- Why a request, or a word, is no instruction. -/
inductive DecodeError where
  /-- `req_op` is one of the eleven reserved values (30_encoding.md R68). -/
  | reservedOpcode (op : OpCode)
  /-- A word with bits above the `4 + 32*LANES` of a request (30_encoding.md R60). -/
  | wordTooWide
  deriving DecidableEq, Repr

/-- The instruction a request stands for. -/
def decode (r : Request) : Except DecodeError Instr :=
  match Op.ofCode? r.op with
  | some op => .ok (Instr.ofOp op r.data)
  | none => .error (.reservedOpcode r.op)

/-- The request of an instruction. -/
def encode (i : Instr) : Request := { op := i.op.code, data := i.data }

/-- The low `n` words of a number, lowest first, and what is left above them. -/
def splitWords : Nat → Nat → DataVec × Nat
  | 0, w => ([], w)
  | n + 1, w =>
    let (ws, top) := splitWords n (w / 2 ^ 32)
    (BitVec.ofNat 32 w :: ws, top)

/-- The number with the words `ws` at its low end and `top` above them. -/
def joinWords : DataVec → Nat → Nat
  | [], top => top
  | v :: ws, top => v.toNat + 2 ^ 32 * joinWords ws top

/-- The request as one word `{req_op[3:0], req_data[32*LANES-1:0]}` (30_encoding.md R60). -/
def requestWord (r : Request) : Nat := joinWords r.data r.op.toNat

/-- The request that a word is, on a block of `L` lanes. -/
def requestOfWord (L : LaneCount) (w : Nat) : Except DecodeError Request :=
  let (ws, top) := splitWords L.count w
  if top < 16 then .ok { op := BitVec.ofNat 4 top, data := ws } else .error .wordTooWide

/-- The decoder on words: any number, on any block. -/
def decodeWord (L : LaneCount) (w : Nat) : Except DecodeError Instr :=
  match requestOfWord L w with
  | .ok r => decode r
  | .error e => .error e

/-- The word of a (well-formed) instruction. -/
def encodeWord (i : Instr) : Nat := requestWord (encode i)

/-- The request whose bits `spec/opcode_table.json` numbers: its rows give `req_op` bits 3 to 0 of the word, so
`req_data` stands from bit 4 up (DESIGN CHOICE, log 9). Bits above `nbits` are 0. -/
def tableRequest (L : LaneCount) (nbits w : Nat) : Request :=
  let v := w % 2 ^ nbits
  { op := BitVec.ofNat 4 v, data := (splitWords L.count (v / 16)).1 }

/-- What the decoder reads from a word numbered as the opcode table numbers it, at the lane count of `State.reset`. -/
def decodeTableWord (nbits w : Nat) : Option Instr :=
  (decode (tableRequest Config.resetParams.lanes nbits w)).toOption

end Sys2Proof
end

