-- ==== Sys2Proof/Machine/State.lean ====
section
/-! DEFINITION. The state as plain data: the block's in-flight queue (10_state.md R30), its constants (00_scope.md R6),
the host's memory, what the host has received and what it will do next; and the state after reset (10_state.md R32). -/

namespace Sys2Proof.Machine

/-- A response: the pair (`rsp_err`, `rsp_data`) (30_encoding.md R61). -/
structure Response where
  err : Bool
  data : DataVec
  deriving DecidableEq, Repr

/-- One accepted and unanswered request (10_state.md R30): the request, the response it gets, and the edges still to
pass before that response is finished. `wait = 0` is a finished response (log 3). -/
structure Entry where
  op : OpCode
  operand : DataVec
  rsp : Response
  wait : Nat
  deriving DecidableEq, Repr

/-- The levels of the block's input pins at one rising edge of `clk` (30_encoding.md R72). -/
structure Pins where
  rstN : Bool
  reqValid : Bool
  reqOp : OpCode
  reqData : DataVec
  rspReady : Bool
  deriving DecidableEq, Repr

/-- The pins when the host has nothing to do: no reset, no request, every response taken (DESIGN CHOICE, log 2). -/
def Pins.idle : Pins := { rstN := true, reqValid := false, reqOp := 0, reqData := [], rspReady := true }

/-- One round of a batch that the host has in hand (42_lanes_and_batch.md R153), so that rounds of one batch and of
several can overlap in every way (20_memory.md R55, 42_lanes_and_batch.md R156 (d); log 23). -/
structure Round where
  batch : Batch
  j : Nat
  /-- The operand lanes read so far, each with the value that was read. -/
  loaded : List (Nat × Nat)
  /-- Once the round's request is accepted: which of the responses the host counts is its own, the first being number 0
  (20_memory.md R50). -/
  ticket : Option Nat
  /-- The result lanes stored so far. -/
  written : List Nat
  deriving DecidableEq, Repr

/-- What the host does next (log 2). -/
inductive HostMove where
  /-- One rising edge of `clk` with these pins (30_encoding.md R72, R73; 70_reset_and_hazards.md R190). -/
  | drive (p : Pins)
  /-- A whole batch conversion with nothing in between (42_lanes_and_batch.md R153). -/
  | batch (b : Batch)
  /-- Round `j` of a batch alone, with nothing in between. A batch without a round `j` does nothing (log 12). -/
  | round (b : Batch) (j : Nat)
  /-- Take a batch in hand: its rounds join `State.rounds`. The five moves from here on do the work of
  42_lanes_and_batch.md R153 access by access, in any order and interleaved with any other move (20_memory.md R55,
  60_exceptions.md R178; log 23). -/
  | start (b : Batch)
  /-- `MemRead` of operand lane `i` of the `k`-th round in hand. -/
  | load (k i : Nat)
  /-- One rising edge at which the `k`-th round in hand offers its request, with `rsp_ready` at the given level. -/
  | ask (k : Nat) (rspReady : Bool)
  /-- Edges until every response in flight is taken. -/
  | await
  /-- `MemWrite` of result lane `i` of the `k`-th round in hand. -/
  | write (k i : Nat)
  /-- `MemWrite(addr, n, v)` on the host's own memory (00_scope.md R12). -/
  | store (addr n v : Nat)
  deriving DecidableEq, Repr

/-- Host memory: (address, byte) pairs in the canonical form of `Memory.wf` (20_memory.md R41, log 11). -/
abbrev Memory := List Host.Cell

/-- Everything the spec gives the machine. -/
structure State where
  /-- The block's constants (00_scope.md R6). -/
  params : Params
  /-- The in-flight queue, oldest first (10_state.md R30). -/
  queue : List Entry
  /-- The responses the host has taken, oldest first (30_encoding.md R73; log 18). -/
  received : List Response
  /-- Host memory (20_memory.md R41). -/
  mem : Memory
  /-- The rounds the host has in hand, in the order their batches were started (20_memory.md R55; log 23). -/
  rounds : List Round
  /-- The host's coming moves, next first (log 2, log 14). -/
  moves : List HostMove
  /-- The model's own index of free values, no state of the block (log 5). -/
  tick : Nat
  deriving DecidableEq, Repr

/-- The machine right after reset: the queue empty (10_state.md R32); the constants, the host's side and the draw
counter at the values the logs name (log 1, 5, 11, 14, 18, 23). -/
def State.reset : State :=
  { params := Config.resetParams, queue := [], received := [], mem := [], rounds := [], moves := [], tick := 0 }

/-- Why a run stops. -/
inductive Fault where
  /-- Raised by `Safety.strictStep` alone, never by `step`: the host's program issued a request with a reserved
  operation code (30_encoding.md R68, 60_exceptions.md R171, 93_implementation_defined.md U1). Safe: the hardware goes
  on with `rsp_err = 1`, and `step` says so. -/
  | reservedOperation (op : OpCode)
  deriving DecidableEq, Repr

/-- Why there is no meaning. -/
inductive Refusal where
  /-- Raised by an arm of `exec` whose instruction has no meaning yet. Safe. No arm raises it now. -/
  | notModelled (mnemonic : String)
  /-- Raised by a batch, begun or run, or a round of one, whose source and destination bytes overlap: it "has no meaning in
  this spec; a model should refuse it" (42_lanes_and_batch.md R156, 93_implementation_defined.md U4). Safe. -/
  | batchOverlap
  deriving DecidableEq, Repr

/-- What a meaning answers. -/
abbrev Outcome := Host.Outcome State Fault Refusal

end Sys2Proof.Machine
end

