-- ==== Sys2Proof/Machine/Formats.lean ====
section
/-! DEFINITION. The three data formats: fields, classes and values (10_state.md R27, R28, R29, R33). A magnitude is a
natural number of units of 2^-149, the least binary32 magnitude, in which all three formats are whole numbers. -/

namespace Sys2Proof.Machine

/-- A pattern's sign bit, at its top (10_state.md R27). -/
def sign32 (x : Word32) : BitVec 1 := x.extractLsb' 31 1

/-- `e = v[30:23]` (10_state.md R27). -/
def exp32 (x : Word32) : Nat := (x.extractLsb' 23 8).toNat

/-- `m = v[22:0]` (10_state.md R27). -/
def man32 (x : Word32) : Nat := (x.extractLsb' 0 23).toNat

/-- `s = h[15]`, of either 16-bit format (10_state.md R28, R29). -/
def sign16 (h : Code) : BitVec 1 := h.extractLsb' 15 1

/-- `e = h[14:10]` of a binary16 code (10_state.md R28). -/
def expF16 (h : Code) : Nat := (h.extractLsb' 10 5).toNat

/-- `m = h[9:0]` of a binary16 code (10_state.md R28). -/
def manF16 (h : Code) : Nat := (h.extractLsb' 0 10).toNat

/-- `e = b[14:7]` of a bfloat16 code (10_state.md R29). -/
def expBF16 (b : Code) : Nat := (b.extractLsb' 7 8).toNat

/-- `m = b[6:0]` of a bfloat16 code (10_state.md R29). -/
def manBF16 (b : Code) : Nat := (b.extractLsb' 0 7).toNat

/-- The five classes of a pattern (10_state.md R27 to R29). -/
inductive FloatClass where
  | zero
  | subnormal
  | normal
  | infinity
  | nan
  deriving DecidableEq, Repr

/-- The class of fields `e`, `m` when the all-ones exponent is `top`. -/
def classOf (top e m : Nat) : FloatClass :=
  if e = 0 then (if m = 0 then .zero else .subnormal)
  else if e = top then (if m = 0 then .infinity else .nan)
  else .normal

/-- Class of a binary32 pattern (10_state.md R27). -/
def class32 (x : Word32) : FloatClass := classOf 255 (exp32 x) (man32 x)

/-- Class of a binary16 code (10_state.md R28). -/
def classF16 (h : Code) : FloatClass := classOf 31 (expF16 h) (manF16 h)

/-- Class of a bfloat16 code (10_state.md R29). -/
def classBF16 (b : Code) : FloatClass := classOf 255 (expBF16 b) (manBF16 b)

/-- A binary32 NaN is quiet if `m[22] = 1` (10_state.md R27). -/
def quiet32 (x : Word32) : Bool := x.getLsbD 22

/-- A binary16 NaN is quiet if `m[9] = 1` (10_state.md R28). -/
def quietF16 (h : Code) : Bool := h.getLsbD 9

/-- A bfloat16 NaN is quiet if `m[6] = 1` (10_state.md R29). -/
def quietBF16 (b : Code) : Bool := b.getLsbD 6

/-- Magnitude of a finite binary32 pattern in units of 2^-149 (10_state.md R27). -/
def mag32 (x : Word32) : Nat :=
  if exp32 x = 0 then man32 x else (2 ^ 23 + man32 x) * 2 ^ (exp32 x - 1)

/-- Magnitude of a finite binary16 code in units of 2^-149; its own unit is 2^-24 (10_state.md R28). -/
def magF16 (h : Code) : Nat :=
  if expF16 h = 0 then manF16 h * 2 ^ 125 else (2 ^ 10 + manF16 h) * 2 ^ (expF16 h - 1) * 2 ^ 125

/-- Magnitude of a finite bfloat16 code in units of 2^-149; its own unit is 2^-133 (10_state.md R29). -/
def magBF16 (b : Code) : Nat :=
  if expBF16 b = 0 then manBF16 b * 2 ^ 16 else (2 ^ 7 + manBF16 b) * 2 ^ (expBF16 b - 1) * 2 ^ 16

/-- A binary32 pattern from its fields, each cut to its width. -/
def word32 (s : BitVec 1) (e m : Nat) : Word32 :=
  (s ++ (BitVec.ofNat 8 e ++ BitVec.ofNat 23 m : BitVec (8 + 23)) : BitVec (1 + (8 + 23)))

/-- `{s, h[14:0]}`: a code from a sign and its fifteen lower bits. -/
def signedCode (s : BitVec 1) (h : Nat) : Code := (s ++ BitVec.ofNat 15 h : BitVec (1 + 15))

end Sys2Proof.Machine
end

