-- ==== Sys2Proof/Machine/Operands.lean ====
section
/-! DEFINITION. Operand forms: the cutting of a data vector into lanes and the packing of results (30_encoding.md R64,
R65, R67). There is no other operand assembly. -/

namespace Sys2Proof.Machine

/-- Wide lane `i`, bits `[32*i + 31 : 32*i]` (30_encoding.md R64). -/
def wideLane (v : DataVec) (i : Nat) : Word32 := v.getD i 0

/-- Narrow lane `i`, bits `[16*i + 15 : 16*i]` (30_encoding.md R65): one half of word `i / 2`. -/
def narrowLane (v : DataVec) (i : Nat) : Code :=
  if i % 2 = 0 then (v.getD (i / 2) 0).extractLsb' 0 16 else (v.getD (i / 2) 0).extractLsb' 16 16

/-- The vector whose wide lane `i` is `f i`, for each of the block's lanes. -/
def packWide (L : LaneCount) (f : Nat → Word32) : DataVec := (List.range L.count).map f

/-- Code `i` of a packed vector: `f i` in the block's lanes, zero above them (30_encoding.md R65: "the high half is all
zeros"). -/
def codeOrZero (L : LaneCount) (f : Nat → Code) (i : Nat) : Code := if i < L.count then f i else 0

/-- The vector whose narrow lane `i` is `f i`, for each of the block's lanes, the high half zero. -/
def packNarrow (L : LaneCount) (f : Nat → Code) : DataVec :=
  (List.range L.count).map fun j =>
    (codeOrZero L f (2 * j + 1) ++ codeOrZero L f (2 * j) : BitVec (16 + 16))

/-- Execution of format ENC (30_encoding.md R66): every lane, no mask. -/
def encLanes (L : LaneCount) (f : Word32 → Code) (v : DataVec) : DataVec :=
  packNarrow L fun i => f (wideLane v i)

/-- Execution of format DEC (30_encoding.md R66): every lane, no mask, the high half of the operand not read. -/
def decLanes (L : LaneCount) (f : Code → Word32) (v : DataVec) : DataVec :=
  packWide L fun i => f (narrowLane v i)

/-- What `32 * LANES` wires carry of a list of words: exactly `LANES` words (60_exceptions.md R177, log 10). -/
def fitLanes (L : LaneCount) (v : DataVec) : DataVec := packWide L (wideLane v)

end Sys2Proof.Machine
end

