-- ==== Sys2Proof/Machine/Flags.lean ====
section
/-! DEFINITION. The block has no flags, condition codes or rounding mode (10_state.md R24); the one status bit of the
interface is `rsp_err`, which "travels with a response and is not stored". This file says when it is 0 and when 1. -/

namespace Sys2Proof.Machine

/-- The response of a defined operation: `rsp_err = 0`, whatever the operands (30_encoding.md R61). -/
def Response.ok (data : DataVec) : Response := { err := false, data := data }

/-- The response to a reserved operation code: `rsp_err = 1` and `rsp_data` all zeros (30_encoding.md R68). -/
def Response.reserved (L : LaneCount) : Response := { err := true, data := packWide L fun _ => 0 }

/-- A response as it can stand on the pins of a block of `L` lanes: `32*LANES` bits of data, and no data beside an
error (30_encoding.md R61, R68). -/
def Response.wf (L : LaneCount) (r : Response) : Bool :=
  DataVec.fits L r.data && (!r.err || r == Response.reserved L)

end Sys2Proof.Machine
end

