-- ==== Sys2Proof/Machine/Ops.lean ====
section
/-! DEFINITION. The shared operations on the block's queue and pins (10_state.md R30, 30_encoding.md R72, R73,
70_reset_and_hazards.md R190). The block has no register, so there is no register read or write; it takes no exception
and returns from none (60_exceptions.md R175): the one error event is `State.answerReserved`. -/

namespace Sys2Proof.Machine

/-- Put an accepted request, with its response, at the end of the queue. At least `LAT` edges lie between this and the
offer of the response; the rest is a free value that no operand reaches (70_reset_and_hazards.md R196, R197; log 4). -/
def State.answer (s : State) (op : OpCode) (operand : DataVec) (rsp : Response) : State :=
  { s with queue := s.queue ++
      [{ op, operand, rsp, wait := s.params.lat + Config.extraLatency op s.queue.length s.tick }] }

/-- The one error event (60_exceptions.md R171, R172): a reserved operation code is answered "like any other, in order,
with `rsp_err = 1` and `rsp_data` all zeros" (30_encoding.md R68), its operands not examined (R174). -/
def State.answerReserved (s : State) (r : Request) : State :=
  s.answer r.op r.data (Response.reserved s.params.lanes)

/-- `req_ready`: low in reset and while the queue is full (10_state.md R30, 70_reset_and_hazards.md R190). -/
def State.reqReady (s : State) (rstN : Bool) : Bool := rstN && decide (s.queue.length < s.params.depth)

/-- `rsp_valid`: high while the queue's head is finished, low in reset (10_state.md R30, 70_reset_and_hazards.md
R190). -/
def State.rspValid (s : State) (rstN : Bool) : Bool :=
  rstN && match s.queue with
    | [] => false
    | e :: _ => decide (e.wait = 0)

/-- The response on the pins `rsp_err` and `rsp_data`: the head's while `rsp_valid = 1`, otherwise free
(30_encoding.md R73, 93_implementation_defined.md U5; log 5). -/
def State.rspPins (s : State) (rstN : Bool) : Response :=
  match s.queue with
  | e :: _ => if s.rspValid rstN then e.rsp else idle
  | [] => idle
where
  idle : Response :=
    { err := Config.idleRspErr s.tick, data := packWide s.params.lanes (Config.idleRspData s.tick) }

/-- The host takes the response at the head (30_encoding.md R73). -/
def State.takeHead (s : State) : State :=
  match s.queue with
  | [] => s
  | e :: rest => { s with queue := rest, received := s.received ++ [e.rsp] }

/-- One edge passes for an entry in flight. -/
def Entry.age (e : Entry) : Entry := { e with wait := e.wait - 1 }

/-- One edge passes for everything in flight. -/
def State.passEdge (s : State) : State :=
  { s with queue := s.queue.map Entry.age, tick := s.tick + 1 }

/-- The host stops counting on a response it has not taken: only the first `taken` responses exist (log 20). -/
def Round.lose (taken : Nat) (r : Round) : Round := { r with ticket := r.ticket.filter fun n => decide (n < taken) }

/-- What is in flight is lost: "never answered" (70_reset_and_hazards.md R190), and the host no longer counts on it. -/
def State.loseInFlight (s : State) : State :=
  { s with queue := [], rounds := s.rounds.map (Round.lose s.received.length) }

/-- An edge at which `rst_n = 0`: the queue is emptied and its requests "are never answered"; memory, the responses
taken and the coming moves stay (70_reset_and_hazards.md R190, 10_state.md R32). -/
def State.resetBlock (s : State) : State := { s.loseInFlight with tick := s.tick + 1 }

/-- The host takes every outstanding response, in order (30_encoding.md R73: each is offered after finitely many
edges). -/
def State.drain (s : State) : State :=
  { s with queue := [], received := s.received ++ s.queue.map Entry.rsp }

end Sys2Proof.Machine
end

