-- ==== Sys2Proof/Machine/BFloat16.lean ====
section
/-! DEFINITION. `bf16.enc`, `bf16.dec` and `bf16.enc.rne` (41_bfloat16.md). -/

namespace Sys2Proof.Machine

/-- `BF16ENC(x) = x[31:16]`: truncation, no special case, NaN included (41_bfloat16.md R131, R132). -/
def bf16enc (x : Word32) : Code := x.extractLsb' 16 16

/-- `BF16DEC(b) = {b, 0x0000}` (41_bfloat16.md R134). -/
def bf16dec (b : Code) : Word32 := (b ++ 0#16 : BitVec (16 + 16))

/-- `BF16ENCR`: nearest, ties to even at bit 16; a NaN is truncated and quieted (41_bfloat16.md R138). -/
def bf16encr (x : Word32) : Code :=
  if exp32 x = 255 ∧ man32 x ≠ 0 then x.extractLsb' 16 16 ||| 0x0040
  else BitVec.ofNat 16 ((x.toNat + 0x7FFF + (x.getLsbD 16).toNat) >>> 16)

/-- `bf16.enc`: every lane through `BF16ENC` (41_bfloat16.md R131, 30_encoding.md R66). -/
def execBf16Enc (data : DataVec) (s : State) : Outcome :=
  .next (s.answer Op.bf16Enc.code data (.ok (encLanes s.params.lanes bf16enc data)))

/-- `bf16.dec`: every lane through `BF16DEC` (41_bfloat16.md R134, 30_encoding.md R66). -/
def execBf16Dec (data : DataVec) (s : State) : Outcome :=
  .next (s.answer Op.bf16Dec.code data (.ok (decLanes s.params.lanes bf16dec data)))

/-- `bf16.enc.rne`: every lane through `BF16ENCR` (41_bfloat16.md R138, 30_encoding.md R66). -/
def execBf16EncRne (data : DataVec) (s : State) : Outcome :=
  .next (s.answer Op.bf16EncRne.code data (.ok (encLanes s.params.lanes bf16encr data)))

end Sys2Proof.Machine
end

