-- ==== Sys2Proof/Machine/Float16.lean ====
section
/-! DEFINITION. `f16.enc` and `f16.dec` (40_float16.md). Every variable of the pseudocode is an unbounded natural
number (00_scope.md R11). -/

namespace Sys2Proof.Machine

/-- `{s, 0x7E00[14:0]}` (40_float16.md R102), its mantissa the parameter `F16_QNAN_MANT` (00_scope.md R6). -/
def f16CanonicalNaN (s : BitVec 1) : Code := signedCode s (0x7C00 ||| Config.f16QnanMant.toNat)

/-- `{s, 0x7C00[14:0]}` (40_float16.md R96). -/
def f16Infinity (s : BitVec 1) : Code := signedCode s 0x7C00

/-- The increment of rounding to nearest: the last `if` of 40_float16.md R96 for `even`; "`if rem >= half: h = h + 1`"
for `away` (93_implementation_defined.md U2). -/
def roundNearest (tie : TieRule) (h rem half : Nat) : Nat :=
  match tie with
  | .even => if rem > half ∨ (rem = half ∧ h % 2 = 1) then h + 1 else h
  | .away => if rem ≥ half then h + 1 else h

/-- Normal range, `113 <= e <= 142`: exponent and mantissa, rounded at bit 13 (40_float16.md R96, R98). -/
def f16encNormal (tie : TieRule) (e m : Nat) : Nat :=
  roundNearest tie (((e - 112) <<< 10) ||| (m >>> 13)) (m &&& 0x1FFF) 0x1000

/-- Subnormal range and below, `e <= 112`: shifted right by `sh` and rounded once, at bit `sh` (40_float16.md R96,
R98, R99). -/
def f16encSubnormal (tie : TieRule) (e m : Nat) : Nat :=
  let sh := min (126 - e) 25
  let sig := 0x800000 ||| m
  roundNearest tie (sig >>> sh) (sig &&& ((1 <<< sh) - 1)) (1 <<< (sh - 1))

/-- `F16ENC` under a tie rule (40_float16.md R96). -/
def f16encWith (tie : TieRule) (x : Word32) : Code :=
  let s := sign32 x
  let e := exp32 x
  let m := man32 x
  if e = 255 ∧ m ≠ 0 then f16CanonicalNaN s
  else if e = 255 ∧ m = 0 then f16Infinity s
  else if e ≥ 143 then f16Infinity s
  else if e ≥ 113 then signedCode s (f16encNormal tie e m)
  else signedCode s (f16encSubnormal tie e m)

/-- `F16ENC : bits32 -> bits16` (40_float16.md R96). -/
def f16enc (x : Word32) : Code := f16encWith Config.f16Tie x

/-- `F16DEC : bits16 -> bits32` (40_float16.md R110); exponent 31 is tested first (90_conflicts.md C9). -/
def f16dec (h : Code) : Word32 :=
  let s := sign16 h
  let e := expF16 h
  let m := manF16 h
  if e = 31 ∧ m ≠ 0 then (s ++ 0x7FC00000#31 : BitVec (1 + 31)) ||| BitVec.ofNat 32 (m <<< 13)
  else if e = 31 ∧ m = 0 then (s ++ 0x7F800000#31 : BitVec (1 + 31))
  else if e ≠ 0 then word32 s (e + 112) (m <<< 13)
  else if m ≠ 0 then
    let k := Nat.log2 m
    word32 s (103 + k) ((m <<< (23 - k)) &&& 0x7FFFFF)
  else (s ++ 0#31 : BitVec (1 + 31))

/-- `f16.enc`: every lane through `F16ENC` (40_float16.md R96, 30_encoding.md R66). -/
def execF16Enc (data : DataVec) (s : State) : Outcome :=
  .next (s.answer Op.f16Enc.code data (.ok (encLanes s.params.lanes f16enc data)))

/-- `f16.dec`: every lane through `F16DEC` (40_float16.md R110, 30_encoding.md R66). -/
def execF16Dec (data : DataVec) (s : State) : Outcome :=
  .next (s.answer Op.f16Dec.code data (.ok (decLanes s.params.lanes f16dec data)))

end Sys2Proof.Machine
end

