-- ==== Sys2Proof/Machine/Dispatch.lean ====
section
/-! DEFINITION. One meaning per instruction (30_encoding.md R63). -/

namespace Sys2Proof.Machine

def exec (i : Instr) (s : State) : Host.Outcome State Fault Refusal :=
  match i with
  | .f16Enc data => Sys2Proof.Machine.execF16Enc data s
  | .f16Dec data => Sys2Proof.Machine.execF16Dec data s
  | .bf16Enc data => Sys2Proof.Machine.execBf16Enc data s
  | .bf16Dec data => Sys2Proof.Machine.execBf16Dec data s
  | .bf16EncRne data => Sys2Proof.Machine.execBf16EncRne data s

end Sys2Proof.Machine
end

