-- ==== Sys2Proof/Machine/Memory.lean ====
section
/-! DEFINITION. Host memory: byte read and write in one canonical form, and the little-endian `MemRead` and `MemWrite`
of the batch rules (00_scope.md R12, 20_memory.md R41 to R45). The block itself reaches no memory (R40). -/

namespace Sys2Proof.Machine

/-- What an address reads as that nothing has stored to (DESIGN CHOICE, log 11). -/
def Memory.unlisted : Byte := 0

/-- The byte at an address; every natural number is an address (20_memory.md R41, R47). -/
def Memory.readByte : Memory → Nat → Byte
  | [], _ => Memory.unlisted
  | (b, v) :: m, a => if a = b then v else Memory.readByte m a

/-- Store one byte, keeping addresses rising and no entry equal to `unlisted`. -/
def Memory.writeByte : Memory → Nat → Byte → Memory
  | [], a, v => if v = Memory.unlisted then [] else [(a, v)]
  | (b, u) :: m, a, v =>
    if b < a then (b, u) :: Memory.writeByte m a v
    else if a = b then (if v = Memory.unlisted then m else (a, v) :: m)
    else (if v = Memory.unlisted then (b, u) :: m else (a, v) :: (b, u) :: m)

/-- The canonical form: addresses strictly rising, no entry an unlisted address would read as. -/
abbrev Memory.wf (m : Memory) : Prop :=
  m.Pairwise (fun x y => x.1 < y.1) ∧ ∀ c ∈ m, c.2 ≠ Memory.unlisted

/-- `MemRead(addr, n)`: `n` bytes, "assembled in little-endian order" (00_scope.md R12, 20_memory.md R42). -/
def memRead (m : Memory) (a : Nat) : Nat → Nat
  | 0 => 0
  | n + 1 => (Memory.readByte m a).toNat + 256 * memRead m (a + 1) n

/-- `MemWrite(addr, n, v)`: "stores the 8n-bit value v the same way" (00_scope.md R12). -/
def memWrite (m : Memory) (a : Nat) : Nat → Nat → Memory
  | 0, _ => m
  | n + 1, v => memWrite (Memory.writeByte m a (BitVec.ofNat 8 v)) (a + 1) n (v / 256)

/-- Element `i` of an array of codes at `base` (20_memory.md R41). -/
def codeAt (m : Memory) (base i : Nat) : Code := BitVec.ofNat 16 (memRead m (base + 2 * i) 2)

/-- Element `i` of an array of binary32 values at `base` (20_memory.md R43). -/
def wordAt (m : Memory) (base i : Nat) : Word32 := BitVec.ofNat 32 (memRead m (base + 4 * i) 4)

/-- The host's own store. -/
def State.hostStore (s : State) (a n v : Nat) : State := { s with mem := memWrite s.mem a n v }

end Sys2Proof.Machine
end

