-- ==== Sys2Proof/Machine/Batch.lean ====
section
/-! DEFINITION. The host's batch conversion, `<op>.batch dst, src, n` (42_lanes_and_batch.md R153 to R156), as the loop of
R153 over requests the block executes. -/

namespace Sys2Proof.Machine

/-- `win`: bytes per source element (42_lanes_and_batch.md R153). -/
def srcBytes (op : Op) : Nat :=
  match op.format with
  | .enc => 4
  | .dec => 2

/-- `wout`: bytes per destination element (42_lanes_and_batch.md R153). -/
def dstBytes (op : Op) : Nat :=
  match op.format with
  | .enc => 2
  | .dec => 4

/-- The bytes read and the bytes written are disjoint (42_lanes_and_batch.md R156 (b)); empty ranges are (R156 (a)). -/
def batchDisjoint (b : Batch) : Bool :=
  decide (b.n = 0 ∨ b.src + srcBytes b.op * b.n ≤ b.dst ∨ b.dst + dstBytes b.op * b.n ≤ b.src)

/-- `ceil(n / LANES)`, the number of requests (42_lanes_and_batch.md R153). -/
def batchRequests (L : LaneCount) (n : Nat) : Nat := (n + L.count - 1) / L.count

/-- `cnt = min(LANES, n - j*LANES)`, the real lanes of round `j`. -/
def roundCount (L : LaneCount) (b : Batch) (j : Nat) : Nat := min L.count (b.n - j * L.count)

/-- `MemRead(src + win*k, win)`: source element `k`. -/
def sourceElement (b : Batch) (m : Memory) (k : Nat) : Nat := memRead m (b.src + srcBytes b.op * k) (srcBytes b.op)

/-- The operand with value `f i` in lane `i`: wide lanes for format ENC, narrow ones for DEC. -/
def packOperand (L : LaneCount) (op : Op) (f : Nat → Nat) : DataVec :=
  match op.format with
  | .enc => packWide L fun i => BitVec.ofNat 32 (f i)
  | .dec => packNarrow L fun i => BitVec.ofNat 16 (f i)

/-- The operand of round `j`: lane `i` is source element `j*LANES + i` if `i < cnt`, zero otherwise. -/
def roundOperand (L : LaneCount) (b : Batch) (m : Memory) (j : Nat) : DataVec :=
  packOperand L b.op fun i => if i < roundCount L b j then sourceElement b m (j * L.count + i) else 0

/-- Lane `i` of a result, as the number that is stored. -/
def resultLane (op : Op) (v : DataVec) (i : Nat) : Nat :=
  match op.format with
  | .enc => (narrowLane v i).toNat
  | .dec => (wideLane v i).toNat

/-- `MemWrite(dst + wout*k, wout, v)`: destination element `k`. -/
def storeElement (b : Batch) (m : Memory) (k v : Nat) : Memory :=
  memWrite m (b.dst + dstBytes b.op * k) (dstBytes b.op) v

/-- `MemWrite` of the lanes below `cnt` of round `j`'s result; the others are discarded. -/
def storeRound (L : LaneCount) (b : Batch) (j : Nat) (result : DataVec) (m : Memory) : Memory :=
  (List.range (roundCount L b j)).foldl (fun m i => storeElement b m (j * L.count + i) (resultLane b.op result i)) m

/-- Take the round's response, the last in flight, and store its real lanes. -/
def finishRound (b : Batch) (j : Nat) (s : State) : State :=
  let m := match s.queue.getLast? with
    | some e => storeRound s.params.lanes b j e.rsp.data s.mem
    | none => s.mem
  { s.drain with mem := m, tick := s.tick + 1 }

/-- One round of R153: with every earlier response taken (log 12), present the request, take its response, store. -/
def batchRound (b : Batch) (j : Nat) (s : State) : Outcome :=
  match exec (Instr.ofOp b.op (roundOperand s.params.lanes b s.mem j)) s.drain with
  | .next t => .next (finishRound b j t)
  | .fault r => .fault r
  | .refused r => .refused r

/-- One round as a move of its own; a batch with overlapping ranges is refused here too. R153 has rounds 0 to
`ceil(n / LANES) - 1` only, and none for `n = 0` (R156 (a)); that a `round` move with another `j` issues no request,
reads and writes nothing and is no error is the model's choice (DESIGN CHOICE, log 12). -/
def execRound (b : Batch) (j : Nat) (s : State) : Outcome :=
  if batchDisjoint b then
    if j < batchRequests s.params.lanes b.n then batchRound b j s else .next s
  else .refused .batchOverlap

/-- `k` rounds from round `j` on. -/
def batchRounds (b : Batch) : Nat → Nat → State → Outcome
  | 0, _, s => .next s
  | k + 1, j, s =>
    match batchRound b j s with
    | .next t => batchRounds b k (j + 1) t
    | .fault r => .fault r
    | .refused r => .refused r

/-- The whole batch (42_lanes_and_batch.md R153); one with overlapping ranges is refused (R156, log 13). -/
def execBatch (b : Batch) (s : State) : Outcome :=
  if batchDisjoint b then batchRounds b (batchRequests s.params.lanes b.n) 0 s else .refused .batchOverlap

end Sys2Proof.Machine
end

