-- ==== Sys2Proof/Machine/Edge.lean ====
section
/-! DEFINITION. One rising edge of `clk` (30_encoding.md R73, 70_reset_and_hazards.md R190), and how a request is placed
for the next edge. -/

namespace Sys2Proof.Machine

/-- The request accepted at an edge with pins `p`, if any: `rst_n`, `req_valid` and `req_ready` all 1. The port carries
exactly `32*LANES` data bits (30_encoding.md R72, R73). -/
def acceptedRequest (p : Pins) (s : State) : Option Request :=
  if p.reqValid && s.reqReady p.rstN then
    some { op := p.reqOp, data := fitLanes s.params.lanes p.reqData }
  else none

/-- The edge's other effects: the offered response is taken if `rsp_ready = 1`, and everything in flight moves on by one
edge. -/
def restOfEdge (p : Pins) (s : State) : State :=
  (if p.rspReady && s.rspValid p.rstN then s.takeHead else s).passEdge

/-- Turn an accepted request into its response: an operation is executed, a reserved code answered with `rsp_err = 1`
(30_encoding.md R60, R66, R68). -/
def acceptRequest (r : Request) (s : State) : Outcome :=
  match decode r with
  | .ok i => exec i s
  | .error _ => .next (s.answerReserved r)

/-- One rising edge. What is accepted and what is taken is settled by the levels before the edge (log 7). -/
def edge (p : Pins) (s : State) : Outcome :=
  if p.rstN then
    match acceptedRequest p s with
    | some r => acceptRequest r (restOfEdge p s)
    | none => .next (restOfEdge p s)
  else .next s.resetBlock

/-- The pins that offer a request, with `rsp_ready` at a given level. -/
def offerPins (r : Request) (rspReady : Bool) : Pins :=
  { rstN := true, reqValid := true, reqOp := r.op, reqData := r.data, rspReady }

/-- `s` with the request offered at the next edge and room in the queue to accept it: what fills a full queue is lost, and a
`DEPTH` of 0, which no block has, becomes 1 (log 14). -/
def State.withOffer (s : State) (r : Request) : State :=
  let depth := max 1 s.params.depth
  let t := if s.queue.length < depth then s else s.loseInFlight
  { t with
    params := { s.params with depth := depth }
    moves := .drive (offerPins r false) :: s.moves }

end Sys2Proof.Machine
end

