-- ==== Sys2Proof/Machine/Rounds.lean ====
section
/-! DEFINITION. The rounds the host has in hand (42_lanes_and_batch.md R153), one memory access at a time, so that several
batches can be under way at once with their requests and accesses interleaved in any order (20_memory.md R55,
42_lanes_and_batch.md R156 (d), 60_exceptions.md R178; log 23). -/

namespace Sys2Proof.Machine

/-- A round of which nothing is done yet. -/
def Round.fresh (b : Batch) (j : Nat) : Round := { batch := b, j, loaded := [], ticket := none, written := [] }

/-- `cnt`: the real lanes of the round. -/
def Round.cnt (L : LaneCount) (r : Round) : Nat := roundCount L r.batch r.j

/-- The array element in lane `i` of the round. -/
def Round.element (L : LaneCount) (r : Round) (i : Nat) : Nat := r.j * L.count + i

/-- Every real lane of the operand is read. -/
def Round.ready (L : LaneCount) (r : Round) : Bool := (List.range (r.cnt L)).all fun i => (r.loaded.lookup i).isSome

/-- Every real lane of the result is stored. -/
def Round.finished (L : LaneCount) (r : Round) : Bool := (List.range (r.cnt L)).all fun i => r.written.contains i

/-- The operand as read: a lane that is not read is zero. -/
def Round.operand (L : LaneCount) (r : Round) : DataVec := packOperand L r.batch.op fun i => (r.loaded.lookup i).getD 0

/-- The request of the round. -/
def Round.request (L : LaneCount) (r : Round) : Request := { op := r.batch.op.code, data := r.operand L }

/-- The rounds of a batch, one for each of its requests, with nothing done. -/
def freshRounds (L : LaneCount) (b : Batch) : List Round := (List.range (batchRequests L b.n)).map (Round.fresh b)

/-- Take a batch in hand; one with overlapping ranges is refused (R156 (b), log 13). Of two batches whose ranges overlap
each other 20_memory.md R55 says nothing; that both are taken in hand and their accesses act one after the other, in the
order of the moves, is the model's choice (DESIGN CHOICE, log 23). -/
def startBatch (b : Batch) (s : State) : Outcome :=
  if batchDisjoint b then .next { s with rounds := s.rounds ++ freshRounds s.params.lanes b }
  else .refused .batchOverlap

/-- The round with operand lane `i` read: only a real lane, once, and before the request is accepted. -/
def Round.load (L : LaneCount) (m : Memory) (i : Nat) (r : Round) : Round :=
  if i < r.cnt L ∧ r.ticket = none ∧ r.loaded.lookup i = none then
    { r with loaded := (i, sourceElement r.batch m (r.element L i)) :: r.loaded }
  else r

/-- Read operand lane `i` of the `k`-th round in hand. -/
def State.loadLane (k i : Nat) (s : State) : State :=
  { s with rounds := s.rounds.modify k (Round.load s.params.lanes s.mem i) }

/-- The response of the round, once the host has taken it. -/
def Round.response (received : List Response) (r : Round) : Option Response :=
  r.ticket.bind fun n => received[n]?

/-- Result lane `i` of the `k`-th round in hand, with the round, if it may be stored now: a real lane, once, of a response
that is taken. -/
def State.toWrite (k i : Nat) (s : State) : Option (Round × Nat) :=
  match s.rounds[k]? with
  | none => none
  | some r =>
    match r.response s.received with
    | none => none
    | some q =>
      if i < r.cnt s.params.lanes ∧ i ∉ r.written then some (r, resultLane r.batch.op q.data i) else none

/-- Store result lane `i` of the `k`-th round in hand. -/
def State.writeLane (k i : Nat) (s : State) : State :=
  match s.toWrite k i with
  | some (r, v) =>
    { s with
      mem := storeElement r.batch s.mem (r.element s.params.lanes i) v
      rounds := s.rounds.set k { r with written := i :: r.written } }
  | none => s

/-- The request the `k`-th round in hand offers: one not accepted yet, its operand read. -/
def State.toAsk (k : Nat) (s : State) : Option Request :=
  match s.rounds[k]? with
  | none => none
  | some r => if r.ticket = none ∧ r.ready s.params.lanes then some (r.request s.params.lanes) else none

/-- The host notes that response number `n` is the `k`-th round's (20_memory.md R50: by counting). -/
def State.noteTicket (k n : Nat) (s : State) : State :=
  { s with rounds := s.rounds.modify k fun r => { r with ticket := some n } }

end Sys2Proof.Machine
end

