-- ==== Sys2Proof/Machine/Moves.lean ====
section
/-! DEFINITION. One move of the host (log 2). -/

namespace Sys2Proof.Machine

/-- The pins at the edge of an `ask` move: the round's request, or none if the round has none to offer (log 23). -/
def askPins (k : Nat) (rspReady : Bool) (s : State) : Pins :=
  match s.toAsk k with
  | some r => offerPins r rspReady
  | none => { Pins.idle with rspReady }

/-- The pins of a move that is one rising edge. -/
def edgePins (m : HostMove) (s : State) : Option Pins :=
  match m with
  | .drive p => some p
  | .ask k rspReady => some (askPins k rspReady s)
  | .batch _ => none
  | .round _ _ => none
  | .start _ => none
  | .load _ _ => none
  | .await => none
  | .write _ _ => none
  | .store _ _ _ => none

/-- How many responses the block owes or has given: the number of the next accepted request's response
(20_memory.md R50). -/
def State.nextTicket (s : State) : Nat := s.received.length + s.queue.length

/-- The edge of an `ask` move; if the request is accepted the host notes which response will be its own. -/
def askRound (k : Nat) (rspReady : Bool) (s : State) : Outcome :=
  match edge (askPins k rspReady s) s with
  | .next t => .next (if (acceptedRequest (askPins k rspReady s) s).isSome then t.noteTicket k s.nextTicket else t)
  | .fault r => .fault r
  | .refused r => .refused r

/-- One host move. -/
def runMove (m : HostMove) (s : State) : Outcome :=
  match m with
  | .drive p => edge p s
  | .batch b => execBatch b s
  | .round b j => execRound b j s
  | .start b => startBatch b s
  | .load k i => .next (s.loadLane k i)
  | .ask k rspReady => askRound k rspReady s
  | .await => .next s.drain
  | .write k i => .next (s.writeLane k i)
  | .store a n v => .next (s.hostStore a n v)

end Sys2Proof.Machine
end

