-- ==== Sys2Proof/Machine/Step.lean ====
section
/-! DEFINITION. One step: the host's next move (log 2); with none left, one edge with idle pins. -/

namespace Sys2Proof.Machine

def step (s : State) : Host.Outcome State Fault Refusal :=
  match s.moves with
  | [] => runMove (.drive Pins.idle) s
  | m :: rest => runMove m { s with moves := rest }

/-- `s` with the request of an opcode-table word offered at the next edge (log 9, log 14). -/
def State.withFetchWord (s : State) (nbits w : Nat) : State :=
  s.withOffer (tableRequest s.params.lanes nbits w)

end Sys2Proof.Machine
end

