-- ==== Sys2Proof/Machine/Assembler.lean ====
section
/-! DEFINITION. The line syntax of 30_encoding.md R70 and R71: one line of text to one host move, a response to its line
of text, and the named constants (40_float16.md R118, 41_bfloat16.md R142). All of it is the host's; the block never
sees it. Details the rules leave open are in log 17. -/

namespace Sys2Proof.Machine

/-- The sixteen symbols `F16_<NAME>`, `BF16_<NAME>` and the literals they expand to (30_encoding.md R71). -/
def constantTable : List (String × Code) :=
  [("F16_MIN", 0x0400), ("F16_MAX", 0x7BFF), ("F16_LOWEST", 0xFBFF), ("F16_EPSILON", 0x1400),
    ("F16_DENORM_MIN", 0x0001), ("F16_INFINITY", 0x7C00), ("F16_QUIET_NAN", 0x7E00), ("F16_SIGNALING_NAN", 0x7D00)] ++
  [("BF16_MIN", 0x0080), ("BF16_MAX", 0x7F7F), ("BF16_LOWEST", 0xFF7F), ("BF16_EPSILON", 0x3C00),
    ("BF16_DENORM_MIN", 0x0001), ("BF16_INFINITY", 0x7F80), ("BF16_QUIET_NAN", 0x7FC0), ("BF16_SIGNALING_NAN", 0x7FA0)]

/-- The code of a symbol. -/
def constantOf (name : List Char) : Option Code :=
  (constantTable.find? fun p => p.1.toList == name).map Prod.snd

/-- The mnemonics (30_encoding.md R63). -/
def mnemonicTable : List (String × Op) :=
  [("f16.enc", .f16Enc), ("f16.dec", .f16Dec), ("bf16.enc", .bf16Enc), ("bf16.dec", .bf16Dec),
    ("bf16.enc.rne", .bf16EncRne)]

/-- The operation of a mnemonic. -/
def opOfName (name : List Char) : Option Op :=
  (mnemonicTable.find? fun p => p.1.toList == name).map Prod.snd

/-- The operation of a batch mnemonic `<mnemonic>.batch`. -/
def batchOpOfName (name : List Char) : Option Op :=
  (mnemonicTable.find? fun p => p.1.toList ++ ".batch".toList == name).map Prod.snd

/-- Why a line is not assembled. -/
inductive AsmError where
  /-- The first word is no mnemonic, no batch mnemonic and not `.op`. -/
  | unknownMnemonic
  /-- An operand that is no hexadecimal literal of the lane's width, and no symbol where one may stand. -/
  | badOperand
  /-- "More than `LANES` operands is an error of the assembler" (30_encoding.md R70). -/
  | tooManyOperands
  /-- A line without its first operand, or a batch line without its three. -/
  | missingOperand
  deriving DecidableEq, Repr

/-- A blank of the line. -/
def isBlank (c : Char) : Bool := c == ' ' || c == '\t'

/-- The text without blanks at either end. -/
def trimBlanks (cs : List Char) : List Char :=
  ((cs.dropWhile isBlank).reverse.dropWhile isBlank).reverse

/-- The line without its comment (30_encoding.md R70). -/
def stripComment (cs : List Char) : List Char := trimBlanks (cs.takeWhile (· != ';'))

/-- The pieces between commas. -/
def splitCommas : List Char → List (List Char)
  | [] => [[]]
  | c :: cs =>
    if c == ',' then [] :: splitCommas cs
    else match splitCommas cs with
      | [] => [[c]]
      | p :: ps => (c :: p) :: ps

/-- The operand texts after a mnemonic; none if there is no text. -/
def operandTexts (cs : List Char) : List (List Char) :=
  match trimBlanks cs with
  | [] => []
  | t => (splitCommas t).map trimBlanks

/-- The value of one digit below `base`. -/
def digitValue (base : Nat) (c : Char) : Option Nat :=
  let v := if '0' ≤ c && c ≤ '9' then c.toNat - 48
    else if 'A' ≤ c && c ≤ 'F' then c.toNat - 55
    else if 'a' ≤ c && c ≤ 'f' then c.toNat - 87
    else base
  if v < base then some v else none

/-- A numeral, its most significant digit first. -/
def numeral (base : Nat) (cs : List Char) : Option Nat :=
  match cs with
  | [] => none
  | _ => cs.foldl (fun acc c => do return (← acc) * base + (← digitValue base c)) (some 0)

/-- `0x` and exactly `digits` hexadecimal digits. -/
def hexLiteral (digits : Nat) (cs : List Char) : Option Nat :=
  match cs with
  | '0' :: 'x' :: ds => if ds.length = digits then numeral 16 ds else none
  | _ => none

/-- An address or a count of a batch line: hexadecimal after `0x`, decimal otherwise. -/
def number (cs : List Char) : Option Nat :=
  match cs with
  | '0' :: 'x' :: ds => numeral 16 ds
  | _ => numeral 10 cs

/-- A 4-digit operand, or a symbol, which may stand "wherever a 4-digit literal may stand" (30_encoding.md R71). -/
def codeOperand (cs : List Char) : Option Code :=
  match constantOf cs with
  | some c => some c
  | none => (hexLiteral 4 cs).map (BitVec.ofNat 16)

/-- An 8-digit operand (30_encoding.md R70). -/
def wordOperand (cs : List Char) : Option Word32 := (hexLiteral 8 cs).map (BitVec.ofNat 32)

/-- At least one operand and at most `LANES`, each read by `f`. -/
def laneOperands {α : Type} (L : LaneCount) (f : List Char → Option α) (ts : List (List Char)) : Except AsmError (List α) :=
  if ts = [] then .error .missingOperand
  else if L.count < ts.length then .error .tooManyOperands
  else match ts.mapM f with
    | some vs => .ok vs
    | none => .error .badOperand

/-- Wide lanes from the written operands, "the remaining lanes are zero" (30_encoding.md R70). -/
def wideOperands (L : LaneCount) (ts : List (List Char)) : Except AsmError DataVec :=
  (laneOperands L wordOperand ts).map fun vs => packWide L fun i => vs.getD i 0

/-- Narrow lanes from the written operands, "the remaining lanes are zero" (30_encoding.md R70). -/
def narrowOperands (L : LaneCount) (ts : List (List Char)) : Except AsmError DataVec :=
  (laneOperands L codeOperand ts).map fun vs => packNarrow L fun i => vs.getD i 0

/-- The move that presents a request and takes what is offered. For how many edges a line is offered 30_encoding.md R70
leaves open; that it is ONE edge, so that a request which meets `req_ready = 0` is not accepted and not offered again, is
the model's choice (DESIGN CHOICE, log 17). -/
def present (op : OpCode) (data : DataVec) : HostMove :=
  .drive { rstN := true, reqValid := true, reqOp := op, reqData := data, rspReady := true }

/-- `<op>.batch dst, src, n` (30_encoding.md R71). -/
def batchLine (op : Op) (ts : List (List Char)) : Except AsmError HostMove :=
  match ts with
  | [d, s, n] =>
    match number d, number s, number n with
    | some dst, some src, some n => .ok (.batch { op, dst, src, n })
    | _, _, _ => .error .badOperand
  | _ => .error .missingOperand

/-- `.op 0x<h>` followed by operands of 8 digits, for a reserved operation code (30_encoding.md R70). -/
def rawLine (L : LaneCount) (cs : List Char) : Except AsmError HostMove :=
  match hexLiteral 1 (cs.takeWhile (!isBlank ·)) with
  | some h => (wideOperands L (operandTexts (cs.dropWhile (!isBlank ·)))).map (present (BitVec.ofNat 4 h))
  | none => .error .badOperand

/-- One line of text to the host's move (30_encoding.md R70, R71). -/
def assemble (L : LaneCount) (line : List Char) : Except AsmError HostMove :=
  let cs := stripComment line
  let name := cs.takeWhile (!isBlank ·)
  let rest := trimBlanks (cs.dropWhile (!isBlank ·))
  if name = ".op".toList then rawLine L rest
  else match opOfName name, batchOpOfName name with
    | some op, _ =>
      match op.format with
      | .enc => (wideOperands L (operandTexts rest)).map (present op.code)
      | .dec => (narrowOperands L (operandTexts rest)).map (present op.code)
    | none, some op => batchLine op (operandTexts rest)
    | none, none => .error .unknownMnemonic

/-- The hexadecimal digit of a value below 16. -/
def hexDigit (v : Nat) : Char := Char.ofNat (if v < 10 then 48 + v else 55 + v)

/-- The `k` lowest hexadecimal digits of a number, the most significant first. -/
def hexDigits : Nat → Nat → List Char
  | 0, _ => []
  | k + 1, v => hexDigits k (v / 16) ++ [hexDigit (v % 16)]

/-- Pieces with a comma and a blank between them. -/
def joinCommas : List (List Char) → List Char
  | [] => []
  | [p] => p
  | p :: ps => p ++ ", ".toList ++ joinCommas ps

/-- The result lanes as text: 4 digits a lane for ENC, 8 for DEC (30_encoding.md R70). -/
def laneTexts (L : LaneCount) (f : Format) (v : DataVec) : List (List Char) :=
  (List.range L.count).map fun i => "0x".toList ++
    match f with
    | .enc => hexDigits 4 (narrowLane v i).toNat
    | .dec => hexDigits 8 (wideLane v i).toNat

/-- The line a response is written as: `-> <lane 0 result>, ...`, or `-> err` (30_encoding.md R70). -/
def responseLine (L : LaneCount) (f : Format) (r : Response) : List Char :=
  if r.err then "-> err".toList else "-> ".toList ++ joinCommas (laneTexts L f r.data)

end Sys2Proof.Machine
end

