-- ==== Sys2Proof/Machine/Respond.lean ====
section
/-! DEFINITION. The block as the spec's pure function "Op -> operands -> results" (10_state.md R20, 00_scope.md R9),
with no state argument. `exec` gives the same response request by request; that they agree is a claim about `exec`. -/

namespace Sys2Proof.Machine

/-- The scalar function of an operation (00_scope.md R13, 30_encoding.md R63). -/
inductive Scalar where
  | narrowing (f : Word32 → Code)
  | widening (f : Code → Word32)

/-- The column "scalar function" of 30_encoding.md R63. -/
def Op.scalar : Op → Scalar
  | .f16Enc => .narrowing f16enc
  | .f16Dec => .widening f16dec
  | .bf16Enc => .narrowing bf16enc
  | .bf16Dec => .widening bf16dec
  | .bf16EncRne => .narrowing bf16encr

/-- The scalar function applied to every lane (30_encoding.md R66). -/
def Scalar.lanes (L : LaneCount) : Scalar → DataVec → DataVec
  | .narrowing f => encLanes L f
  | .widening f => decLanes L f

/-- The response to a request, a function of the request alone (00_scope.md R9; the lane count is fixed by R7). -/
def respond (L : LaneCount) (r : Request) : Response :=
  match Op.ofCode? r.op with
  | some op => .ok ((Op.scalar op).lanes L r.data)
  | none => .reserved L

end Sys2Proof.Machine
end

