-- ==== Sys2Proof/Safety.lean ====
section
/-! DEFINITION. What counts as a good state and as a safe run, in the terms the claims use. -/

namespace Sys2Proof.Safety

open Sys2Proof.Machine

/-- A queue entry holds the response its own request has, and a request of the block's width (00_scope.md R9, 10_state.md
R30). -/
abbrev EntryOk (L : LaneCount) (e : Entry) : Prop :=
  DataVec.fits L e.operand = true ∧ e.rsp = respond L { op := e.op, data := e.operand }

/-- The responses the block still owes or has given, oldest first: what the host has taken and what is in flight
(20_memory.md R50). -/
def responsesInOrder (s : State) : List Response := s.received ++ s.queue.map Entry.rsp

/-- A round in hand counts right: the response it takes for its own is the one its own request has (20_memory.md R50). -/
abbrev RoundOk (s : State) (r : Round) : Prop :=
  ∀ n ∈ r.ticket, (responsesInOrder s)[n]? = some (respond s.params.lanes (r.request s.params.lanes))

/-- The invariant of the machine: parameters a block can have (00_scope.md R6), at most `DEPTH` requests in flight, each
with its own response (10_state.md R30), what the host received are responses of this block (30_encoding.md R61, R68),
every round in hand counts right, and memory in canonical form. -/
abbrev MachineInv (s : State) : Prop :=
  s.params.wf = true ∧ s.queue.length ≤ s.params.depth ∧ (∀ e ∈ s.queue, EntryOk s.params.lanes e) ∧
    (∀ r ∈ s.received, Response.wf s.params.lanes r = true) ∧ (∀ r ∈ s.rounds, RoundOk s r) ∧ Memory.wf s.mem

/-- The request the next step accepts, if it accepts one. -/
def nextRequest (s : State) : Option Request :=
  match s.moves with
  | [] => none
  | m :: rest => (edgePins m s).bind fun p => acceptedRequest p { s with moves := rest }

/-- The step as a proof about the host's program should see it (93_implementation_defined.md U1, 95_test_vectors.md P4):
a request with a reserved operation code is a fault of the program. Everywhere else it is `step` (log 8). -/
def strictStep (s : State) : Outcome :=
  match nextRequest s with
  | some r => if (Op.ofCode? r.op).isNone then .fault (.reservedOperation r.op) else step s
  | none => step s

/-- `k` steps of the host's program without a fault, a refusal or a reserved request. -/
def strictRun : Nat → State → Outcome
  | 0, s => .next s
  | k + 1, s =>
    match strictStep s with
    | .next t => strictRun k t
    | .fault r => .fault r
    | .refused r => .refused r

/-- A host move with the operand bits it carries erased (70_reset_and_hazards.md R196). -/
def eraseData : HostMove → HostMove
  | .drive p => .drive { p with reqData := [] }
  | .batch b => .batch b
  | .round b j => .round b j
  | .start b => .start b
  | .load k i => .load k i
  | .ask k rspReady => .ask k rspReady
  | .await => .await
  | .write k i => .write k i
  | .store a n _ => .store a n 0

/-- What timing may depend on of a round in hand: which round it is, which lanes are read, and whether its response is
still awaited, in what place of the queue, counted from 1; 0 is a response that is taken. No value that was read. -/
structure RoundTiming where
  batch : Batch
  j : Nat
  lanesRead : List Nat
  place : Option Nat
  deriving DecidableEq, Repr

/-- What timing may depend on (70_reset_and_hazards.md R196): the constants, the operation codes and remaining waits in
flight, the rounds in hand and the coming moves without their data, and the draw counter; no operand, result, memory byte
or past response. -/
structure TimingView where
  params : Params
  inFlight : List (OpCode × Nat)
  rounds : List RoundTiming
  moves : List HostMove
  tick : Nat
  deriving DecidableEq, Repr

/-- The view of a round when the host has taken `taken` responses. -/
def roundTiming (taken : Nat) (r : Round) : RoundTiming :=
  { batch := r.batch, j := r.j, lanesRead := r.loaded.map Prod.fst, place := r.ticket.map fun n => n + 1 - taken }

/-- The view of a state. -/
def timingView (s : State) : TimingView :=
  { params := s.params
    inFlight := s.queue.map fun e => (e.op, e.wait)
    rounds := s.rounds.map (roundTiming s.received.length)
    moves := s.moves.map eraseData
    tick := s.tick }

/-- An edge at which the host keeps `rst_n = 1` and `rsp_ready = 1`, whatever it offers (30_encoding.md R73). -/
def keepsTaking : HostMove → Bool
  | .drive p => p.rstN && p.rspReady
  | .batch _ => false
  | .round _ _ => false
  | .start _ => false
  | .load _ _ => false
  | .ask _ rspReady => rspReady
  | .await => false
  | .write _ _ => false
  | .store _ _ _ => false

end Sys2Proof.Safety
end

