-- ==== Sys2Proof/Certificates/Slice0/Obligations.lean ====
section
/-! DEFINITION. The statements for the provers. Each docstring names the rule of `spec/` it formalises; OBLIGATIONS.json
lists them. -/

namespace Sys2Proof.Claims

open Sys2Proof.Machine

/-- `x[30:0]`, the magnitude bits of a binary32 pattern. -/
def low31 (x : Word32) : Nat := x.toNat % 2 ^ 31

/-- `h[14:0]`, the magnitude bits of a code. -/
def low15 (h : Code) : Nat := h.toNat % 2 ^ 15

/-- How far apart two magnitudes are. -/
def gap (a b : Nat) : Nat := (a - b) + (b - a)

/-- Instruction `i`, of format ENC with scalar function `f` and operand `d`, completes: one finished-or-pending entry
joins the queue with `rsp_err = 0`, `f` of operand lane `k` in result lane `k`, and a zero high half. -/
def EncodesLanes (i : Instr) (f : Word32 → Code) (d : DataVec) (s : State) : Prop :=
  ∃ t e, exec i s = .next t ∧ t.queue = s.queue ++ [e] ∧ e.rsp.err = false ∧
    (∀ k, k < s.params.lanes.count → narrowLane e.rsp.data k = f (wideLane d k)) ∧
    (∀ k, s.params.lanes.count ≤ k → narrowLane e.rsp.data k = 0) ∧ DataVec.fits s.params.lanes e.rsp.data = true

/-- Instruction `i`, of format DEC with scalar function `f` and operand `d`, completes: one entry joins the queue with
`rsp_err = 0` and `f` of operand lane `k` in result lane `k`. -/
def DecodesLanes (i : Instr) (f : Code → Word32) (d : DataVec) (s : State) : Prop :=
  ∃ t e, exec i s = .next t ∧ t.queue = s.queue ++ [e] ∧ e.rsp.err = false ∧
    (∀ k, k < s.params.lanes.count → wideLane e.rsp.data k = f (narrowLane d k)) ∧
    DataVec.fits s.params.lanes e.rsp.data = true

/-- Element `k` that a batch must store, from source element `k` (42_lanes_and_batch.md R153). -/
def elementResult (b : Batch) (m : Memory) (k : Nat) : Nat :=
  match Op.scalar b.op with
  | .narrowing f => (f (wordAt m b.src k)).toNat
  | .widening f => (f (codeAt m b.src k)).toNat

/-- The bytes a batch writes. -/
def inDst (b : Batch) (a : Nat) : Prop := b.dst ≤ a ∧ a < b.dst + dstBytes b.op * b.n

/-- The bytes a batch reads. -/
def inSrc (b : Batch) (a : Nat) : Prop := b.src ≤ a ∧ a < b.src + srcBytes b.op * b.n

/-- All the rounds of a batch. -/
def roundsOf (L : LaneCount) (b : Batch) : List (Batch × Nat) :=
  (List.range (batchRequests L b.n)).map fun j => (b, j)

/-- Rounds one after the other. -/
def runRounds : List (Batch × Nat) → State → Outcome
  | [], s => .next s
  | (b, j) :: l, s =>
    match execRound b j s with
    | .next t => runRounds l t
    | .fault r => .fault r
    | .refused r => .refused r

/-- Two batches that may be converted at the same time: neither writes a byte the other reads or writes; both may read
the same bytes (20_memory.md R55). -/
def Compatible (b c : Batch) : Prop :=
  (∀ a, ¬ (inDst b a ∧ inDst c a)) ∧ (∀ a, ¬ (inDst b a ∧ inSrc c a)) ∧ (∀ a, ¬ (inSrc b a ∧ inDst c a))

/-- A move that is an edge with any pins, reset included, or one access of a batch in hand. -/
def worksInHand : HostMove → Bool
  | .drive _ => true
  | .start _ => true
  | .load _ _ => true
  | .ask _ _ => true
  | .await => true
  | .write _ _ => true
  | .batch _ => false
  | .round _ _ => false
  | .store _ _ _ => false

/-- The batches a list of moves takes in hand, in order. -/
def startsOf (ms : List HostMove) : List Batch :=
  ms.filterMap fun m => match m with
    | .start b => some b
    | _ => none

/-- Result lane `k` of a response to `op`, as a number. -/
def laneOf (op : Op) (r : Response) (k : Nat) : Nat := resultLane op r.data k

/-- Operand lane `k` of a request for `op`, as a number. -/
def operandLane (op : Op) (d : DataVec) (k : Nat) : Nat :=
  match op.format with
  | .enc => (wideLane d k).toNat
  | .dec => (narrowLane d k).toNat

end Sys2Proof.Claims

open Sys2Proof Sys2Proof.Machine Sys2Proof.Safety Sys2Proof.Claims

/-! ### Encoding -/

/-- 30_encoding.md R63: the five operation codes with their format and scalar function. -/
def Obligations.OpcodeTableOfR63 : Prop :=
  (∀ d, decode ⟨0x0, d⟩ = .ok (.f16Enc d)) ∧ Op.format .f16Enc = .enc ∧ Op.scalar .f16Enc = .narrowing f16enc ∧
  (∀ d, decode ⟨0x1, d⟩ = .ok (.f16Dec d)) ∧ Op.format .f16Dec = .dec ∧ Op.scalar .f16Dec = .widening f16dec ∧
  (∀ d, decode ⟨0x2, d⟩ = .ok (.bf16Enc d)) ∧ Op.format .bf16Enc = .enc ∧ Op.scalar .bf16Enc = .narrowing bf16enc ∧
  (∀ d, decode ⟨0x3, d⟩ = .ok (.bf16Dec d)) ∧ Op.format .bf16Dec = .dec ∧ Op.scalar .bf16Dec = .widening bf16dec ∧
  (∀ d, decode ⟨0x6, d⟩ = .ok (.bf16EncRne d)) ∧ Op.format .bf16EncRne = .enc ∧
    Op.scalar .bf16EncRne = .narrowing bf16encr

/-- Request words of 95_test_vectors.md P1 and P4, written out, decode to the requests they stand for. -/
def Obligations.PublishedRequestWordsDecode : Prop :=
  decodeWord .one 0x03F800000 = .ok (.f16Enc [0x3F800000]) ∧
  decodeWord .one 0x100007D00 = .ok (.f16Dec [0x00007D00]) ∧
  decodeWord .one 0x240490FDB = .ok (.bf16Enc [0x40490FDB]) ∧
  decodeWord .one 0x300003F80 = .ok (.bf16Dec [0x00003F80]) ∧
  decodeWord .one 0x63F80FFFF = .ok (.bf16EncRne [0x3F80FFFF]) ∧
  decodeWord .one 0x43F800000 = .error (.reservedOpcode 0x4) ∧
  decodeWord .one 0xEFFFFFFFF = .error (.reservedOpcode 0xE)

/-- Every instruction of every block is read back from its own request and from its own request word
(30_encoding.md R60): no bit of the encoding is dropped. -/
def Obligations.DecodeOfEncodeIsIdentity : Prop :=
  ∀ (L : LaneCount) (i : Instr), i.wf L = true →
    decode (encode i) = .ok i ∧ decodeWord L (encodeWord i) = .ok i ∧ encodeWord i < 2 ^ (4 + 32 * L.count)

/-- A request word has at most one meaning: what decodes is well-formed and encodes back to the same word. -/
def Obligations.DecodedWordEncodesBack : Prop :=
  ∀ (L : LaneCount) (w : Nat) (i : Instr), decodeWord L w = .ok i → i.wf L = true ∧ encodeWord i = w

/-- 30_encoding.md R64, R65: where lane `i` lies in a vector seen as one number; a decode request's high half is
ignored, an encode response's high half is zero. -/
def Obligations.LaneBitsOfVectors : Prop :=
  (∀ (v : DataVec) (i : Nat), (wideLane v i).toNat = joinWords v 0 / 2 ^ (32 * i) % 2 ^ 32 ∧
    (narrowLane v i).toNat = joinWords v 0 / 2 ^ (16 * i) % 2 ^ 16) ∧
  (∀ (L : LaneCount) (op : Op) (v v' : DataVec), op.format = .dec →
    (∀ k, k < L.count → narrowLane v k = narrowLane v' k) → respond L ⟨op.code, v⟩ = respond L ⟨op.code, v'⟩) ∧
  (∀ (L : LaneCount) (op : Op) (v : DataVec) (k : Nat), op.format = .enc → L.count ≤ k →
    narrowLane (respond L ⟨op.code, v⟩).data k = 0)

/-- The opcode table's word, placed by `withFetchWord`, is what the next step decodes and runs, in a state that differs
from the one given only as one edge does. The numbering is the model's choice (log 9), the placing too (log 14). -/
def Obligations.TableWordRunsNext : Prop :=
  ∀ (s : State) (nbits w : Nat) (i : Instr), decode (tableRequest s.params.lanes nbits w) = .ok i →
    (s.params.lanes = Config.resetParams.lanes → decodeTableWord nbits w = some i) ∧
    ∃ u, step (s.withFetchWord nbits w) = exec i u ∧ u.received = s.received ∧ u.mem = s.mem ∧ u.moves = s.moves ∧
      u.params.lanes = s.params.lanes ∧
      (s.queue.length < s.params.depth → u.params = s.params ∧ u.rounds = s.rounds)

/-- The patterns of each class of the two code formats (the pattern columns of 10_state.md, sections on binary16 and
bfloat16), and that `magF16` and `magBF16` grow with the pattern. Zeros, subnormals and normals have there the values of
10_state.md; to the infinity and NaN codes its tables give none, and those codes only follow the same formula: the
model's choice, log 16. -/
def Obligations.CodeClassesByPattern : Prop :=
  (∀ h : Code,
    (classF16 h = .zero ↔ low15 h = 0) ∧ (classF16 h = .subnormal ↔ 0x0001 ≤ low15 h ∧ low15 h ≤ 0x03FF) ∧
    (classF16 h = .normal ↔ 0x0400 ≤ low15 h ∧ low15 h ≤ 0x7BFF) ∧ (classF16 h = .infinity ↔ low15 h = 0x7C00) ∧
    (classF16 h = .nan ↔ 0x7C01 ≤ low15 h) ∧
    (classBF16 h = .zero ↔ low15 h = 0) ∧ (classBF16 h = .subnormal ↔ 0x0001 ≤ low15 h ∧ low15 h ≤ 0x007F) ∧
    (classBF16 h = .normal ↔ 0x0080 ≤ low15 h ∧ low15 h ≤ 0x7F7F) ∧ (classBF16 h = .infinity ↔ low15 h = 0x7F80) ∧
    (classBF16 h = .nan ↔ 0x7F81 ≤ low15 h)) ∧
  (∀ h g : Code, low15 h < low15 g → magF16 h < magF16 g ∧ magBF16 h < magBF16 g)

/-! ### The step -/

/-- With no move left the host leaves the pins idle and takes what is offered (the model's choice, log 2). -/
def Obligations.IdleHostTakesResponses : Prop :=
  ∀ s : State, s.moves = [] → nextRequest s = none ∧
    ∃ t, step s = .next t ∧ t.moves = [] ∧ t.mem = s.mem ∧
      (s.rspValid true = true → t.received = s.received ++ [s.rspPins true]) ∧
      (s.rspValid true = false → t.received = s.received ∧ t.queue = s.queue.map Entry.age)

/-- An edge that accepts a request naming an operation runs that instruction: the step is `exec` of the decoded
instruction (30_encoding.md R60, R66, R73), in the state with the rest of the edge done: the offered response taken if
`rsp_ready`, then one edge passed for what is in flight, then the new request joined with its full wait, the move
consumed. That order within one edge and that way of counting edges are the model's choice, log 7 and log 4; that
room in the queue means acceptance is its reading, log 6. -/
def Obligations.StepRunsDecodedInstruction : Prop :=
  ∀ (s : State) (p : Pins) (rest : List HostMove) (i : Instr), s.moves = .drive p :: rest →
    p.rstN = true → p.reqValid = true → s.queue.length < s.params.depth →
    decode { op := p.reqOp, data := fitLanes s.params.lanes p.reqData } = .ok i →
    i.wf s.params.lanes = true ∧ step s = exec i (restOfEdge p { s with moves := rest })

/-- 30_encoding.md R68: a request with a reserved code is accepted and answered in order like any other, with
`rsp_err = 1` and all-zero data, and nothing else happens that an edge without it would not do. That it is accepted
whenever there is room is the model's reading, log 6, and that it is a fault for a proof about the host's program is log
8. -/
def Obligations.ReservedRequestAnsweredWithError : Prop :=
  ∀ (s : State) (p : Pins) (rest : List HostMove), s.moves = .drive p :: rest →
    p.rstN = true → p.reqValid = true → s.queue.length < s.params.depth →
    p.reqOp ∈ ([0x4, 0x5, 0x7, 0x8, 0x9, 0xA, 0xB, 0xC, 0xD, 0xE, 0xF] : List OpCode) →
    ∃ t u e, step s = .next t ∧ step { s with moves := .drive { p with reqValid := false } :: rest } = .next u ∧
      t = { u with queue := u.queue ++ [e] } ∧ e.rsp.err = true ∧
      (∀ k, wideLane e.rsp.data k = 0) ∧ DataVec.fits s.params.lanes e.rsp.data = true ∧
      strictStep s = .fault (.reservedOperation p.reqOp)

/-- 60_exceptions.md R170, R172: `rsp_err = 1` comes from a reserved code alone; no instruction raises anything,
whatever its operands. -/
def Obligations.OnlyReservedCodesRaiseError : Prop :=
  (∀ (L : LaneCount) (r : Request), (respond L r).err = true ↔
    r.op ∈ ([0x4, 0x5, 0x7, 0x8, 0x9, 0xA, 0xB, 0xC, 0xD, 0xE, 0xF] : List OpCode)) ∧
  (∀ (L : LaneCount) (r : Request), (respond L r).err = true → ∀ k, wideLane (respond L r).data k = 0) ∧
  (∀ (i : Instr) (s : State), ∃ t e, exec i s = .next t ∧ t.queue = s.queue ++ [e] ∧
    e.rsp = respond s.params.lanes (encode i) ∧ e.rsp.err = false)

/-- The reading of 93_implementation_defined.md U1: the strict step faults exactly where the step accepts a reserved
code, and is the step everywhere else. -/
def Obligations.StrictStepFaultsExactlyOnReserved : Prop :=
  ∀ s : State,
    (∀ op, strictStep s = .fault (.reservedOperation op) ↔
      ∃ r, nextRequest s = some r ∧ r.op = op ∧ decode r = .error (.reservedOpcode op)) ∧
    ((∀ r, nextRequest s = some r → ∃ i, decode r = .ok i) → strictStep s = step s)

/-- A step has a next state whatever the state and the operands, but for a batch whose byte ranges meet, begun or
run, or a round of one, which is refused by name (00_scope.md R8, 42_lanes_and_batch.md R156). -/
def Obligations.StepStopsOnlyOnOverlappingBatch : Prop :=
  ∀ s : State, (∃ t, step s = .next t) ∨
    (∃ b rest, (s.moves = .batch b :: rest ∨ s.moves = .start b :: rest ∨ ∃ j, s.moves = .round b j :: rest) ∧ (∃ a, inSrc b a ∧ inDst b a) ∧
      step s = .refused .batchOverlap)

/-! ### Lanes -/

/-- 30_encoding.md R66: every instruction completes from every state, with the scalar function of its row in every lane,
`rsp_err = 0` and, for format ENC, a zero high half. -/
def Obligations.RequestExecutesLanewise : Prop :=
  ∀ (d : DataVec) (s : State),
    EncodesLanes (.f16Enc d) f16enc d s ∧ DecodesLanes (.f16Dec d) f16dec d s ∧
    EncodesLanes (.bf16Enc d) bf16enc d s ∧ DecodesLanes (.bf16Dec d) bf16dec d s ∧
    EncodesLanes (.bf16EncRne d) bf16encr d s

/-- The frame of all five instructions: each completes, adds one entry at the end of the queue, and leaves every other
entry, the constants, what the host received, its moves and EVERY byte of its memory as they were. There is no register
and no flag (10_state.md R21, R24). The added entry holds its request and its response and has at least `LAT` edges to
wait: what the entry holds is log 3, how its wait is counted log 4, both the model's choice; `tick` is the model's own. -/
def Obligations.InstructionsChangeOnlyTheQueue : Prop :=
  ∀ (i : Instr) (s : State), ∃ t e, exec i s = .next t ∧ t.queue = s.queue ++ [e] ∧ e.op = (encode i).op ∧
    e.operand = i.data ∧ s.params.lat ≤ e.wait ∧ t.params = s.params ∧ t.received = s.received ∧
    t.rounds = s.rounds ∧ t.moves = s.moves ∧ t.tick = s.tick ∧ ∀ a, Memory.readByte t.mem a = Memory.readByte s.mem a

/-- 00_scope.md R9: the response depends on the operation code and the operand bits alone, not on earlier requests,
time, `LANES`, `LAT` or `DEPTH`: from any two states, of any two blocks, the entries agree in `rsp_err` and in every
lane both blocks have; on blocks of one width they are the same response. -/
def Obligations.ResponseDependsOnRequestAlone : Prop :=
  ∀ (i : Instr) (s s' : State), ∃ t t' e e', exec i s = .next t ∧ exec i s' = .next t' ∧
    t.queue = s.queue ++ [e] ∧ t'.queue = s'.queue ++ [e'] ∧ e.rsp.err = e'.rsp.err ∧
    (∀ k, k < s.params.lanes.count → k < s'.params.lanes.count → laneOf i.op e.rsp k = laneOf i.op e'.rsp k) ∧
    (s.params.lanes = s'.params.lanes → e.rsp = e'.rsp)

/-- 42_lanes_and_batch.md R150: result lane `k` is the scalar function of operand lane `k` and depends on no other
lane. -/
def Obligations.LanesAreIndependent : Prop :=
  ∀ (L : LaneCount) (op : Op) (v v' : DataVec) (k : Nat), k < L.count →
    (laneOf op (respond L ⟨op.code, v⟩) k = match Op.scalar op with
      | .narrowing f => (f (wideLane v k)).toNat
      | .widening f => (f (narrowLane v k)).toNat) ∧
    (operandLane op v k = operandLane op v' k →
      laneOf op (respond L ⟨op.code, v⟩) k = laneOf op (respond L ⟨op.code, v'⟩) k)

/-! ### `f16.enc` -/

/-- 40_float16.md R92: the sign is kept in every class, NaN included, and rounding acts on the magnitude. -/
def Obligations.F16EncKeepsSign : Prop :=
  (∀ x : Word32, sign16 (f16enc x) = sign32 x ∧ f16enc (x ^^^ 0x80000000) = f16enc x ^^^ 0x8000) ∧
  f16enc 0x00000000 = 0x0000 ∧ f16enc 0x80000000 = 0x8000 ∧ f16enc 0x80000001 = 0x8000

/-- 40_float16.md R91: the result class by the operand's exponent field, with the magnitudes of each row. The exponent
field of a result in the normal range is `e - 112`, and one more exactly where rounding carries out of the mantissa, which
it does from `0x7FF000` on (40_float16.md R96, R100). -/
def Obligations.F16EncResultClasses : Prop :=
  ∀ x : Word32,
    (exp32 x = 255 → man32 x ≠ 0 → f16enc x = f16CanonicalNaN (sign32 x)) ∧
    (exp32 x = 255 → man32 x = 0 → f16enc x = f16Infinity (sign32 x)) ∧
    (143 ≤ exp32 x → exp32 x ≤ 254 → 2 ^ 16 * 2 ^ 149 ≤ mag32 x ∧ f16enc x = f16Infinity (sign32 x)) ∧
    (113 ≤ exp32 x → exp32 x ≤ 142 → 2 ^ 135 ≤ mag32 x ∧ mag32 x < 2 ^ 16 * 2 ^ 149 ∧
      sign16 (f16enc x) = sign32 x ∧
      (classF16 (f16enc x) = .normal ∨ f16enc x = f16Infinity (sign32 x)) ∧
      (man32 x < 0x7FF000 → expF16 (f16enc x) = exp32 x - 112) ∧
      (0x7FF000 ≤ man32 x → expF16 (f16enc x) = exp32 x - 111)) ∧
    (102 ≤ exp32 x → exp32 x ≤ 112 → 2 ^ 124 ≤ mag32 x ∧ mag32 x < 2 ^ 135 ∧ sign16 (f16enc x) = sign32 x ∧
      (classF16 (f16enc x) = .subnormal ∨ classF16 (f16enc x) = .zero ∨ low15 (f16enc x) = 0x0400)) ∧
    (exp32 x ≤ 101 → mag32 x < 2 ^ 124 ∧ sign16 (f16enc x) = sign32 x ∧ low15 (f16enc x) = 0)

/-- 40_float16.md R97: overflow and its exact boundary, 65520. -/
def Obligations.F16EncOverflowBoundary : Prop :=
  (∀ x : Word32, class32 x ≠ .nan →
    (low31 x ≤ 0x477FEFFF → low15 (f16enc x) ≤ 0x7BFF) ∧
    (0x477FF000 ≤ low31 x → f16enc x = signedCode (sign32 x) 0x7C00)) ∧
  (∀ x : Word32, low31 x = 0x477FF000 → mag32 x = 65520 * 2 ^ 149) ∧
  f16enc 0x477FE000 = 0x7BFF ∧ f16enc 0x7F800000 = 0x7C00 ∧ f16enc 0xFF800000 = 0xFC00 ∧
  f16enc 0x477FE01A = 0x7BFF ∧ f16enc 0x477FEFFF = 0x7BFF ∧ f16enc 0x477FF000 = 0x7C00 ∧
  f16enc 0x47C35000 = 0x7C00 ∧ f16enc 0xC7C35000 = 0xFC00

/-- 40_float16.md R99: underflow and its exact boundaries. -/
def Obligations.F16EncUnderflowBoundary : Prop :=
  magF16 0x0001 = 2 ^ 125 ∧
  ∀ x : Word32,
    (low31 x ≤ 0x32FFFFFF → low15 (f16enc x) = 0) ∧ (low31 x = 0x33000000 → low15 (f16enc x) = 0) ∧
    (low31 x ≤ 0x33000000 ↔ mag32 x ≤ 2 ^ 124) ∧
    (0x33000000 < low31 x → low31 x ≤ 0x33800000 → low15 (f16enc x) = 0x0001) ∧
    (class32 x = .subnormal → low15 (f16enc x) = 0) ∧ (class32 x = .zero → low15 (f16enc x) = 0)

/-- 40_float16.md R102, R103: every NaN, quiet or signalling, whatever its payload, gives the canonical NaN of its sign,
and nothing else gives a NaN. -/
def Obligations.F16EncCanonicalisesNaN : Prop :=
  ∀ x : Word32,
    (class32 x = .nan → f16enc x = signedCode (sign32 x) 0x7E00 ∧ quietF16 (f16enc x) = true) ∧
    (classF16 (f16enc x) = .nan ↔ class32 x = .nan) ∧
    (class32 x = .infinity → f16enc x = signedCode (sign32 x) 0x7C00)

/-- `f16.enc` rounds the exact value once, to the nearest code, and an exact tie to the code whose last bit is 0
(40_float16.md R98). That infinity counts as the next value above the largest finite one, 2^16, is the model's choice,
log 16, in agreement with R97 where the tie at 65520 goes up; a NaN has no value. The four examples tell the rule from add-and-truncate. -/
def Obligations.F16EncRoundsToNearestEven : Prop :=
  (∀ x : Word32, class32 x ≠ .nan →
    sign16 (f16enc x) = sign32 x ∧ classF16 (f16enc x) ≠ .nan ∧
    ∀ h : Code, classF16 h ≠ .nan →
      gap (mag32 x) (magF16 (f16enc x)) ≤ gap (mag32 x) (magF16 h) ∧
      (gap (mag32 x) (magF16 (f16enc x)) = gap (mag32 x) (magF16 h) → magF16 h ≠ magF16 (f16enc x) →
        (f16enc x).getLsbD 0 = false)) ∧
  f16enc 0x3F801000 = 0x3C00 ∧ f16encWith .away 0x3F801000 = 0x3C01 ∧
  f16enc 0x3F803000 = 0x3C02 ∧ f16encWith .away 0x3F803000 = 0x3C02

/-- Rounding never leaves the fifteen lower bits: the increment stops at `0x7C00` in the normal range and at `0x0400`
below it; each of the three carries of 40_float16.md R100 happens. -/
def Obligations.F16EncCarryStaysInField : Prop :=
  (∀ (tie : TieRule) (e m : Nat), 113 ≤ e → e ≤ 142 → m < 2 ^ 23 → f16encNormal tie e m ≤ 0x7C00) ∧
  (∀ (tie : TieRule) (e m : Nat), e ≤ 112 → m < 2 ^ 23 → f16encSubnormal tie e m ≤ 0x0400) ∧
  f16enc 0x3FFFF000 = 0x4000 ∧ f16enc 0x387FE000 = 0x0400 ∧ f16enc 0x477FF000 = 0x7C00

/-- `f16.enc` is monotone on the non-NaN operands of one sign (95_test_vectors.md, the checks after table V2). -/
def Obligations.F16EncMonotone : Prop :=
  ∀ x y : Word32, class32 x ≠ .nan → class32 y ≠ .nan → sign32 x = sign32 y → low31 x ≤ low31 y →
    low15 (f16enc x) ≤ low15 (f16enc y)

/-- The two tie rules of 93_implementation_defined.md U2 differ exactly on the operands it lists, by one in the last
place: in the normal range where the dropped bits are exactly half and the kept bit is 0, below it on the same kind of
tie at bit `sh`. -/
def Obligations.TieRulesDifferOnlyOnEvenTies : Prop :=
  ∀ x : Word32,
    ((f16encWith .away x).toNat = (f16enc x).toNat ∨ (f16encWith .away x).toNat = (f16enc x).toNat + 1) ∧
    (113 ≤ exp32 x → exp32 x ≤ 142 →
      (f16encWith .away x ≠ f16enc x ↔ man32 x % 2 ^ 13 = 0x1000 ∧ man32 x / 2 ^ 13 % 2 = 0)) ∧
    (102 ≤ exp32 x → exp32 x ≤ 112 →
      (f16encWith .away x ≠ f16enc x ↔ (2 ^ 23 + man32 x) % 2 ^ (126 - exp32 x) = 2 ^ (125 - exp32 x) ∧
        (2 ^ 23 + man32 x) / 2 ^ (126 - exp32 x) % 2 = 0)) ∧
    (exp32 x ≤ 101 ∨ 143 ≤ exp32 x → f16encWith .away x = f16enc x)

/-! ### `f16.dec` -/

/-- 40_float16.md R115: every code that is no NaN decodes to the binary32 pattern of exactly its value. -/
def Obligations.F16DecIsExact : Prop :=
  (∀ h : Code, classF16 h ≠ .nan →
    sign32 (f16dec h) = sign16 h ∧
    (classF16 h = .infinity → class32 (f16dec h) = .infinity) ∧
    (classF16 h ≠ .infinity → exp32 (f16dec h) < 255 ∧ mag32 (f16dec h) = magF16 h)) ∧
  f16dec 0x7BFF = 0x477FE000

/-- 40_float16.md R111, R112: the fields of a decoded normal code and of a decoded subnormal one. -/
def Obligations.F16DecFiniteFields : Prop :=
  (∀ h : Code, classF16 h = .normal → sign32 (f16dec h) = sign16 h ∧ exp32 (f16dec h) = expF16 h + 112 ∧
    113 ≤ exp32 (f16dec h) ∧ exp32 (f16dec h) ≤ 142 ∧ man32 (f16dec h) = manF16 h * 2 ^ 13) ∧
  (∀ h : Code, classF16 h = .subnormal → sign32 (f16dec h) = sign16 h ∧
    ∀ k, 2 ^ k ≤ manF16 h → manF16 h < 2 ^ (k + 1) →
      exp32 (f16dec h) = 103 + k ∧ exp32 (f16dec h) ≤ 112 ∧ 2 ^ 23 + man32 (f16dec h) = manF16 h * 2 ^ (23 - k)) ∧
  f16dec 0x0001 = 0x33800000 ∧ f16dec 0x03FF = 0x387FC000 ∧ f16dec 0x0200 = 0x38000000

/-- 40_float16.md R113, R114: zeros keep their sign; infinities; a NaN code is quieted, its sign and its other mantissa
bits kept. -/
def Obligations.F16DecSpecialCodes : Prop :=
  (∀ h : Code,
    (classF16 h = .zero → class32 (f16dec h) = .zero ∧ sign32 (f16dec h) = sign16 h) ∧
    (classF16 h = .infinity → class32 (f16dec h) = .infinity ∧ sign32 (f16dec h) = sign16 h) ∧
    (classF16 h = .nan → class32 (f16dec h) = .nan ∧ sign32 (f16dec h) = sign16 h ∧ quiet32 (f16dec h) = true ∧
      man32 (f16dec h) = (manF16 h ||| 0x200) * 2 ^ 13)) ∧
  f16dec 0x0000 = 0x00000000 ∧ f16dec 0x8000 = 0x80000000 ∧ f16dec 0x7C00 = 0x7F800000 ∧
  f16dec 0xFC00 = 0xFF800000 ∧ f16dec 0x7E00 = 0x7FC00000 ∧ f16dec 0x7D00 = 0x7FE00000 ∧
  f16dec 0xFC01 = 0xFFC02000 ∧ f16dec 0x7FFF = 0x7FFFE000

/-- The round trip of 40_float16.md R116: every code that is no NaN comes back, every NaN code comes back canonical with
its sign. (R116's last sentence, on the other direction, is not part of this statement.) -/
def Obligations.F16RoundTrip : Prop :=
  ∀ h : Code,
    (classF16 h ≠ .nan → f16enc (f16dec h) = h) ∧
    (classF16 h = .nan → f16enc (f16dec h) = signedCode (sign16 h) 0x7E00)

/-- 40_float16.md R117: the integers from 0 to 2048 survive; 2049 is the first that does not. -/
def Obligations.SmallIntegersSurviveF16 : Prop :=
  (∀ (x : Word32) (n : Nat), n ≤ 2048 → sign32 x = 0 → exp32 x < 255 → mag32 x = n * 2 ^ 149 →
    f16dec (f16enc x) = x) ∧
  mag32 0x45001000 = 2049 * 2 ^ 149 ∧ f16enc 0x45001000 = 0x6800 ∧ f16dec 0x6800 = 0x45000000 ∧
  mag32 0x45000000 = 2048 * 2 ^ 149

/-- 40_float16.md R118 and 41_bfloat16.md R142: every named constant has its code, and the code its decoded pattern. -/
def Obligations.NamedConstants : Prop :=
  [("F16_MIN", 0x0400, 0x38800000), ("F16_MAX", 0x7BFF, 0x477FE000), ("F16_LOWEST", 0xFBFF, 0xC77FE000),
    ("F16_EPSILON", 0x1400, 0x3A800000), ("F16_DENORM_MIN", 0x0001, 0x33800000), ("F16_INFINITY", 0x7C00, 0x7F800000),
    ("F16_QUIET_NAN", 0x7E00, 0x7FC00000), ("F16_SIGNALING_NAN", 0x7D00, 0x7FE00000)].all
    (fun (p : String × Code × Word32) => constantOf p.1.toList == some p.2.1 && f16dec p.2.1 == p.2.2) = true ∧
  [("BF16_MIN", 0x0080, 0x00800000), ("BF16_MAX", 0x7F7F, 0x7F7F0000), ("BF16_LOWEST", 0xFF7F, 0xFF7F0000),
    ("BF16_EPSILON", 0x3C00, 0x3C000000), ("BF16_DENORM_MIN", 0x0001, 0x00010000), ("BF16_INFINITY", 0x7F80, 0x7F800000),
    ("BF16_QUIET_NAN", 0x7FC0, 0x7FC00000), ("BF16_SIGNALING_NAN", 0x7FA0, 0x7FA00000)].all
    (fun (p : String × Code × Word32) => constantOf p.1.toList == some p.2.1 && bf16dec p.2.1 == p.2.2) = true

/-! ### bfloat16 -/

/-- 41_bfloat16.md R131, R132: `bf16.enc` is `x[31:16]`, with no special case: the whole table of special values, the
NaNs that become infinities among them. -/
def Obligations.Bf16EncTruncates : Prop :=
  (∀ x : Word32,
    (bf16enc x).toNat = x.toNat / 2 ^ 16 ∧ sign16 (bf16enc x) = sign32 x ∧
    (low31 x ≠ 0 → low31 x < 2 ^ 16 → low15 (bf16enc x) = 0) ∧
    (class32 x = .subnormal → 2 ^ 16 ≤ low31 x → classBF16 (bf16enc x) = .subnormal) ∧
    (class32 x = .normal → classBF16 (bf16enc x) = .normal ∧ expBF16 (bf16enc x) = exp32 x ∧
      magBF16 (bf16enc x) ≤ mag32 x) ∧
    (class32 x = .nan → man32 x / 2 ^ 16 ≠ 0 → classBF16 (bf16enc x) = .nan ∧
      manBF16 (bf16enc x) = man32 x / 2 ^ 16 ∧ quietBF16 (bf16enc x) = quiet32 x) ∧
    (class32 x = .nan → man32 x / 2 ^ 16 = 0 → bf16enc x = signedCode (sign32 x) 0x7F80)) ∧
  bf16enc 0x00000000 = 0x0000 ∧ bf16enc 0x80000000 = 0x8000 ∧ bf16enc 0x7F800000 = 0x7F80 ∧
  bf16enc 0xFF800000 = 0xFF80 ∧ bf16enc 0x40490FDB = 0x4049

/-- 41_bfloat16.md R134: `bf16.dec` is exact and keeps the class, the sign and the quiet bit of every code. -/
def Obligations.Bf16DecIsExact : Prop :=
  (∀ b : Code, (bf16dec b).toNat = b.toNat * 2 ^ 16 ∧ class32 (bf16dec b) = classBF16 b ∧
    sign32 (bf16dec b) = sign16 b ∧ quiet32 (bf16dec b) = quietBF16 b ∧ mag32 (bf16dec b) = magBF16 b) ∧
  bf16dec 0x3F80 = 0x3F800000

/-- 41_bfloat16.md R136: the round trips of both encoders. -/
def Obligations.Bf16RoundTrips : Prop :=
  (∀ b : Code, bf16enc (bf16dec b) = b) ∧
  (∀ x : Word32, bf16dec (bf16enc x) = x &&& 0xFFFF0000) ∧
  (∀ x : Word32, (bf16dec (bf16encr x)).toNat = (bf16encr x).toNat * 2 ^ 16)

/-- The sum, the NaN case and the examples of 41_bfloat16.md R138. -/
def Obligations.Bf16EncRneSumAndNaN : Prop :=
  (∀ x : Word32,
    (class32 x ≠ .nan → (bf16encr x).toNat = (x.toNat + 0x7FFF + x.toNat / 2 ^ 16 % 2) / 2 ^ 16 ∧
      sign16 (bf16encr x) = sign32 x ∧ classBF16 (bf16encr x) ≠ .nan) ∧
    (class32 x = .nan → classBF16 (bf16encr x) = .nan ∧ quietBF16 (bf16encr x) = true ∧
      bf16encr x = bf16enc x ||| 0x0040) ∧
    (class32 x = .infinity → bf16encr x = bf16enc x)) ∧
  bf16encr 0x3F80FFFF = 0x3F81 ∧ bf16encr 0x3F808000 = 0x3F80 ∧ bf16encr 0x3F818000 = 0x3F82 ∧
  bf16encr 0x7F7FFFFF = 0x7F80 ∧ bf16encr 0x7F800001 = 0x7FC0

/-- `bf16.enc.rne` rounds to the nearest code, ties to the even one, subnormals included (the prose of 41_bfloat16.md
R138). That infinity counts as the next value above the largest finite one is the model's choice, log 16. -/
def Obligations.Bf16EncRneRoundsToNearestEven : Prop :=
  ∀ x : Word32, class32 x ≠ .nan → ∀ b : Code, classBF16 b ≠ .nan →
    gap (mag32 x) (magBF16 (bf16encr x)) ≤ gap (mag32 x) (magBF16 b) ∧
    (gap (mag32 x) (magBF16 (bf16encr x)) = gap (mag32 x) (magBF16 b) → magBF16 b ≠ magBF16 (bf16encr x) →
      (bf16encr x).getLsbD 0 = false)

/-- 41_bfloat16.md R139: exactly how the two encoders differ. -/
def Obligations.Bf16EncodersDiffer : Prop :=
  ∀ x : Word32,
    (class32 x ≠ .nan → x.toNat % 2 ^ 16 < 0x8000 ∨ (x.toNat % 2 ^ 16 = 0x8000 ∧ x.getLsbD 16 = false) →
      bf16encr x = bf16enc x) ∧
    (class32 x ≠ .nan → ¬ (x.toNat % 2 ^ 16 < 0x8000 ∨ (x.toNat % 2 ^ 16 = 0x8000 ∧ x.getLsbD 16 = false)) →
      (bf16encr x).toNat = (bf16enc x).toNat + 1) ∧
    (class32 x = .nan → bf16encr x = bf16enc x ||| 0x0040)

/-! ### Host memory and batches -/

/-- 20_memory.md R41, R42, R43: arrays are packed at strides of 2 and 4 bytes, every value little-endian, at any address
whatever its alignment. -/
def Obligations.ArraysAreLittleEndianAndPacked : Prop :=
  ∀ (m : Memory) (a i : Nat), Memory.wf m →
    (∀ c : Code, let m' := memWrite m (a + 2 * i) 2 c.toNat
      Memory.readByte m' (a + 2 * i) = c.extractLsb' 0 8 ∧ Memory.readByte m' (a + 2 * i + 1) = c.extractLsb' 8 8 ∧
      codeAt m' a i = c ∧ ∀ j, j ≠ i → codeAt m' a j = codeAt m a j) ∧
    (∀ v : Word32, let m' := memWrite m (a + 4 * i) 4 v.toNat
      Memory.readByte m' (a + 4 * i) = v.extractLsb' 0 8 ∧ Memory.readByte m' (a + 4 * i + 1) = v.extractLsb' 8 8 ∧
      Memory.readByte m' (a + 4 * i + 2) = v.extractLsb' 16 8 ∧ Memory.readByte m' (a + 4 * i + 3) = v.extractLsb' 24 8 ∧
      wordAt m' a i = v ∧ ∀ j, j ≠ i → wordAt m' a j = wordAt m a j)

/-- 20_memory.md R44: the code at `a + 2` of a binary32 value stored at `a` is its bfloat16 code, the code at `a` the
bits that truncation drops. -/
def Obligations.MixedWidthView : Prop :=
  ∀ (m : Memory) (a : Nat) (v : Word32), Memory.wf m →
    codeAt (memWrite m a 4 v.toNat) (a + 2) 0 = bf16enc v ∧
    codeAt (memWrite m a 4 v.toNat) a 0 = v.extractLsb' 0 16

/-- The host's own store is complete and touches its own bytes alone: the value reads back, and everything else is as
before (00_scope.md R12; the move is the model's, log 22). -/
def Obligations.HostStoreWritesItsBytesOnly : Prop :=
  ∀ (s : State) (a n v : Nat) (rest : List HostMove), s.moves = .store a n v :: rest → Memory.wf s.mem →
    ∃ t, step s = .next t ∧ memRead t.mem a n = v % 256 ^ n ∧
      (∀ b, b < a ∨ a + n ≤ b → Memory.readByte t.mem b = Memory.readByte s.mem b) ∧
      t.params = s.params ∧ t.queue = s.queue ∧ t.received = s.received ∧ t.rounds = s.rounds ∧ t.moves = rest ∧
      t.tick = s.tick

/-- 42_lanes_and_batch.md R153, its whole effect: destination element `k` becomes the scalar function of source element
`k`, no other byte is written, and the requests issued are `ceil(n / LANES)`, in order, each with the operand the rule
gives it (zero in the unused lanes). That responses in flight are taken first, and that none is left in flight, is the
model's choice, log 12. A batch with `n = 0` is in `BatchDegenerateCases`. -/
def Obligations.BatchWholeEffect : Prop :=
  ∀ (s : State) (b : Batch) (rest : List HostMove), s.moves = .batch b :: rest → batchDisjoint b = true →
    Memory.wf s.mem → 0 < b.n →
    ∃ t, step s = .next t ∧
      (∀ k, k < b.n → memRead t.mem (b.dst + dstBytes b.op * k) (dstBytes b.op) = elementResult b s.mem k) ∧
      (∀ a, ¬ inDst b a → Memory.readByte t.mem a = Memory.readByte s.mem a) ∧ Memory.wf t.mem ∧
      t.received = s.received ++ s.queue.map Entry.rsp ++
        (List.range ((b.n + s.params.lanes.count - 1) / s.params.lanes.count)).map
          (fun j => respond s.params.lanes ⟨b.op.code, roundOperand s.params.lanes b s.mem j⟩) ∧
      t.queue = [] ∧ t.params = s.params ∧ t.rounds = s.rounds ∧ t.moves = rest

/-- The degenerate cases of 42_lanes_and_batch.md R156 (a), (b): a batch of no elements issues nothing and changes
nothing but the list of moves; a batch is refused exactly when some byte is both read and written (log 13). -/
def Obligations.BatchDegenerateCases : Prop :=
  ∀ (s : State) (b : Batch) (rest : List HostMove), s.moves = .batch b :: rest →
    (b.n = 0 → step s = .next { s with moves := rest }) ∧
    (step s = .refused .batchOverlap ↔ ∃ a, inSrc b a ∧ inDst b a)

/-- 42_lanes_and_batch.md R152: the converted array does not depend on `LANES`, nor on anything else of the block. -/
def Obligations.BatchIndependentOfLanes : Prop :=
  ∀ (s s' t t' : State) (b : Batch), Memory.wf s.mem → s.mem = s'.mem →
    execBatch b s = .next t → execBatch b s' = .next t' → t.mem = t'.mem

/-- Two batches of which neither writes what the other reads or writes give the same memory in whatever order the host
takes their rounds: any order of all the rounds of both, the rounds of one batch reordered too, ends like one batch after
the other (20_memory.md section 3, 42_lanes_and_batch.md section 2). That nothing is interleaved inside a `round` move is
the model's choice, log 12; for accesses in any order see `ConcurrentBatchesGiveSameMemory`. -/
def Obligations.RoundsInAnyOrderGiveSameMemory : Prop :=
  ∀ (s t u v : State) (b c : Batch) (l : List (Batch × Nat)), Memory.wf s.mem →
    batchDisjoint b = true → batchDisjoint c = true →
    (∀ a, ¬ (inDst b a ∧ inDst c a)) → (∀ a, ¬ (inDst b a ∧ inSrc c a)) → (∀ a, ¬ (inSrc b a ∧ inDst c a)) →
    l.Perm (roundsOf s.params.lanes b ++ roundsOf s.params.lanes c) → runRounds l s = .next t →
    execBatch b s = .next u → execBatch c u = .next v → t.mem = v.mem

/-- One round of a batch is complete as a move of its own: it issues exactly one request, with the operand of its round,
takes earlier responses first, stores its real lanes and no other byte (42_lanes_and_batch.md section 2). That a batch
without a round `j` does nothing, and that earlier responses are taken first, is the model's choice, log 12. -/
def Obligations.RoundStoresItsRealLanes : Prop :=
  ∀ (s : State) (b : Batch) (j : Nat) (rest : List HostMove), s.moves = .round b j :: rest → batchDisjoint b = true →
    Memory.wf s.mem →
    (batchRequests s.params.lanes b.n ≤ j → step s = .next { s with moves := rest }) ∧
    (j < batchRequests s.params.lanes b.n → ∃ t, step s = .next t ∧
      (∀ i, i < s.params.lanes.count → j * s.params.lanes.count + i < b.n →
        memRead t.mem (b.dst + dstBytes b.op * (j * s.params.lanes.count + i)) (dstBytes b.op) =
          elementResult b s.mem (j * s.params.lanes.count + i)) ∧
      (∀ a, a < b.dst + dstBytes b.op * (j * s.params.lanes.count) ∨
          b.dst + dstBytes b.op * min b.n ((j + 1) * s.params.lanes.count) ≤ a →
        Memory.readByte t.mem a = Memory.readByte s.mem a) ∧
      t.received = s.received ++ s.queue.map Entry.rsp ++
        [respond s.params.lanes ⟨b.op.code, roundOperand s.params.lanes b s.mem j⟩] ∧
      t.queue = [] ∧ t.params = s.params ∧ t.rounds = s.rounds ∧ t.moves = rest)

/-- One round in hand is complete, access by access: its lanes read in any order, its request offered at one edge, its
response awaited, its results stored in any order. It is the same request, the same stored bytes and no other as R153
gives for the round (42_lanes_and_batch.md R153, R156 (d)); the moves are the model's choice, log 23, and that room in the
queue means the request is accepted its reading, log 6. -/
def Obligations.RoundInHandCompletes : Prop :=
  ∀ (s : State) (b : Batch) (j k : Nat) (rdy : Bool) (reads writes : List Nat) (rest : List HostMove),
    s.rounds[k]? = some (Round.fresh b j) → Memory.wf s.mem → s.queue.length < s.params.depth →
    reads.Perm (List.range (roundCount s.params.lanes b j)) → writes.Perm (List.range (roundCount s.params.lanes b j)) →
    s.moves = reads.map (.load k) ++ [.ask k rdy, .await] ++ writes.map (.write k) ++ rest →
    ∃ t r, Sys2Proof.core.run (reads.length + 2 + writes.length) s = .next t ∧ t.rounds = s.rounds.set k r ∧
      r.batch = b ∧ r.j = j ∧ r.finished s.params.lanes = true ∧
      (∀ i, i < s.params.lanes.count → j * s.params.lanes.count + i < b.n →
        memRead t.mem (b.dst + dstBytes b.op * (j * s.params.lanes.count + i)) (dstBytes b.op) =
          elementResult b s.mem (j * s.params.lanes.count + i)) ∧
      (∀ a, a < b.dst + dstBytes b.op * (j * s.params.lanes.count) ∨
          b.dst + dstBytes b.op * min b.n ((j + 1) * s.params.lanes.count) ≤ a →
        Memory.readByte t.mem a = Memory.readByte s.mem a) ∧
      t.received = s.received ++ s.queue.map Entry.rsp ++
        [respond s.params.lanes ⟨b.op.code, roundOperand s.params.lanes b s.mem j⟩] ∧
      t.queue = [] ∧ t.params = s.params ∧ t.moves = rest

/-- The edge at which a round in hand offers its request is an edge with those pins, and nothing more but the host's note
of which response is its own; that one, counted from the first response, is the response of its request
(20_memory.md section 3). A round that has nothing to offer leaves `req_valid` 0, and at a reset the host stops counting on
exactly the responses it has not taken (the model's choice, log 23 and log 20). That room in the queue (10_state.md section
3) means the request is accepted is the model's reading, log 6; that a full queue turns it away even at the edge that takes
its head is the model's choice, log 7. -/
def Obligations.RoundsCountTheirResponses : Prop :=
  (∀ (s : State) (k : Nat) (rdy : Bool) (rest : List HostMove), s.moves = .ask k rdy :: rest →
    (∀ r, s.rounds[k]? = some r → r.ticket = none → r.ready s.params.lanes = true →
      ∃ u t, step { s with moves := .drive (offerPins (r.request s.params.lanes) rdy) :: rest } = .next u ∧
        step s = .next t ∧
        (s.params.depth ≤ s.queue.length → nextRequest s = none ∧ t = u) ∧
        (s.queue.length < s.params.depth → nextRequest s = some (r.request s.params.lanes) ∧
          t = { u with rounds := s.rounds.set k { r with ticket := some (s.received.length + s.queue.length) } } ∧
          (responsesInOrder t)[s.received.length + s.queue.length]? =
            some (respond s.params.lanes (r.request s.params.lanes)))) ∧
    ((∀ r, s.rounds[k]? = some r → r.ticket ≠ none ∨ r.ready s.params.lanes = false) →
      step s = step { s with moves := .drive { Pins.idle with rspReady := rdy } :: rest })) ∧
  (∀ (s : State) (p : Pins) (rest : List HostMove), s.moves = .drive p :: rest → p.rstN = false →
    ∃ t, step s = .next t ∧ t.rounds.length = s.rounds.length ∧
      ∀ (k : Nat) (r : Round), s.rounds[k]? = some r → ∃ q, t.rounds[k]? = some q ∧ q.batch = r.batch ∧ q.j = r.j ∧
        q.loaded = r.loaded ∧ q.written = r.written ∧
        ∀ n, q.ticket = some n ↔ r.ticket = some n ∧ n < s.received.length)

/-- Batches of which none writes what another reads or writes leave the same memory in whatever order the host interleaves
their requests and its memory accesses (20_memory.md R55): once every round is finished, each destination element is the
scalar function of its source element as it was before, and no other byte is changed; with two batches, the memory is that
of one batch after the other. The moves that do the accesses are the model's choice, log 23. That edges with any pins, a
reset among them, may stand in between goes beyond R55: what the host does at a reset (it keeps what it read, stops
counting on what is lost, and asks again) is the model's choice, log 20. -/
def Obligations.ConcurrentBatchesGiveSameMemory : Prop :=
  ∀ (s t : State), Memory.wf s.mem → s.rounds = [] → (∀ m ∈ s.moves, worksInHand m = true) →
    (startsOf s.moves).Pairwise Compatible → Sys2Proof.core.run s.moves.length s = .next t →
    (∀ r ∈ t.rounds, r.finished s.params.lanes = true) →
    (∀ b ∈ startsOf s.moves, ∀ k, k < b.n →
      memRead t.mem (b.dst + dstBytes b.op * k) (dstBytes b.op) = elementResult b s.mem k) ∧
    (∀ a, (∀ b ∈ startsOf s.moves, ¬ inDst b a) → Memory.readByte t.mem a = Memory.readByte s.mem a) ∧
    Memory.wf t.mem ∧
    (∀ b c, (startsOf s.moves).Perm [b, c] →
      ∃ u v, execBatch b s = .next u ∧ execBatch c u = .next v ∧ t.mem = v.mem)

/-- 42_lanes_and_batch.md R159: the 17-element scenario, with any number of lanes, and how many requests each of the two batches
issues, one response each. -/
def Obligations.SeventeenElementScenario : Prop :=
  (∀ (s : State) (a b c : Nat), Memory.wf s.mem → batchDisjoint ⟨.f16Enc, b, a, 17⟩ = true →
    batchDisjoint ⟨.f16Dec, c, b, 17⟩ = true →
    ∃ t u, execBatch ⟨.f16Enc, b, a, 17⟩ s = .next t ∧ execBatch ⟨.f16Dec, c, b, 17⟩ t = .next u ∧
      (∀ k, k < 17 → wordAt u.mem c k = f16dec (f16enc (wordAt s.mem a k))) ∧
      (s.queue = [] → t.received.length = s.received.length + batchRequests s.params.lanes 17 ∧
        u.received.length = t.received.length + batchRequests s.params.lanes 17)) ∧
  batchRequests .eight 17 = 3 ∧ batchRequests .sixteen 17 = 2 ∧ batchRequests .one 17 = 17

/-! ### The interface at the clock edge -/

/-- 20_memory.md R50: responses are in request order, one for each accepted request: an edge without reset adds to what
is owed and delivered exactly the response of the request it accepts, and delivers a prefix of it; a reset drops what is
not delivered. -/
def Obligations.ResponsesInRequestOrder : Prop :=
  ∀ (s : State) (p : Pins) (rest : List HostMove), s.moves = .drive p :: rest →
    ∃ t, step s = .next t ∧ s.received <+: t.received ∧
      (p.rstN = true → responsesInOrder t = responsesInOrder s ++
        (match nextRequest s with
          | some r => [respond s.params.lanes r]
          | none => [])) ∧
      (p.rstN = false → responsesInOrder t = s.received)

/-- An offered response stays offered and unchanged until it is taken, and is delivered at the edge that takes it (the
handshake of 30_encoding.md section 6). -/
def Obligations.OfferedResponseIsStable : Prop :=
  ∀ (s : State) (p : Pins) (rest : List HostMove), s.moves = .drive p :: rest → p.rstN = true →
    s.rspValid true = true →
    ∃ t, step s = .next t ∧
      (p.rspReady = false → t.rspValid true = true ∧ t.rspPins true = s.rspPins true ∧ t.received = s.received) ∧
      (p.rspReady = true → t.received = s.received ++ [s.rspPins true])

/-- The frame of an edge without reset: a response is taken exactly where `rsp_valid` and `rsp_ready` are 1, and it is
the offered one; at most one request is accepted, and none without `req_valid` and `req_ready`; no constant, no byte of
memory and no round in hand changes (30_encoding.md section 6). -/
def Obligations.EdgeFrame : Prop :=
  ∀ (s : State) (p : Pins) (rest : List HostMove), s.moves = .drive p :: rest → p.rstN = true →
    ∃ t, step s = .next t ∧ t.params = s.params ∧ t.mem = s.mem ∧ t.rounds = s.rounds ∧ t.moves = rest ∧
      ((s.rspValid true && p.rspReady) = false → t.received = s.received) ∧
      ((s.rspValid true && p.rspReady) = true → t.received = s.received ++ [s.rspPins true]) ∧
      (p.reqValid = false ∨ s.reqReady true = false →
        t.queue.map Entry.rsp = (s.queue.drop (t.received.length - s.received.length)).map Entry.rsp) ∧
      t.queue.length ≤ s.queue.length + 1

/-- 70_reset_and_hazards.md R190 and 10_state.md R32: an edge with `rst_n = 0` empties the queue, accepts and offers
nothing, loses what was in flight, and touches no constant and no byte of host memory; afterwards the block is idle; so
it is in the state after reset. That an idle block has `req_ready` 1 is the model's reading, log 6; that the host keeps the
responses it took and its coming moves is the model's too, log 20. -/
def Obligations.ResetEmptiesTheQueue : Prop :=
  (∀ (s : State) (p : Pins) (rest : List HostMove), s.moves = .drive p :: rest → p.rstN = false →
    s.reqReady p.rstN = false ∧ s.rspValid p.rstN = false ∧ nextRequest s = none ∧
    ∃ t, step s = .next t ∧ t.queue = [] ∧ t.received = s.received ∧ t.params = s.params ∧ t.mem = s.mem ∧
      t.moves = rest ∧ t.rspValid true = false ∧ (s.params.wf = true → t.reqReady true = true)) ∧
  State.reset.queue = [] ∧ State.reset.rspValid true = false ∧ State.reset.reqReady true = true

/-- 70_reset_and_hazards.md R196: timing does not depend on operand data: two states that differ only in operand bits,
results, memory and past responses show the same `req_ready` and `rsp_valid`, and still do after a step. -/
def Obligations.TimingIndependentOfData : Prop :=
  ∀ s t : State, timingView s = timingView t →
    (∀ r, s.reqReady r = t.reqReady r ∧ s.rspValid r = t.rspValid r) ∧
    (∀ s', step s = .next s' → ∃ t', step t = .next t' ∧ timingView s' = timingView t')

/-- If the host keeps taking, everything in flight is answered, in order, after finitely many edges: at most one more
than its wait for each request in flight (the fairness of 30_encoding.md section 6). The bound is the model's choice,
log 4. Where the list of moves is shorter than `k`, the host takes with idle pins, which is the model's choice too,
log 2. -/
def Obligations.RequestsAreAnsweredInFiniteTime : Prop :=
  ∀ (s : State) (k : Nat), (s.queue.map (fun e => e.wait + 1)).sum ≤ k →
    (∀ m ∈ s.moves.take k, keepsTaking m = true) →
    ∃ t : State, Sys2Proof.core.run k s = .next t ∧ (s.received ++ s.queue.map Entry.rsp) <+: t.received

/-! ### Invariants -/

/-- Every step keeps the invariant: at most `DEPTH` requests in flight, each with the response of its own request, the
received responses well-formed, every round in hand counting on the response of its own request, memory canonical. -/
def Obligations.StepKeepsInvariant : Prop :=
  ∀ s t : State, MachineInv s → step s = .next t → MachineInv t

/-- The state after reset has the invariant. -/
def Obligations.ResetHasInvariant : Prop := MachineInv State.reset

/-- No step changes `LANES`, `LAT` or `DEPTH` (00_scope.md section 4, 70_reset_and_hazards.md section 1). -/
def Obligations.ParametersAreConstant : Prop :=
  ∀ s t : State, step s = .next t → t.params = s.params

/-! ### The assembler -/

/-- Lines of 30_encoding.md section 5: operands with lane 0 first, missing lanes zero, too many operands an error,
symbols, reserved codes, batches, and responses written out. -/
def Obligations.AssemblerLines : Prop :=
  assemble .eight "f16.enc 0x3F800000".toList = .ok (present 0x0 [0x3F800000, 0, 0, 0, 0, 0, 0, 0]) ∧
  assemble .eight "f16.dec 0x3C00, 0x7D00, F16_DENORM_MIN ; two codes a word".toList =
    .ok (present 0x1 [0x7D003C00, 0x00000001, 0, 0, 0, 0, 0, 0]) ∧
  assemble .one "bf16.enc.rne 0x3F80FFFF".toList = .ok (present 0x6 [0x3F80FFFF]) ∧
  assemble .one "bf16.enc 0x3F800000, 0x3F800000".toList = .error .tooManyOperands ∧
  assemble .one ".op 0x4 0x3F800000".toList = .ok (present 0x4 [0x3F800000]) ∧
  assemble .one "f16.enc.batch 0x2000, 0x1000, 17".toList = .ok (.batch ⟨.f16Enc, 0x2000, 0x1000, 17⟩) ∧
  responseLine .one .enc ⟨false, [0x00003C00]⟩ = "-> 0x3C00".toList ∧
  responseLine .one .dec ⟨false, [0x3F802000]⟩ = "-> 0x3F802000".toList ∧
  responseLine .one .enc ⟨true, [0]⟩ = "-> err".toList
end

