-- ==== Sys2Proof/Laws/Formats.lean ====
section
/-! SUPPORT. Patterns as numbers: each pattern is `sign, exponent, mantissa` in base 2, and the conversions in the
arithmetic of natural numbers (40_float16.md R96, R110, 41_bfloat16.md R131, R134, R138). -/

namespace Sys2Proof.Machine

theorem exp32_eq (x : Word32) : exp32 x = x.toNat / 2 ^ 23 % 256 := by
  simp [exp32, BitVec.extractLsb'_toNat, Nat.shiftRight_eq_div_pow]

theorem man32_eq (x : Word32) : man32 x = x.toNat % 2 ^ 23 := by
  simp [man32, BitVec.extractLsb'_toNat]

theorem sign32_eq (x : Word32) : (sign32 x).toNat = x.toNat / 2 ^ 31 := by
  have := x.isLt
  simp only [sign32, BitVec.extractLsb'_toNat, Nat.shiftRight_eq_div_pow]
  omega

theorem expF16_eq (h : Code) : expF16 h = h.toNat / 2 ^ 10 % 32 := by
  simp [expF16, BitVec.extractLsb'_toNat, Nat.shiftRight_eq_div_pow]

theorem manF16_eq (h : Code) : manF16 h = h.toNat % 2 ^ 10 := by
  simp [manF16, BitVec.extractLsb'_toNat]

theorem expBF16_eq (b : Code) : expBF16 b = b.toNat / 2 ^ 7 % 256 := by
  simp [expBF16, BitVec.extractLsb'_toNat, Nat.shiftRight_eq_div_pow]

theorem manBF16_eq (b : Code) : manBF16 b = b.toNat % 2 ^ 7 := by
  simp [manBF16, BitVec.extractLsb'_toNat]

theorem sign16_eq (h : Code) : (sign16 h).toNat = h.toNat / 2 ^ 15 := by
  have := h.isLt
  simp only [sign16, BitVec.extractLsb'_toNat, Nat.shiftRight_eq_div_pow]
  omega

theorem exp32_lt (x : Word32) : exp32 x < 256 := BitVec.isLt _
theorem man32_lt (x : Word32) : man32 x < 2 ^ 23 := BitVec.isLt _
theorem expF16_lt (h : Code) : expF16 h < 32 := BitVec.isLt _
theorem manF16_lt (h : Code) : manF16 h < 2 ^ 10 := BitVec.isLt _
theorem expBF16_lt (b : Code) : expBF16 b < 256 := BitVec.isLt _
theorem manBF16_lt (b : Code) : manBF16 b < 2 ^ 7 := BitVec.isLt _

/-- A binary32 pattern from its fields. -/
theorem toNat_eq_fields (x : Word32) : x.toNat = (sign32 x).toNat * 2 ^ 31 + exp32 x * 2 ^ 23 + man32 x := by
  rw [sign32_eq, exp32_eq, man32_eq]
  have := x.isLt
  omega

/-- A binary16 code from its fields. -/
theorem toNat_eq_fieldsF16 (h : Code) : h.toNat = (sign16 h).toNat * 2 ^ 15 + expF16 h * 2 ^ 10 + manF16 h := by
  rw [sign16_eq, expF16_eq, manF16_eq]
  have := h.isLt
  omega

/-- A bfloat16 code from its fields. -/
theorem toNat_eq_fieldsBF16 (b : Code) : b.toNat = (sign16 b).toNat * 2 ^ 15 + expBF16 b * 2 ^ 7 + manBF16 b := by
  rw [sign16_eq, expBF16_eq, manBF16_eq]
  have := b.isLt
  omega

/-- `{s, h[14:0]}` as a number. -/
theorem signedCode_toNat (s : BitVec 1) (h : Nat) : (signedCode s h).toNat = s.toNat * 2 ^ 15 + h % 2 ^ 15 := by
  have key : (s ++ BitVec.ofNat 15 h : BitVec (1 + 15)).toNat = s.toNat * 2 ^ 15 + h % 2 ^ 15 := by
    rw [BitVec.toNat_append, BitVec.toNat_ofNat, Nat.shiftLeft_eq, Nat.mul_comm,
      ← Nat.two_pow_add_eq_or_of_lt (Nat.mod_lt _ (by norm_num))]
  exact key

/-- A binary32 pattern put together from fields, as a number. -/
theorem word32_toNat (s : BitVec 1) (e m : Nat) :
    (word32 s e m).toNat = s.toNat * 2 ^ 31 + e % 2 ^ 8 * 2 ^ 23 + m % 2 ^ 23 := by
  have h1 : (BitVec.ofNat 8 e ++ BitVec.ofNat 23 m : BitVec (8 + 23)).toNat = e % 2 ^ 8 * 2 ^ 23 + m % 2 ^ 23 := by
    rw [BitVec.toNat_append, BitVec.toNat_ofNat, BitVec.toNat_ofNat, Nat.shiftLeft_eq, Nat.mul_comm,
      ← Nat.two_pow_add_eq_or_of_lt (Nat.mod_lt _ (by norm_num))]
  have h2 := (BitVec.ofNat 8 e ++ BitVec.ofNat 23 m : BitVec (8 + 23)).isLt
  have key : (s ++ (BitVec.ofNat 8 e ++ BitVec.ofNat 23 m : BitVec (8 + 23)) : BitVec (1 + (8 + 23))).toNat =
      s.toNat * 2 ^ 31 + (e % 2 ^ 8 * 2 ^ 23 + m % 2 ^ 23) := by
    rw [BitVec.toNat_append, h1, Nat.shiftLeft_eq, Nat.mul_comm, ← Nat.two_pow_add_eq_or_of_lt (h1 ▸ h2)]
  rw [Nat.add_assoc]
  exact key

/-- The sign bit of `{s, h[14:0]}`. -/
theorem sign16_signedCode (s : BitVec 1) (h : Nat) : sign16 (signedCode s h) = s := by
  apply BitVec.eq_of_toNat_eq
  rw [sign16_eq, signedCode_toNat]
  omega

/-- Normal range of `f16.enc` in arithmetic: exponent and mantissa as one number, rounded at 2^13. -/
theorem f16encNormal_eq (tie : TieRule) {e m : Nat} (hm : m < 2 ^ 23) :
    f16encNormal tie e m = roundNearest tie ((e - 112) * 2 ^ 10 + m / 2 ^ 13) (m % 2 ^ 13) (2 ^ 12) := by
  unfold f16encNormal
  rw [Nat.shiftLeft_eq, Nat.shiftRight_eq_div_pow, Nat.mul_comm,
    ← Nat.two_pow_add_eq_or_of_lt (by omega : m / 2 ^ 13 < 2 ^ 10), show 0x1FFF = 2 ^ 13 - 1 from rfl,
    Nat.and_two_pow_sub_one_eq_mod, show 0x1000 = 2 ^ 12 from rfl]

/-- Subnormal range of `f16.enc` in arithmetic: the significand rounded at `2^sh`. -/
theorem f16encSubnormal_eq (tie : TieRule) {e m : Nat} (hm : m < 2 ^ 23) :
    f16encSubnormal tie e m =
      roundNearest tie ((2 ^ 23 + m) / 2 ^ min (126 - e) 25) ((2 ^ 23 + m) % 2 ^ min (126 - e) 25)
        (2 ^ (min (126 - e) 25 - 1)) := by
  unfold f16encSubnormal
  have h1 : 0x800000 ||| m = 2 ^ 23 + m := by
    have := Nat.two_pow_add_eq_or_of_lt hm 1
    rw [Nat.mul_one] at this
    exact this.symm
  simp only [h1, Nat.shiftLeft_eq, Nat.one_mul, Nat.shiftRight_eq_div_pow, Nat.and_two_pow_sub_one_eq_mod]

/-- Rounding up adds at most one. -/
theorem roundNearest_cases (tie : TieRule) (h rem half : Nat) :
    roundNearest tie h rem half = h ∨ roundNearest tie h rem half = h + 1 := by
  unfold roundNearest
  cases tie <;> simp only <;> split <;> simp

/-- `BF16ENC` as a number. -/
theorem bf16enc_toNat (x : Word32) : (bf16enc x).toNat = x.toNat / 2 ^ 16 := by
  have := x.isLt
  simp only [bf16enc, BitVec.extractLsb'_toNat, Nat.shiftRight_eq_div_pow]
  omega

/-- `BF16DEC` as a number. -/
theorem bf16dec_toNat (b : Code) : (bf16dec b).toNat = b.toNat * 2 ^ 16 := by
  have key : (b ++ 0#16 : BitVec (16 + 16)).toNat = b.toNat * 2 ^ 16 := by
    rw [BitVec.toNat_append, Nat.shiftLeft_eq]
    simp
  exact key

/-- `BF16ENCR` of a pattern that is no NaN, as a number: the sum of 41_bfloat16.md R138. -/
theorem bf16encr_toNat {x : Word32} (h : ¬ (exp32 x = 255 ∧ man32 x ≠ 0)) :
    (bf16encr x).toNat = (x.toNat + 0x7FFF + x.toNat / 2 ^ 16 % 2) / 2 ^ 16 % 2 ^ 16 := by
  have hb : (x.getLsbD 16).toNat = x.toNat / 2 ^ 16 % 2 := by
    rw [BitVec.getLsbD, Nat.toNat_testBit]
  rw [bf16encr, if_neg h, BitVec.toNat_ofNat, hb, Nat.shiftRight_eq_div_pow]

end Sys2Proof.Machine
end

