-- ==== Sys2Proof/Laws/Memory.lean ====
section
/-! SUPPORT. Host memory: reads after writes, the canonical form, and that canonical memories that read alike are equal. -/

namespace Sys2Proof.Machine

theorem Memory.wf_nil : Memory.wf [] := by simp [Memory.wf]

theorem Memory.wf_tail {c : Host.Cell} {m : Memory} (h : Memory.wf (c :: m)) : Memory.wf m :=
  ⟨(List.pairwise_cons.mp h.1).2, fun x hx => h.2 x (List.mem_cons_of_mem _ hx)⟩

/-- Below its first listed address a canonical memory lists nothing. -/
theorem Memory.readByte_of_lt {m : Memory} {a : Nat} (h : ∀ c ∈ m, a < c.1) :
    Memory.readByte m a = Memory.unlisted := by
  induction m with
  | nil => rfl
  | cons c m ih =>
    have hc := h c (List.mem_cons_self ..)
    rw [Memory.readByte, if_neg (by omega)]
    exact ih fun x hx => h x (List.mem_cons_of_mem _ hx)

theorem Memory.lt_of_wf_cons {c : Host.Cell} {m : Memory} (h : Memory.wf (c :: m)) : ∀ x ∈ m, c.1 < x.1 :=
  (List.pairwise_cons.mp h.1).1

/-- What a byte store does to every byte. -/
theorem Memory.readByte_writeByte {m : Memory} (h : Memory.wf m) (a b : Nat) (v : Byte) :
    Memory.readByte (Memory.writeByte m a v) b = if b = a then v else Memory.readByte m b := by
  induction m with
  | nil =>
    unfold Memory.writeByte
    split
    · simp_all [Memory.readByte]
    · simp [Memory.readByte]
  | cons c m ih =>
    obtain ⟨k, u⟩ := c
    have hlt := Memory.lt_of_wf_cons h
    have hlow : ∀ d, d ≤ k → Memory.readByte m d = Memory.unlisted := fun d hd =>
      Memory.readByte_of_lt fun x hx => lt_of_le_of_lt hd (hlt x hx)
    unfold Memory.writeByte
    split
    · rename_i hk
      simp only [Memory.readByte, ih (Memory.wf_tail h)]
      by_cases hb : b = k
      · simp [hb]; intro hka; omega
      · simp [hb]
    · rename_i hk
      split
      · rename_i hak
        subst hak
        split
        · rename_i hv
          by_cases hb : b = a
          · simp [hb, hlow, hv]
          · simp [hb, Memory.readByte]
        · by_cases hb : b = a <;> simp [hb, Memory.readByte]
      · rename_i hak
        split
        · rename_i hv
          by_cases hb : b = a
          · subst hb
            simp [Memory.readByte, hak, hv, hlow b (by omega)]
          · simp [hb]
        · by_cases hb : b = a <;> simp [hb, Memory.readByte]

theorem Memory.mem_writeByte {m : Memory} {a : Nat} {v : Byte} {c : Host.Cell} (h : c ∈ Memory.writeByte m a v) :
    c ∈ m ∨ (c = (a, v) ∧ v ≠ Memory.unlisted) := by
  induction m with
  | nil =>
    unfold Memory.writeByte at h
    split at h <;> simp_all
  | cons d m ih =>
    obtain ⟨k, u⟩ := d
    unfold Memory.writeByte at h
    split at h
    · rcases List.mem_cons.mp h with h | h
      · exact .inl (by simp [h])
      · rcases ih h with h | h
        · exact .inl (List.mem_cons_of_mem _ h)
        · exact .inr h
    · split at h <;> split at h <;> simp_all <;> tauto

/-- A byte store keeps the canonical form. -/
theorem Memory.wf_writeByte {m : Memory} (h : Memory.wf m) (a : Nat) (v : Byte) :
    Memory.wf (Memory.writeByte m a v) := by
  refine ⟨?_, fun c hc => ?_⟩
  · induction m with
    | nil => unfold Memory.writeByte; split <;> simp
    | cons d m ih =>
      obtain ⟨k, u⟩ := d
      have hlt := Memory.lt_of_wf_cons h
      have ht := (Memory.wf_tail h).1
      unfold Memory.writeByte
      split
      · rename_i hk
        refine List.pairwise_cons.mpr ⟨fun x hx => ?_, ih (Memory.wf_tail h)⟩
        rcases Memory.mem_writeByte hx with hx | ⟨rfl, -⟩
        · exact hlt x hx
        · exact hk
      · rename_i hk
        split
        · rename_i hak
          subst hak
          split
          · exact ht
          · exact List.pairwise_cons.mpr ⟨hlt, ht⟩
        · rename_i hak
          split
          · exact h.1
          · refine List.pairwise_cons.mpr ⟨fun x hx => ?_, h.1⟩
            rcases List.mem_cons.mp hx with rfl | hx
            · exact lt_of_le_of_ne (not_lt.mp hk) hak
            · exact lt_of_le_of_lt (not_lt.mp hk) (hlt x hx)
  · rcases Memory.mem_writeByte hc with hc | ⟨rfl, hv⟩
    · exact h.2 c hc
    · exact hv

/-- `MemWrite` keeps the canonical form. -/
theorem wf_memWrite {m : Memory} (h : Memory.wf m) (a n v : Nat) : Memory.wf (memWrite m a n v) := by
  induction n generalizing m a v with
  | zero => exact h
  | succ n ih => exact ih (Memory.wf_writeByte h _ _) _ _

/-- What `MemWrite` does to every byte: byte `b - a` of the value inside, nothing outside (20_memory.md R42). -/
theorem readByte_memWrite {m : Memory} (h : Memory.wf m) (a n v b : Nat) :
    Memory.readByte (memWrite m a n v) b =
      if a ≤ b ∧ b < a + n then BitVec.ofNat 8 (v / 256 ^ (b - a)) else Memory.readByte m b := by
  induction n generalizing m a v with
  | zero =>
    rw [if_neg (by omega)]
    rfl
  | succ n ih =>
    rw [memWrite, ih (Memory.wf_writeByte h _ _), Memory.readByte_writeByte h]
    by_cases hb : b = a
    · subst hb
      rw [if_neg (by omega), if_pos rfl, if_pos (by omega)]
      simp
    · by_cases hin : a + 1 ≤ b ∧ b < a + 1 + n
      · have he : b - a = (b - (a + 1)) + 1 := by omega
        rw [if_pos hin, if_pos (by omega), he, pow_succ, Nat.mul_comm, Nat.div_div_eq_div_mul]
      · rw [if_neg hin, if_neg hb, if_neg (by omega)]

/-- `MemRead` depends on its own bytes only. -/
theorem memRead_congr {m m' : Memory} {a n : Nat}
    (h : ∀ b, a ≤ b → b < a + n → Memory.readByte m b = Memory.readByte m' b) : memRead m a n = memRead m' a n := by
  induction n generalizing a with
  | zero => rfl
  | succ n ih =>
    rw [memRead, memRead, h a le_rfl (by omega), ih fun b hb hb' => h b (by omega) (by omega)]

theorem memRead_lt (m : Memory) (a n : Nat) : memRead m a n < 256 ^ n := by
  induction n generalizing a with
  | zero => simp [memRead]
  | succ n ih =>
    have h1 := (Memory.readByte m a).isLt
    have h2 := ih (a + 1)
    rw [memRead, pow_succ]
    omega

/-- `MemRead` of what `MemWrite` stored at the same place. -/
theorem memRead_memWrite_self {m : Memory} (h : Memory.wf m) (a n v : Nat) :
    memRead (memWrite m a n v) a n = v % 256 ^ n := by
  have key : ∀ k c w, (∀ i, i < k → Memory.readByte (memWrite m a n v) (c + i) = BitVec.ofNat 8 (w / 256 ^ i)) →
      memRead (memWrite m a n v) c k = w % 256 ^ k := by
    intro k
    induction k with
    | zero => intro c w _; simp [memRead, Nat.mod_one]
    | succ k ih =>
      intro c w hb
      have h0 := hb 0 (by omega)
      have hrest := ih (c + 1) (w / 256) fun i hi => by
        have := hb (i + 1) (by omega)
        rw [show c + 1 + i = c + (i + 1) by omega, this, pow_succ, Nat.mul_comm, Nat.div_div_eq_div_mul]
      simp only [Nat.add_zero, pow_zero, Nat.div_one] at h0
      rw [memRead, h0, hrest, BitVec.toNat_ofNat, show 2 ^ 8 = 256 from rfl, pow_succ, Nat.mul_comm (256 ^ k) 256,
        Nat.mod_mul]
  exact key n a v fun i hi => by
    rw [readByte_memWrite h, if_pos (by omega), show a + i - a = i by omega]

/-- Canonical memories that read alike are the same list. -/
theorem Memory.ext_of_readByte {m m' : Memory} (h : Memory.wf m) (h' : Memory.wf m')
    (hr : ∀ a, Memory.readByte m a = Memory.readByte m' a) : m = m' := by
  induction m generalizing m' with
  | nil =>
    cases m' with
    | nil => rfl
    | cons c m' =>
      have := hr c.1
      simp only [Memory.readByte, if_true] at this
      exact absurd this.symm (h'.2 c (List.mem_cons_self ..))
  | cons c m ih =>
    cases m' with
    | nil =>
      have := hr c.1
      simp only [Memory.readByte, if_true] at this
      exact absurd this (h.2 c (List.mem_cons_self ..))
    | cons c' m' =>
      obtain ⟨k, u⟩ := c
      obtain ⟨k', u'⟩ := c'
      have hu : u ≠ Memory.unlisted := h.2 (k, u) (List.mem_cons_self ..)
      have hu' : u' ≠ Memory.unlisted := h'.2 (k', u') (List.mem_cons_self ..)
      have low : ∀ d, d ≤ k → Memory.readByte m d = Memory.unlisted := fun d hd =>
        Memory.readByte_of_lt fun x hx => lt_of_le_of_lt hd (Memory.lt_of_wf_cons h x hx)
      have low' : ∀ d, d ≤ k' → Memory.readByte m' d = Memory.unlisted := fun d hd =>
        Memory.readByte_of_lt fun x hx => lt_of_le_of_lt hd (Memory.lt_of_wf_cons h' x hx)
      have hk : k = k' := by
        rcases Nat.lt_trichotomy k k' with hlt | heq | hgt
        · have := hr k
          simp only [Memory.readByte, if_true, if_neg (Nat.ne_of_lt hlt), low' k (by omega)] at this
          exact absurd this hu
        · exact heq
        · have := hr k'
          simp only [Memory.readByte, if_true, if_neg (Nat.ne_of_lt hgt), low k' (by omega)] at this
          exact absurd this.symm hu'
      subst hk
      have hv : u = u' := by have := hr k; simpa [Memory.readByte] using this
      subst hv
      congr 1
      refine ih (Memory.wf_tail h) (Memory.wf_tail h') fun a => ?_
      by_cases ha : a = k
      · subst ha
        rw [low a le_rfl, low' a le_rfl]
      · have := hr a
        simpa [Memory.readByte, ha] using this

end Sys2Proof.Machine
end

