-- ==== Sys2Proof/Laws/Operands.lean ====
section
/-! SUPPORT. The lanes of packed vectors (30_encoding.md R64, R65, R66). -/

namespace Sys2Proof.Machine

theorem LaneCount.count_pos (L : LaneCount) : 0 < L.count := by cases L <;> decide

@[simp] theorem packWide_length (L : LaneCount) (f : Nat → Word32) : (packWide L f).length = L.count := by
  simp [packWide]

@[simp] theorem packNarrow_length (L : LaneCount) (f : Nat → Code) : (packNarrow L f).length = L.count := by
  simp [packNarrow]

@[simp] theorem packWide_fits (L : LaneCount) (f : Nat → Word32) : DataVec.fits L (packWide L f) = true := by
  simp [DataVec.fits]

@[simp] theorem packNarrow_fits (L : LaneCount) (f : Nat → Code) : DataVec.fits L (packNarrow L f) = true := by
  simp [DataVec.fits]

@[simp] theorem encLanes_fits (L : LaneCount) (f : Word32 → Code) (v : DataVec) :
    DataVec.fits L (encLanes L f v) = true := packNarrow_fits ..

@[simp] theorem decLanes_fits (L : LaneCount) (f : Code → Word32) (v : DataVec) :
    DataVec.fits L (decLanes L f v) = true := packWide_fits ..

@[simp] theorem fitLanes_fits (L : LaneCount) (v : DataVec) : DataVec.fits L (fitLanes L v) = true :=
  packWide_fits ..

/-- A wide lane of a packed vector. -/
theorem wideLane_packWide (L : LaneCount) (f : Nat → Word32) (i : Nat) :
    wideLane (packWide L f) i = if i < L.count then f i else 0 := by
  simp only [wideLane, packWide, List.getD_eq_getElem?_getD, List.getElem?_map]
  by_cases h : i < L.count <;> simp [h]

/-- A narrow lane of a packed vector: the code below `LANES`, zero from there on. -/
theorem narrowLane_packNarrow (L : LaneCount) (f : Nat → Code) (i : Nat) :
    narrowLane (packNarrow L f) i = if i < L.count then f i else 0 := by
  have hw : ∀ j, (packNarrow L f).getD j 0 =
      if j < L.count then (codeOrZero L f (2 * j + 1) ++ codeOrZero L f (2 * j) : BitVec (16 + 16)) else 0 := by
    intro j
    by_cases h : j < L.count <;> simp [packNarrow, h]
  have hlow : ∀ a b : Code, ((a ++ b : BitVec (16 + 16)) : Word32).extractLsb' 0 16 = b := by
    intro a b
    ext k hk
    rw [BitVec.getElem_extractLsb']
    exact (BitVec.getLsbD_append (x := a) (y := b) (i := 0 + k)).trans (by simp [hk])
  have hhigh : ∀ a b : Code, ((a ++ b : BitVec (16 + 16)) : Word32).extractLsb' 16 16 = a := by
    intro a b
    ext k hk
    rw [BitVec.getElem_extractLsb']
    exact (BitVec.getLsbD_append (x := a) (y := b) (i := 16 + k)).trans (by simp [hk])
  unfold narrowLane
  rw [hw]
  by_cases hj : i / 2 < L.count
  · rw [if_pos hj]
    rcases Nat.mod_two_eq_zero_or_one i with h | h
    · rw [if_pos h, hlow, show 2 * (i / 2) = i by omega, codeOrZero]
    · rw [if_neg (by omega), hhigh, show 2 * (i / 2) + 1 = i by omega, codeOrZero]
  · rw [if_neg hj, if_neg (by omega : ¬ i < L.count)]
    split <;> rfl

/-- Result lanes of format ENC (30_encoding.md R66). -/
theorem narrowLane_encLanes (L : LaneCount) (f : Word32 → Code) (v : DataVec) (i : Nat) :
    narrowLane (encLanes L f v) i = if i < L.count then f (wideLane v i) else 0 :=
  narrowLane_packNarrow ..

/-- Result lanes of format DEC (30_encoding.md R66). -/
theorem wideLane_decLanes (L : LaneCount) (f : Code → Word32) (v : DataVec) (i : Nat) :
    wideLane (decLanes L f v) i = if i < L.count then f (narrowLane v i) else 0 :=
  wideLane_packWide ..

/-- A vector of the block's width passes its port unchanged. -/
theorem fitLanes_of_fits {L : LaneCount} {v : DataVec} (h : DataVec.fits L v = true) : fitLanes L v = v := by
  have hl : v.length = L.count := by simpa [DataVec.fits] using h
  refine List.ext_getElem (by simp [fitLanes, hl]) fun i h1 h2 => ?_
  simp [fitLanes, packWide, wideLane, h2]

@[simp] theorem ok_wf (L : LaneCount) (v : DataVec) (h : DataVec.fits L v = true) :
    Response.wf L (Response.ok v) = true := by
  simp [Response.wf, Response.ok, h]

@[simp] theorem reserved_wf (L : LaneCount) : Response.wf L (Response.reserved L) = true := by
  simp [Response.wf, Response.reserved]

end Sys2Proof.Machine
end

