-- ==== Sys2Proof/Laws/State.lean ====
section
/-! SUPPORT. One lemma per field per update of State, each true by rfl, so that no later proof unfolds a record update. -/

namespace Sys2Proof.Machine

section Answer
variable (s : State) (op : OpCode) (d : DataVec) (r : Response) (q : Request)

@[simp] theorem State.answer_params : (s.answer op d r).params = s.params := rfl
@[simp] theorem State.answer_received : (s.answer op d r).received = s.received := rfl
@[simp] theorem State.answer_mem : (s.answer op d r).mem = s.mem := rfl
@[simp] theorem State.answer_rounds : (s.answer op d r).rounds = s.rounds := rfl
@[simp] theorem State.answer_moves : (s.answer op d r).moves = s.moves := rfl
@[simp] theorem State.answer_tick : (s.answer op d r).tick = s.tick := rfl
@[simp] theorem State.answer_queue : (s.answer op d r).queue = s.queue ++
    [{ op, operand := d, rsp := r, wait := s.params.lat + Config.extraLatency op s.queue.length s.tick }] := rfl

@[simp] theorem State.answerReserved_params : (s.answerReserved q).params = s.params := rfl
@[simp] theorem State.answerReserved_received : (s.answerReserved q).received = s.received := rfl
@[simp] theorem State.answerReserved_mem : (s.answerReserved q).mem = s.mem := rfl
@[simp] theorem State.answerReserved_rounds : (s.answerReserved q).rounds = s.rounds := rfl
@[simp] theorem State.answerReserved_moves : (s.answerReserved q).moves = s.moves := rfl
@[simp] theorem State.answerReserved_tick : (s.answerReserved q).tick = s.tick := rfl
@[simp] theorem State.answerReserved_queue : (s.answerReserved q).queue = s.queue ++
    [{ op := q.op, operand := q.data, rsp := Response.reserved s.params.lanes,
       wait := s.params.lat + Config.extraLatency q.op s.queue.length s.tick }] := rfl

end Answer

section Edge
variable (s : State)

@[simp] theorem State.passEdge_params : s.passEdge.params = s.params := rfl
@[simp] theorem State.passEdge_queue : s.passEdge.queue = s.queue.map Entry.age := rfl
@[simp] theorem State.passEdge_received : s.passEdge.received = s.received := rfl
@[simp] theorem State.passEdge_mem : s.passEdge.mem = s.mem := rfl
@[simp] theorem State.passEdge_rounds : s.passEdge.rounds = s.rounds := rfl
@[simp] theorem State.passEdge_moves : s.passEdge.moves = s.moves := rfl
@[simp] theorem State.passEdge_tick : s.passEdge.tick = s.tick + 1 := rfl

@[simp] theorem State.loseInFlight_params : s.loseInFlight.params = s.params := rfl
@[simp] theorem State.loseInFlight_queue : s.loseInFlight.queue = [] := rfl
@[simp] theorem State.loseInFlight_received : s.loseInFlight.received = s.received := rfl
@[simp] theorem State.loseInFlight_mem : s.loseInFlight.mem = s.mem := rfl
@[simp] theorem State.loseInFlight_rounds : s.loseInFlight.rounds = s.rounds.map (Round.lose s.received.length) := rfl
@[simp] theorem State.loseInFlight_moves : s.loseInFlight.moves = s.moves := rfl
@[simp] theorem State.loseInFlight_tick : s.loseInFlight.tick = s.tick := rfl

@[simp] theorem State.resetBlock_params : s.resetBlock.params = s.params := rfl
@[simp] theorem State.resetBlock_queue : s.resetBlock.queue = [] := rfl
@[simp] theorem State.resetBlock_received : s.resetBlock.received = s.received := rfl
@[simp] theorem State.resetBlock_mem : s.resetBlock.mem = s.mem := rfl
@[simp] theorem State.resetBlock_rounds :
    s.resetBlock.rounds = s.rounds.map (Round.lose s.received.length) := rfl
@[simp] theorem State.resetBlock_moves : s.resetBlock.moves = s.moves := rfl
@[simp] theorem State.resetBlock_tick : s.resetBlock.tick = s.tick + 1 := rfl

@[simp] theorem Entry.age_op (e : Entry) : e.age.op = e.op := rfl
@[simp] theorem Entry.age_operand (e : Entry) : e.age.operand = e.operand := rfl
@[simp] theorem Entry.age_rsp (e : Entry) : e.age.rsp = e.rsp := rfl
@[simp] theorem Entry.age_wait (e : Entry) : e.age.wait = e.wait - 1 := rfl

end Edge

section Host
variable (s : State) (a n v : Nat)

@[simp] theorem State.drain_params : s.drain.params = s.params := rfl
@[simp] theorem State.drain_queue : s.drain.queue = [] := rfl
@[simp] theorem State.drain_received : s.drain.received = s.received ++ s.queue.map Entry.rsp := rfl
@[simp] theorem State.drain_mem : s.drain.mem = s.mem := rfl
@[simp] theorem State.drain_rounds : s.drain.rounds = s.rounds := rfl
@[simp] theorem State.drain_moves : s.drain.moves = s.moves := rfl
@[simp] theorem State.drain_tick : s.drain.tick = s.tick := rfl

@[simp] theorem State.hostStore_params : (s.hostStore a n v).params = s.params := rfl
@[simp] theorem State.hostStore_queue : (s.hostStore a n v).queue = s.queue := rfl
@[simp] theorem State.hostStore_received : (s.hostStore a n v).received = s.received := rfl
@[simp] theorem State.hostStore_mem : (s.hostStore a n v).mem = memWrite s.mem a n v := rfl
@[simp] theorem State.hostStore_rounds : (s.hostStore a n v).rounds = s.rounds := rfl
@[simp] theorem State.hostStore_moves : (s.hostStore a n v).moves = s.moves := rfl
@[simp] theorem State.hostStore_tick : (s.hostStore a n v).tick = s.tick := rfl

end Host

section Rounds
variable (s : State) (k i n : Nat) (r : Round)

@[simp] theorem State.loadLane_params : (s.loadLane k i).params = s.params := rfl
@[simp] theorem State.loadLane_queue : (s.loadLane k i).queue = s.queue := rfl
@[simp] theorem State.loadLane_received : (s.loadLane k i).received = s.received := rfl
@[simp] theorem State.loadLane_mem : (s.loadLane k i).mem = s.mem := rfl
@[simp] theorem State.loadLane_rounds : (s.loadLane k i).rounds = 
    s.rounds.modify k (Round.load s.params.lanes s.mem i) := rfl
@[simp] theorem State.loadLane_moves : (s.loadLane k i).moves = s.moves := rfl
@[simp] theorem State.loadLane_tick : (s.loadLane k i).tick = s.tick := rfl

@[simp] theorem State.noteTicket_params : (s.noteTicket k n).params = s.params := rfl
@[simp] theorem State.noteTicket_queue : (s.noteTicket k n).queue = s.queue := rfl
@[simp] theorem State.noteTicket_received : (s.noteTicket k n).received = s.received := rfl
@[simp] theorem State.noteTicket_mem : (s.noteTicket k n).mem = s.mem := rfl
@[simp] theorem State.noteTicket_rounds : (s.noteTicket k n).rounds = 
    s.rounds.modify k fun r => { r with ticket := some n } := rfl
@[simp] theorem State.noteTicket_moves : (s.noteTicket k n).moves = s.moves := rfl
@[simp] theorem State.noteTicket_tick : (s.noteTicket k n).tick = s.tick := rfl

@[simp] theorem Round.lose_batch : (r.lose n).batch = r.batch := rfl
@[simp] theorem Round.lose_j : (r.lose n).j = r.j := rfl
@[simp] theorem Round.lose_loaded : (r.lose n).loaded = r.loaded := rfl
@[simp] theorem Round.lose_ticket : (r.lose n).ticket = r.ticket.filter fun m => decide (m < n) := rfl
@[simp] theorem Round.lose_written : (r.lose n).written = r.written := rfl

end Rounds

end Sys2Proof.Machine
end

