-- ==== Sys2Proof/Laws/Ops.lean ====
section
/-! SUPPORT. One lemma per shared operation, saying once everything it can do: taking the head, an edge, accepting a
request, one instruction, a round of a batch. -/

namespace Sys2Proof.Machine

/-- The host takes nothing from an empty queue and the oldest response from another. -/
theorem State.takeHead_cases (s : State) :
    (s.queue = [] ∧ s.takeHead = s) ∨
      ∃ e rest, s.queue = e :: rest ∧ s.takeHead = { s with queue := rest, received := s.received ++ [e.rsp] } := by
  unfold State.takeHead
  cases hq : s.queue with
  | nil => exact .inl ⟨rfl, rfl⟩
  | cons e rest => exact .inr ⟨e, rest, rfl, rfl⟩

@[simp] theorem State.takeHead_params (s : State) : s.takeHead.params = s.params := by
  rcases s.takeHead_cases with ⟨-, h⟩ | ⟨e, rest, -, h⟩ <;> rw [h]

@[simp] theorem State.takeHead_mem (s : State) : s.takeHead.mem = s.mem := by
  rcases s.takeHead_cases with ⟨-, h⟩ | ⟨e, rest, -, h⟩ <;> rw [h]

@[simp] theorem State.takeHead_moves (s : State) : s.takeHead.moves = s.moves := by
  rcases s.takeHead_cases with ⟨-, h⟩ | ⟨e, rest, -, h⟩ <;> rw [h]

@[simp] theorem State.takeHead_tick (s : State) : s.takeHead.tick = s.tick := by
  rcases s.takeHead_cases with ⟨-, h⟩ | ⟨e, rest, -, h⟩ <;> rw [h]

/-- `rsp_valid` is high exactly when reset is off and the head is finished (10_state.md R30). -/
theorem State.rspValid_iff (s : State) (r : Bool) :
    s.rspValid r = true ↔ r = true ∧ ∃ e rest, s.queue = e :: rest ∧ e.wait = 0 := by
  unfold State.rspValid
  cases hq : s.queue <;> simp

/-- `req_ready` is high exactly when reset is off and the queue has room (10_state.md R30). -/
theorem State.reqReady_iff (s : State) (r : Bool) :
    s.reqReady r = true ↔ r = true ∧ s.queue.length < s.params.depth := by
  simp [State.reqReady]

/-- The rest of an edge either takes the finished head or takes nothing, and lets one edge pass. -/
theorem restOfEdge_cases (p : Pins) (s : State) :
    (∃ e rest, s.queue = e :: rest ∧ e.wait = 0 ∧ p.rstN = true ∧ p.rspReady = true ∧
        restOfEdge p s =
          { s with queue := rest.map Entry.age, received := s.received ++ [e.rsp], tick := s.tick + 1 }) ∨
      ((s.rspValid p.rstN && p.rspReady) = false ∧ restOfEdge p s = s.passEdge) := by
  unfold restOfEdge
  rw [Bool.and_comm]
  cases h : s.rspValid p.rstN && p.rspReady with
  | false => exact .inr ⟨rfl, by simp⟩
  | true =>
    obtain ⟨hv, hr⟩ := Bool.and_eq_true_iff.mp h
    obtain ⟨hrst, e, rest, hq, hw⟩ := (s.rspValid_iff p.rstN).mp hv
    refine .inl ⟨e, rest, hq, hw, hrst, hr, ?_⟩
    simp [State.takeHead, hq, State.passEdge]

@[simp] theorem restOfEdge_params (p : Pins) (s : State) : (restOfEdge p s).params = s.params := by
  unfold restOfEdge; split <;> simp

@[simp] theorem restOfEdge_mem (p : Pins) (s : State) : (restOfEdge p s).mem = s.mem := by
  unfold restOfEdge; split <;> simp

@[simp] theorem restOfEdge_moves (p : Pins) (s : State) : (restOfEdge p s).moves = s.moves := by
  unfold restOfEdge; split <;> simp

@[simp] theorem restOfEdge_tick (p : Pins) (s : State) : (restOfEdge p s).tick = s.tick + 1 := by
  unfold restOfEdge; split <;> simp

/-- A request is accepted exactly at an edge with `rst_n`, `req_valid` and `req_ready` high (30_encoding.md R73). -/
theorem acceptedRequest_eq_some {p : Pins} {s : State} {r : Request} :
    acceptedRequest p s = some r ↔ p.reqValid = true ∧ p.rstN = true ∧ s.queue.length < s.params.depth ∧
      r = { op := p.reqOp, data := fitLanes s.params.lanes p.reqData } := by
  unfold acceptedRequest
  split
  · rename_i h
    simp only [Bool.and_eq_true, State.reqReady_iff] at h
    simp [h, eq_comm]
  · rename_i h
    simp only [Bool.and_eq_true, State.reqReady_iff] at h
    simp only [reduceCtorEq, false_iff]
    exact fun hh => h ⟨hh.1, hh.2.1, hh.2.2.1⟩

/-- Decoding a code that names an operation. -/
theorem decode_of_some {r : Request} {op : Op} (h : Op.ofCode? r.op = some op) :
    decode r = .ok (Instr.ofOp op r.data) := by simp [decode, h]

/-- Decoding a reserved code. -/
theorem decode_of_none {r : Request} (h : Op.ofCode? r.op = none) : decode r = .error (.reservedOpcode r.op) := by
  simp [decode, h]

/-- Only an operation's own code names it (30_encoding.md R63). -/
theorem Op.code_of_ofCode? {c : OpCode} {op : Op} (h : Op.ofCode? c = some op) : c = op.code := by
  revert h
  revert c op
  decide

/-- What one instruction does: it puts its response in the queue. -/
theorem exec_ofOp (op : Op) (d : DataVec) (s : State) :
    exec (Instr.ofOp op d) s = .next (s.answer op.code d (.ok ((Op.scalar op).lanes s.params.lanes d))) := by
  cases op <;> rfl

/-- Every instruction puts in the queue, for its own request, the response of the spec's pure function. -/
theorem exec_eq (i : Instr) (s : State) :
    exec i s = .next (s.answer i.op.code i.data (respond s.params.lanes (encode i))) := by
  have hi : i = Instr.ofOp i.op i.data := by cases i <;> rfl
  have hc : Op.ofCode? i.op.code = some i.op := by cases i <;> rfl
  conv_lhs => rw [hi, exec_ofOp]
  simp only [respond, encode, hc]

/-- What accepting a request does: it puts the request, with the response the spec's pure function gives, in the
queue, reserved codes included. -/
theorem acceptRequest_eq (r : Request) (s : State) :
    acceptRequest r s = .next (s.answer r.op r.data (respond s.params.lanes r)) := by
  unfold acceptRequest respond
  cases h : Op.ofCode? r.op with
  | none => rw [decode_of_none h]; rfl
  | some op => rw [decode_of_some h]; simp only [exec_ofOp, ← Op.code_of_ofCode? h]

/-- Every edge has a next state, one of three. -/
theorem edge_cases (p : Pins) (s : State) :
    (p.rstN = false ∧ edge p s = .next s.resetBlock) ∨
      (p.rstN = true ∧ acceptedRequest p s = none ∧ edge p s = .next (restOfEdge p s)) ∨
      (p.rstN = true ∧ ∃ r, acceptedRequest p s = some r ∧
        edge p s = .next ((restOfEdge p s).answer r.op r.data (respond s.params.lanes r))) := by
  unfold edge
  cases hr : p.rstN with
  | false => exact .inl ⟨rfl, rfl⟩
  | true =>
    cases ha : acceptedRequest p s with
    | none => exact .inr (.inl ⟨rfl, rfl, rfl⟩)
    | some r => exact .inr (.inr ⟨rfl, r, rfl, by simp [acceptRequest_eq]⟩)

/-- What one round of a batch does (42_lanes_and_batch.md R153). -/
theorem batchRound_eq (b : Batch) (j : Nat) (s : State) :
    batchRound b j s = .next { s with
      queue := []
      received := s.received ++ s.queue.map Entry.rsp ++
        [respond s.params.lanes { op := b.op.code, data := roundOperand s.params.lanes b s.mem j }]
      mem := storeRound s.params.lanes b j
        ((Op.scalar b.op).lanes s.params.lanes (roundOperand s.params.lanes b s.mem j)) s.mem
      tick := s.tick + 1 } := by
  have hc : Op.ofCode? b.op.code = some b.op := by cases b.op <;> rfl
  simp only [batchRound, exec_ofOp, finishRound, respond, hc]
  rfl

end Sys2Proof.Machine
end

