-- ==== Sys2Proof/Laws/PerInstr.lean ====
section
/-! SUPPORT. A family of facts about every instruction as syntax: the fields of its operation code obey the table of
30_encoding.md R62, and name the direction its format has. -/

namespace Sys2Proof.Laws.OpcodeFields

/-- A code names an operation exactly when its fields are ones 30_encoding.md R62 defines. -/
theorem ofCode_isSome_iff (c : OpCode) : (Op.ofCode? c).isSome = fieldsDefined c := by
  revert c
  decide

/-- The operation code of `i` has bit 3 clear, `ALT` only beside `FMT = 1` and `DIR = 0`, and `DIR` says whether `i`
decodes (30_encoding.md R62). -/
def Statement (i : Instr) : Prop :=
  (encode i).op.getLsbD 3 = false ∧
    (fieldAlt (encode i).op = true → fieldFmt (encode i).op = true ∧ fieldDir (encode i).op = false) ∧
    (fieldDir (encode i).op = true ↔ i.op.format = .dec)

theorem f16Enc (data : DataVec) : Statement (.f16Enc data) := by simp [Statement, encode, Instr.op]; decide

theorem f16Dec (data : DataVec) : Statement (.f16Dec data) := by simp [Statement, encode, Instr.op]; decide

theorem bf16Enc (data : DataVec) : Statement (.bf16Enc data) := by simp [Statement, encode, Instr.op]; decide

theorem bf16Dec (data : DataVec) : Statement (.bf16Dec data) := by simp [Statement, encode, Instr.op]; decide

theorem bf16EncRne (data : DataVec) : Statement (.bf16EncRne data) := by simp [Statement, encode, Instr.op]; decide

end Sys2Proof.Laws.OpcodeFields
end

