-- ==== Sys2Proof/Laws/Rounds.lean ====
section
/-! SUPPORT. What the host's moves on rounds in hand can do, each said once: start, load, ask, write, and the loss of what
is in flight. -/

namespace Sys2Proof.Machine

/-- A packed operand has the block's width. -/
@[simp] theorem fits_packOperand (L : LaneCount) (op : Op) (f : Nat → Nat) :
    DataVec.fits L (packOperand L op f) = true := by
  unfold packOperand; cases op.format <;> simp

/-- A round's request passes the port unchanged. -/
@[simp] theorem fitLanes_request (L : LaneCount) (r : Round) : fitLanes L (r.request L).data = (r.request L).data :=
  fitLanes_of_fits (fits_packOperand ..)

/-- The request depends on the operation and the lanes read alone. -/
theorem Round.request_congr {L : LaneCount} {r q : Round} (hb : q.batch = r.batch) (hl : q.loaded = r.loaded) :
    q.request L = r.request L := by
  simp [Round.request, Round.operand, hb, hl]

/-- A round with every real lane read from memory offers the request R153 gives it. -/
theorem Round.operand_eq {L : LaneCount} {m : Memory} {r : Round}
    (h : ∀ i, r.loaded.lookup i = if i < r.cnt L then some (sourceElement r.batch m (r.element L i)) else none) :
    r.operand L = roundOperand L r.batch m r.j := by
  unfold Round.operand roundOperand
  congr 1
  funext i
  rw [h i]
  unfold Round.cnt Round.element
  split <;> rfl

/-- Starting a batch puts its rounds in hand; one with overlapping ranges is refused. -/
theorem startBatch_cases (b : Batch) (s : State) :
    (batchDisjoint b = true ∧ startBatch b s = .next { s with rounds := s.rounds ++ freshRounds s.params.lanes b }) ∨
      (batchDisjoint b = false ∧ startBatch b s = .refused .batchOverlap) := by
  unfold startBatch
  cases h : batchDisjoint b <;> simp

/-- Reading a lane does nothing, or reads a real lane, for the first time and before the request is accepted. -/
theorem Round.load_cases (L : LaneCount) (m : Memory) (i : Nat) (r : Round) :
    r.load L m i = r ∨
      (i < r.cnt L ∧ r.ticket = none ∧ r.loaded.lookup i = none ∧
        r.load L m i = { r with loaded := (i, sourceElement r.batch m (r.element L i)) :: r.loaded }) := by
  unfold Round.load
  split
  · rename_i h; exact .inr ⟨h.1, h.2.1, h.2.2, rfl⟩
  · exact .inl rfl

@[simp] theorem Round.load_batch (L : LaneCount) (m : Memory) (i : Nat) (r : Round) : (r.load L m i).batch = r.batch := by
  rcases r.load_cases L m i with h | ⟨-, -, -, h⟩ <;> rw [h]

@[simp] theorem Round.load_j (L : LaneCount) (m : Memory) (i : Nat) (r : Round) : (r.load L m i).j = r.j := by
  rcases r.load_cases L m i with h | ⟨-, -, -, h⟩ <;> rw [h]

@[simp] theorem Round.load_ticket (L : LaneCount) (m : Memory) (i : Nat) (r : Round) :
    (r.load L m i).ticket = r.ticket := by
  rcases r.load_cases L m i with h | ⟨-, -, -, h⟩ <;> rw [h]

@[simp] theorem Round.load_written (L : LaneCount) (m : Memory) (i : Nat) (r : Round) :
    (r.load L m i).written = r.written := by
  rcases r.load_cases L m i with h | ⟨-, -, -, h⟩ <;> rw [h]

/-- After acceptance nothing is read any more. -/
theorem Round.load_of_ticket {L : LaneCount} {m : Memory} {i n : Nat} {r : Round} (h : r.ticket = some n) :
    r.load L m i = r := by
  simp [Round.load, h]

/-- A result lane may be stored exactly when it is a real lane, not stored yet, of a response that is taken. -/
theorem State.toWrite_eq_some {k i v : Nat} {s : State} {r : Round} :
    s.toWrite k i = some (r, v) ↔ s.rounds[k]? = some r ∧ i < r.cnt s.params.lanes ∧ i ∉ r.written ∧
      ∃ n q, r.ticket = some n ∧ s.received[n]? = some q ∧ v = resultLane r.batch.op q.data i := by
  unfold State.toWrite
  cases hr : s.rounds[k]? with
  | none => simp
  | some r' =>
    cases ht : r'.ticket with
    | none =>
      simp only [Round.response, ht, Option.bind_none, reduceCtorEq, Option.some.injEq, false_iff]
      rintro ⟨rfl, -, -, n, q, h, -⟩
      simp [ht] at h
    | some n =>
      cases hq : s.received[n]? with
      | none =>
        simp only [Round.response, ht, Option.bind_some, hq, reduceCtorEq, Option.some.injEq, false_iff]
        rintro ⟨rfl, -, -, n', q, h, h', -⟩
        rw [ht, Option.some.injEq] at h
        simp [← h, hq] at h'
      | some q =>
        simp only [Round.response, ht, Option.bind_some, hq]
        constructor
        · intro h
          split at h
          · rename_i hc
            simp only [Option.some.injEq, Prod.mk.injEq] at h
            obtain ⟨rfl, rfl⟩ := h
            exact ⟨rfl, hc.1, hc.2, n, q, ht, hq, rfl⟩
          · cases h
        · rintro ⟨h, hi, hw, n', q', hn, hq', rfl⟩
          rw [Option.some.injEq] at h
          subst h
          rw [ht, Option.some.injEq] at hn
          subst hn
          rw [hq, Option.some.injEq] at hq'
          subst hq'
          rw [if_pos ⟨hi, hw⟩]

/-- Storing a lane does nothing, or stores one result lane and notes it. -/
theorem State.writeLane_cases (k i : Nat) (s : State) :
    s.writeLane k i = s ∨
      ∃ r v, s.toWrite k i = some (r, v) ∧ s.writeLane k i =
        { s with
          mem := storeElement r.batch s.mem (r.element s.params.lanes i) v
          rounds := s.rounds.set k { r with written := i :: r.written } } := by
  unfold State.writeLane
  cases h : s.toWrite k i with
  | none => exact .inl rfl
  | some p => exact .inr ⟨p.1, p.2, rfl, rfl⟩

@[simp] theorem State.writeLane_params (s : State) (k i : Nat) : (s.writeLane k i).params = s.params := by
  rcases s.writeLane_cases k i with h | ⟨r, v, -, h⟩ <;> rw [h]

@[simp] theorem State.writeLane_queue (s : State) (k i : Nat) : (s.writeLane k i).queue = s.queue := by
  rcases s.writeLane_cases k i with h | ⟨r, v, -, h⟩ <;> rw [h]

@[simp] theorem State.writeLane_received (s : State) (k i : Nat) : (s.writeLane k i).received = s.received := by
  rcases s.writeLane_cases k i with h | ⟨r, v, -, h⟩ <;> rw [h]

@[simp] theorem State.writeLane_moves (s : State) (k i : Nat) : (s.writeLane k i).moves = s.moves := by
  rcases s.writeLane_cases k i with h | ⟨r, v, -, h⟩ <;> rw [h]

@[simp] theorem State.writeLane_tick (s : State) (k i : Nat) : (s.writeLane k i).tick = s.tick := by
  rcases s.writeLane_cases k i with h | ⟨r, v, -, h⟩ <;> rw [h]

/-- A round offers its own request, before it is accepted and with every real lane read. -/
theorem State.toAsk_eq_some {k : Nat} {s : State} {q : Request} :
    s.toAsk k = some q ↔ ∃ r, s.rounds[k]? = some r ∧ r.ticket = none ∧ r.ready s.params.lanes = true ∧
      q = r.request s.params.lanes := by
  unfold State.toAsk
  cases s.rounds[k]? with
  | none => simp
  | some r =>
    simp only [Option.some.injEq, exists_eq_left']
    split
    · rename_i h; simp [h.1, h.2, eq_comm]
    · rename_i h
      simp only [reduceCtorEq, false_iff]
      exact fun h' => h ⟨h'.1, h'.2.1⟩

/-- An edge that offers nothing accepts nothing. -/
theorem acceptedRequest_of_reqValid_false {p : Pins} {s : State} (h : p.reqValid = false) : acceptedRequest p s = none := by
  simp [acceptedRequest, h]

/-- What an `ask` move does: an edge that accepts nothing, or one that accepts the request of the round, which the round
then counts on. -/
theorem askRound_cases (k : Nat) (rdy : Bool) (s : State) :
    (acceptedRequest (askPins k rdy s) s = none ∧ askRound k rdy s = .next (restOfEdge (askPins k rdy s) s)) ∨
      ∃ r, s.rounds[k]? = some r ∧ r.ticket = none ∧ r.ready s.params.lanes = true ∧ s.queue.length < s.params.depth ∧
        acceptedRequest (askPins k rdy s) s = some (r.request s.params.lanes) ∧
        askRound k rdy s = .next ((((restOfEdge (askPins k rdy s) s).answer r.batch.op.code (r.operand s.params.lanes)
          (respond s.params.lanes (r.request s.params.lanes)))).noteTicket k s.nextTicket) := by
  have hrst : (askPins k rdy s).rstN = true := by unfold askPins; split <;> rfl
  unfold askRound
  rcases edge_cases (askPins k rdy s) s with ⟨h, -⟩ | ⟨-, ha, he⟩ | ⟨-, r, ha, he⟩
  · simp [hrst] at h
  · exact .inl ⟨ha, by simp [he, ha]⟩
  · obtain ⟨hv, -, hq, hr⟩ := acceptedRequest_eq_some.mp ha
    cases hk : s.toAsk k with
    | none => simp [askPins, hk, Pins.idle] at hv
    | some q =>
      obtain ⟨rd, h1, h2, h3, rfl⟩ := State.toAsk_eq_some.mp hk
      have hr' : r = rd.request s.params.lanes := by
        rw [hr]
        simp only [askPins, hk, offerPins, fitLanes_request]
      refine .inr ⟨rd, h1, h2, h3, hq, hr' ▸ ha, ?_⟩
      simp [he, ha, hr', Round.request]

end Sys2Proof.Machine
end

