-- ==== Sys2Proof/Tests/Slice0.lean ====
section
/-! SUPPORT. Small tests, each on one decode, one scalar, one exec or one step, with expected values from `spec/`
(95_test_vectors.md unless another file is named); and for each statement with hypotheses a witness that meets them. -/

namespace Sys2Proof.Tests

open Sys2Proof.Machine Sys2Proof.Safety Sys2Proof.Claims

/-- A one-lane block with nothing in flight. -/
def tiny (moves : List HostMove) : State :=
  { params := { lanes := .one, lat := 0, depth := 2 }, queue := [], received := [], mem := [], rounds := [], moves := moves, tick := 0 }

/-- An entry of a one-lane block for `f16.enc 0x3F800000`. -/
def entryOne (wait : Nat) : Entry :=
  { op := 0x0, operand := [0x3F800000], rsp := { err := false, data := [0x00003C00] }, wait := wait }

/-- `tiny` with entries in flight. -/
def busy (q : List Entry) (moves : List HostMove) : State := { tiny moves with queue := q }

/-- Pins that offer a request and take what is offered. -/
def offer (op : OpCode) (d : DataVec) : Pins :=
  { rstN := true, reqValid := true, reqOp := op, reqData := d, rspReady := true }

/-- The response the last entry of an outcome holds. -/
def lastRsp (o : Outcome) : Option Response :=
  match o with
  | .next t => t.queue.getLast?.map Entry.rsp
  | _ => none

/-- A field of an outcome's next state. -/
def nextIs (o : Outcome) (f : State → Bool) : Bool :=
  match o with
  | .next t => f t
  | _ => false

/-! ### WellFormed: an ill-formed term for each check -/

theorem smoke_f16Enc_width : Instr.wf .one (.f16Enc [0x3F800000, 0x3F800000]) = false := by decide
theorem smoke_f16Dec_width : Instr.wf .eight (.f16Dec [0x00003C00]) = false := by decide
theorem smoke_bf16Enc_width : Instr.wf .one (.bf16Enc []) = false := by decide
theorem smoke_bf16Dec_width : Instr.wf .sixteen (.bf16Dec [0, 0, 0, 0, 0, 0, 0, 0]) = false := by decide
theorem smoke_bf16EncRne_width : Instr.wf .one (.bf16EncRne [0, 0]) = false := by decide
theorem smoke_depth : Params.wf { lanes := .one, lat := 0, depth := 0 } = false := by decide
theorem smoke_word_too_wide : decodeWord .one 0x100000000000 = .error .wordTooWide := by decide

/-! ### Decode: request words written out bit by bit from 30_encoding.md R60, R63, the operand 1.0 -/

theorem decode_f16Enc_bits : decodeWord .one 0b000000111111100000000000000000000000 = .ok (.f16Enc [0x3F800000]) := by
  decide
theorem decode_f16Dec_bits : decodeWord .one 0b000100000000000000000011110000000000 = .ok (.f16Dec [0x00003C00]) := by
  decide
theorem decode_bf16Enc_bits : decodeWord .one 0b001000111111100000000000000000000000 = .ok (.bf16Enc [0x3F800000]) := by
  decide
theorem decode_bf16Dec_bits : decodeWord .one 0b001100000000000000000011111110000000 = .ok (.bf16Dec [0x00003F80]) := by
  decide
theorem decode_bf16EncRne_bits :
    decodeWord .one 0b011000111111100000000000000000000000 = .ok (.bf16EncRne [0x3F800000]) := by decide
theorem decode_reserved_bits :
    decodeWord .one 0b010000111111100000000000000000000000 = .error (.reservedOpcode 0x4) := by decide
theorem decode_table_rows :
    decodeTableWord 8 0x00 = some (.f16Enc [0, 0, 0, 0, 0, 0, 0, 0]) ∧
    decodeTableWord 8 0x01 = some (.f16Dec [0, 0, 0, 0, 0, 0, 0, 0]) ∧
    decodeTableWord 8 0x02 = some (.bf16Enc [0, 0, 0, 0, 0, 0, 0, 0]) ∧
    decodeTableWord 8 0x03 = some (.bf16Dec [0, 0, 0, 0, 0, 0, 0, 0]) ∧
    decodeTableWord 8 0x06 = some (.bf16EncRne [0, 0, 0, 0, 0, 0, 0, 0]) ∧ decodeTableWord 8 0x04 = none := by decide

/-! ### Instructions: expected results from tables V2 to V6 and requests T3, T4 -/

theorem test_f16Enc_tie_to_even :
    lastRsp (execF16Enc [0x3F801000] (tiny [])) = some { err := false, data := [0x00003C00] } := by decide
theorem test_f16Enc_subnormal_carry_and_nan :
    f16enc 0x387FE000 = 0x0400 ∧ f16enc 0xFF800001 = 0xFE00 ∧ f16enc 0x33000000 = 0x0000 := by decide
theorem test_f16Dec_ignores_high_half :
    lastRsp (execF16Dec [0xFFFF3C00] (tiny [])) = some { err := false, data := [0x3F800000] } := by decide
theorem test_f16Dec_subnormal_and_nan : f16dec 0x0155 = 0x37AA8000 ∧ f16dec 0xFC01 = 0xFFC02000 := by decide
theorem test_bf16Enc_truncates :
    lastRsp (execBf16Enc [0x3F80FFFF] (tiny [])) = some { err := false, data := [0x00003F80] } := by decide
theorem test_bf16Enc_nan_to_infinity : bf16enc 0xFF80FFFF = 0xFF80 := by decide
theorem test_bf16Dec_high_half :
    lastRsp (execBf16Dec [0x00004049] (tiny [])) = some { err := false, data := [0x40490000] } := by decide
theorem test_bf16Dec_keeps_signalling : bf16dec 0x7FA0 = 0x7FA00000 := by decide
theorem test_bf16EncRne_rounds_up :
    lastRsp (execBf16EncRne [0x3F80FFFF] (tiny [])) = some { err := false, data := [0x00003F81] } := by decide
theorem test_bf16EncRne_nan_does_not_carry : bf16encr 0x7FFFFFFF = 0x7FFF ∧ bf16encr 0x7F808000 = 0x7FC0 := by decide

/-! ### The interface, the batch, the assembler -/

theorem test_reserved_is_answered :
    lastRsp (step (tiny [.drive (offer 0x4 [0x3F800000])])) = some { err := true, data := [0x00000000] } := by decide
theorem test_full_queue_is_not_ready :
    nextIs (step (busy [entryOne 1, entryOne 1] [.drive (offer 0x0 [0])])) (fun t => t.queue.length == 2) = true := by
  decide
theorem test_finished_head_is_taken :
    nextIs (step (busy [entryOne 0, entryOne 3] [])) (fun t => t.received == [(entryOne 0).rsp] && t.queue == [entryOne 2]) =
      true := by decide
theorem test_reset_empties :
    nextIs (step (busy [entryOne 0] [.drive { offer 0x0 [0] with rstN := false }]))
      (fun t => t.queue == [] && t.received == []) = true := by decide
theorem test_batch_bytes :
    nextIs (step { tiny [.batch { op := .f16Enc, dst := 0x10, src := 0, n := 1 }] with mem := memWrite [] 0 4 0x40490FDB })
      (fun t => t.mem == [(0, 0xDB), (1, 0x0F), (2, 0x49), (3, 0x40), (0x10, 0x48), (0x11, 0x42)]) = true := by decide
/-- The one round of a one-element batch, with its lane read. -/
def roundOne (ticket : Option Nat) : Round :=
  { Round.fresh ⟨.f16Enc, 0x10, 0, 1⟩ 0 with loaded := [(0, 0x40490FDB)], ticket := ticket }
theorem test_load_reads_its_lane :
    nextIs (step { tiny [.load 0 0] with mem := memWrite [] 0 4 0x40490FDB, rounds := [Round.fresh ⟨.f16Enc, 0x10, 0, 1⟩ 0] })
      (fun t => t.rounds == [roundOne none]) = true := by decide
theorem test_ask_counts_the_response :
    nextIs (step { busy [entryOne 1] [.ask 0 false] with rounds := [roundOne none], received := [⟨false, [0]⟩] })
      (fun t => t.rounds == [roundOne (some 2)] && t.queue.map Entry.operand == [[0x3F800000], [0x40490FDB]]) = true := by
  decide
theorem test_write_stores_its_lane :
    nextIs (step { tiny [.write 0 0] with rounds := [roundOne (some 1)], received := [⟨false, [0]⟩, ⟨false, [0x4248]⟩] })
      (fun t => t.mem == [(0x10, 0x48), (0x11, 0x42)] && t.rounds.all (Round.finished .one)) = true := by decide
theorem test_reset_loses_what_is_awaited :
    nextIs (step { busy [entryOne 1] [.drive { Pins.idle with rstN := false }] with
      rounds := [roundOne (some 0), roundOne (some 1)], received := [⟨false, [0]⟩] })
      (fun t => t.rounds == [roundOne (some 0), roundOne none]) = true := by decide
theorem test_fetch_word_runs :
    nextIs (step (State.reset.withFetchWord 8 0x06)) (fun t => t.queue.map Entry.op == [0x6]) = true := by decide

/-! ### Witnesses: a state and operands that meet the hypotheses of each statement, clause by clause -/

theorem witness_DecodeOfEncodeIsIdentity :
    Instr.wf .one (.bf16EncRne [0xFFFFFFFF]) = true ∧ Instr.wf .eight (.f16Dec [1, 2, 3, 4, 5, 6, 7, 8]) = true := by decide
theorem witness_DecodedWordEncodesBack : decodeWord .one 0x6FFFFFFFF = .ok (.bf16EncRne [0xFFFFFFFF]) := by decide
theorem witness_LaneBitsOfVectors :
    Op.format .f16Dec = .dec ∧ narrowLane [0x00003C00] 0 = narrowLane [0xFFFF3C00] 0 ∧ Op.format .f16Enc = .enc ∧
      LaneCount.count .one ≤ 1 := by decide
theorem witness_TableWordRunsNext :
    decode (tableRequest (tiny []).params.lanes 8 0x03) = .ok (.bf16Dec [0]) ∧
      State.reset.params.lanes = Config.resetParams.lanes := by decide
theorem witness_StepRunsDecodedInstruction :
    (offer 0x0 [0x3F800000]).rstN = true ∧ (offer 0x0 [0x3F800000]).reqValid = true ∧
      (tiny []).queue.length < (tiny []).params.depth ∧
      decode { op := 0x0, data := fitLanes (tiny []).params.lanes [0x3F800000] } = .ok (.f16Enc [0x3F800000]) := by decide
theorem witness_ReservedRequestAnsweredWithError :
    (offer 0xF [0]).rstN = true ∧ (offer 0xF [0]).reqValid = true ∧ (tiny []).queue.length < (tiny []).params.depth ∧
      (0xF : OpCode) ∈ ([0x4, 0x5, 0x7, 0x8, 0x9, 0xA, 0xB, 0xC, 0xD, 0xE, 0xF] : List OpCode) := by decide
theorem witness_OnlyReservedCodesRaiseError : (respond .one ⟨0x4, [0x3F800000]⟩).err = true := by decide
theorem witness_StrictStepFaultsExactlyOnReserved :
    nextRequest (tiny [.drive (offer 0x4 [0])]) = some ⟨0x4, [0]⟩ ∧ decode ⟨0x4, [0]⟩ = .error (.reservedOpcode 0x4) ∧
      nextRequest (tiny [.drive (offer 0x0 [0])]) = some ⟨0x0, [0]⟩ ∧ decode ⟨0x0, [0]⟩ = .ok (.f16Enc [0]) := by decide
theorem witness_StepStopsOnlyOnOverlappingBatch :
    (tiny [.batch ⟨.f16Enc, 3, 0, 1⟩]).moves = [.batch ⟨.f16Enc, 3, 0, 1⟩] ∧ (0 ≤ 3 ∧ 3 < 0 + srcBytes .f16Enc * 1) ∧
      (3 ≤ 3 ∧ 3 < 3 + dstBytes .f16Enc * 1) ∧
      (tiny [.start ⟨.f16Enc, 3, 0, 1⟩]).moves = [.start ⟨.f16Enc, 3, 0, 1⟩] ∧
      (tiny [.round ⟨.f16Enc, 3, 0, 1⟩ 0]).moves = [.round ⟨.f16Enc, 3, 0, 1⟩ 0] := by decide
theorem witness_IdleHostTakesResponses :
    (busy [entryOne 0] []).moves = [] ∧ (busy [entryOne 0] []).rspValid true = true ∧
      (busy [entryOne 1] []).rspValid true = false := by decide
theorem witness_LanesAreIndependent :
    7 < LaneCount.count .eight ∧
      operandLane .f16Enc [1, 0, 0, 0, 0, 0, 0, 9] 7 = operandLane .f16Enc [2, 0, 0, 0, 0, 0, 0, 9] 7 := by decide
theorem witness_ResponseDependsOnRequestAlone :
    0 < (tiny []).params.lanes.count ∧ 0 < State.reset.params.lanes.count := by decide
theorem witness_RequestExecutesLanewise : 0 < (tiny []).params.lanes.count ∧ (tiny []).params.lanes.count ≤ 1 := by decide
theorem witness_CodeClassesByPattern : low15 0x7BFF < low15 0x7C00 ∧ low15 0x83FF < low15 0x0400 := by decide
theorem witness_F16EncResultClasses :
    (exp32 0x7F800001 = 255 ∧ man32 0x7F800001 ≠ 0) ∧ (exp32 0xFF800000 = 255 ∧ man32 0xFF800000 = 0) ∧
      exp32 0x47800000 = 143 ∧ exp32 0x7F7FFFFF = 254 ∧ exp32 0x38800000 = 113 ∧ exp32 0x477FFFFF = 142 ∧
      (exp32 0x477FEFFF = 142 ∧ man32 0x477FEFFF < 0x7FF000) ∧ (exp32 0x38FFF000 = 113 ∧ 0x7FF000 ≤ man32 0x38FFF000) ∧
      exp32 0x33000000 = 102 ∧ exp32 0x387FFFFF = 112 ∧ exp32 0x32FFFFFF = 101 ∧ exp32 0x00000001 = 0 := by decide
theorem witness_F16EncOverflowBoundary :
    class32 0x477FEFFF ≠ .nan ∧ low31 0x477FEFFF ≤ 0x477FEFFF ∧ class32 0xC77FF000 ≠ .nan ∧
      0x477FF000 ≤ low31 0xC77FF000 ∧ low31 0xC77FF000 = 0x477FF000 := by decide
theorem witness_F16EncUnderflowBoundary :
    low31 0xB2FFFFFF ≤ 0x32FFFFFF ∧ low31 0x33000000 = 0x33000000 ∧ 0x33000000 < low31 0x33000001 ∧
      low31 0x33800000 ≤ 0x33800000 ∧ class32 0x007FFFFF = .subnormal ∧ class32 0x80000000 = .zero := by decide
theorem witness_F16EncCanonicalisesNaN :
    class32 0x7F800001 = .nan ∧ class32 0xFFC00000 = .nan ∧ class32 0xFF800000 = .infinity := by decide
theorem witness_F16EncRoundsToNearestEven :
    class32 0x3F801000 ≠ .nan ∧ classF16 0x3C01 ≠ .nan ∧ magF16 0x3C01 ≠ magF16 (f16enc 0x3F801000) ∧
      gap (mag32 0x3F801000) (magF16 (f16enc 0x3F801000)) = gap (mag32 0x3F801000) (magF16 0x3C01) := by decide
theorem witness_F16EncCarryStaysInField : (113 ≤ 142 ∧ 142 ≤ 142 ∧ 0x7FF000 < 2 ^ 23) ∧ 112 ≤ 112 := by decide
theorem witness_F16EncMonotone :
    class32 0x33000000 ≠ .nan ∧ class32 0x33000001 ≠ .nan ∧ sign32 0x33000000 = sign32 0x33000001 ∧
      low31 0x33000000 ≤ low31 0x33000001 := by decide
theorem witness_TieRulesDifferOnlyOnEvenTies :
    exp32 0x38801000 = 113 ∧ exp32 0x477FD000 = 142 ∧ exp32 0x33000000 = 102 ∧ exp32 0x387FA000 = 112 ∧
      exp32 0x32FFFFFF = 101 ∧ exp32 0x47800000 = 143 := by decide
theorem witness_F16DecIsExact :
    classF16 0x7BFF ≠ .nan ∧ classF16 0x7BFF ≠ .infinity ∧ classF16 0xFC00 ≠ .nan ∧ classF16 0xFC00 = .infinity := by decide
theorem witness_F16DecFiniteFields :
    classF16 0x0400 = .normal ∧ classF16 0x7BFF = .normal ∧ classF16 0x0001 = .subnormal ∧
      (2 ^ 0 ≤ manF16 0x0001 ∧ manF16 0x0001 < 2 ^ (0 + 1)) ∧ classF16 0x03FF = .subnormal ∧
      (2 ^ 9 ≤ manF16 0x03FF ∧ manF16 0x03FF < 2 ^ (9 + 1)) := by decide
theorem witness_F16DecSpecialCodes :
    classF16 0x8000 = .zero ∧ classF16 0x7C00 = .infinity ∧ classF16 0x7C01 = .nan ∧ classF16 0xFFFF = .nan := by decide
theorem witness_F16RoundTrip : classF16 0x7C00 ≠ .nan ∧ classF16 0x7C01 = .nan := by decide
theorem witness_SmallIntegersSurviveF16 :
    2048 ≤ 2048 ∧ sign32 0x45000000 = 0 ∧ exp32 0x45000000 < 255 ∧ mag32 0x45000000 = 2048 * 2 ^ 149 := by decide
theorem witness_Bf16EncTruncates :
    (low31 0x8000FFFF ≠ 0 ∧ low31 0x8000FFFF < 2 ^ 16) ∧ (class32 0x00010000 = .subnormal ∧ 2 ^ 16 ≤ low31 0x00010000) ∧
      class32 0x7F7FFFFF = .normal ∧ (class32 0x7F810000 = .nan ∧ man32 0x7F810000 / 2 ^ 16 ≠ 0) ∧
      (class32 0x7F80FFFF = .nan ∧ man32 0x7F80FFFF / 2 ^ 16 = 0) := by decide
theorem witness_Bf16EncRneSumAndNaN :
    class32 0xFF7FFFFF ≠ .nan ∧ class32 0xFFFFFFFF = .nan ∧ class32 0xFF800000 = .infinity := by decide
theorem witness_Bf16EncRneRoundsToNearestEven :
    class32 0x7F7F8000 ≠ .nan ∧ classBF16 0x7F7F ≠ .nan ∧ magBF16 0x7F7F ≠ magBF16 (bf16encr 0x7F7F8000) ∧
      gap (mag32 0x7F7F8000) (magBF16 (bf16encr 0x7F7F8000)) = gap (mag32 0x7F7F8000) (magBF16 0x7F7F) := by decide
theorem witness_Bf16EncodersDiffer :
    (class32 0x3F808000 ≠ .nan ∧ (0x3F808000 : Word32).toNat % 2 ^ 16 = 0x8000 ∧ (0x3F808000 : Word32).getLsbD 16 = false) ∧
      (class32 0x3F818000 ≠ .nan ∧ ¬ ((0x3F818000 : Word32).toNat % 2 ^ 16 < 0x8000 ∨
        ((0x3F818000 : Word32).toNat % 2 ^ 16 = 0x8000 ∧ (0x3F818000 : Word32).getLsbD 16 = false))) ∧
      class32 0x7F800001 = .nan := by decide
theorem witness_ArraysAreLittleEndianAndPacked : Memory.wf [(0, 1), (5, 0xFF)] ∧ (0 : Nat) ≠ 1 := by decide
theorem witness_MixedWidthView : Memory.wf [(0, 1), (5, 0xFF)] := by decide
theorem witness_HostStoreWritesItsBytesOnly :
    (tiny [.store 7 4 0x40490FDB]).moves = [.store 7 4 0x40490FDB] ∧ Memory.wf (tiny []).mem := by decide
theorem witness_BatchWholeEffect :
    batchDisjoint ⟨.f16Enc, 0x10, 0, 4⟩ = true ∧ batchDisjoint ⟨.f16Dec, 0x10, 0, 8⟩ = true ∧ Memory.wf (tiny []).mem ∧
      0 < 4 := by decide
theorem witness_BatchDegenerateCases :
    (⟨.f16Enc, 0, 0, 0⟩ : Batch).n = 0 ∧ batchDisjoint ⟨.f16Enc, 3, 0, 1⟩ = false := by decide
theorem witness_BatchIndependentOfLanes :
    Memory.wf State.reset.mem ∧ State.reset.mem = (tiny []).mem ∧
      nextIs (execBatch ⟨.f16Enc, 0x10, 0, 1⟩ State.reset) (fun _ => true) = true ∧
      nextIs (execBatch ⟨.f16Enc, 0x10, 0, 1⟩ (tiny [])) (fun _ => true) = true := by decide
theorem witness_RoundsInAnyOrderGiveSameMemory :
    (∀ a, ¬ (inDst ⟨.f16Enc, 0x10, 0, 1⟩ a ∧ inDst ⟨.f16Dec, 0x30, 0x20, 1⟩ a)) ∧
      (∀ a, ¬ (inDst ⟨.f16Enc, 0x10, 0, 1⟩ a ∧ inSrc ⟨.f16Dec, 0x30, 0x20, 1⟩ a)) ∧
      (∀ a, ¬ (inSrc ⟨.f16Enc, 0x10, 0, 1⟩ a ∧ inDst ⟨.f16Dec, 0x30, 0x20, 1⟩ a)) ∧
      batchDisjoint ⟨.f16Enc, 0x10, 0, 1⟩ = true ∧ batchDisjoint ⟨.f16Dec, 0x30, 0x20, 1⟩ = true ∧
      [(⟨.f16Dec, 0x30, 0x20, 1⟩, 0), (⟨.f16Enc, 0x10, 0, 1⟩, 0)].Perm
        (roundsOf .one ⟨.f16Enc, 0x10, 0, 1⟩ ++ roundsOf .one ⟨.f16Dec, 0x30, 0x20, 1⟩) ∧
      nextIs (runRounds [(⟨.f16Dec, 0x30, 0x20, 1⟩, 0), (⟨.f16Enc, 0x10, 0, 1⟩, 0)] (tiny [])) (fun _ => true) = true ∧
      nextIs (execBatch ⟨.f16Enc, 0x10, 0, 1⟩ (tiny [])) (fun u =>
        nextIs (execBatch ⟨.f16Dec, 0x30, 0x20, 1⟩ u) (fun _ => true)) = true ∧ Memory.wf (tiny []).mem := by
  refine ⟨fun a => ?_, fun a => ?_, fun a => ?_, by decide, by decide, by decide, by decide, by decide, by decide⟩ <;>
    simp only [inDst, inSrc, dstBytes, srcBytes, Op.format] <;> omega
/-- Two one-element batches, their requests in flight at once. -/
def twoBatches : State :=
  { tiny [.start ⟨.f16Enc, 0x10, 0, 1⟩, .start ⟨.f16Dec, 0x30, 0x20, 1⟩, .load 1 0, .load 0 0, .ask 0 false, .ask 1 false,
      .await, .write 1 0, .write 0 0] with
    mem := memWrite (memWrite [] 0 4 0x40490FDB) 0x20 2 0x7C00 }
/-- Every hypothesis of the statement, for a run with both requests in flight at once. -/
theorem witness_ConcurrentBatchesGiveSameMemory :
    Memory.wf twoBatches.mem ∧ twoBatches.rounds = [] ∧ (∀ m ∈ twoBatches.moves, worksInHand m = true) ∧
      (startsOf twoBatches.moves).Pairwise Compatible ∧
      (startsOf twoBatches.moves).Perm [⟨.f16Dec, 0x30, 0x20, 1⟩, ⟨.f16Enc, 0x10, 0, 1⟩] ∧
      nextIs (Sys2Proof.core.run twoBatches.moves.length twoBatches) (fun t =>
        t.rounds.all (Round.finished twoBatches.params.lanes)) = true ∧
      (⟨.f16Enc, 0x10, 0, 1⟩ : Batch) ∈ startsOf twoBatches.moves ∧ 0 < (⟨.f16Enc, 0x10, 0, 1⟩ : Batch).n := by
  refine ⟨by decide, by decide, by decide, ?_, by decide, by decide, by decide, by decide⟩
  have h : startsOf twoBatches.moves = [⟨.f16Enc, 0x10, 0, 1⟩, ⟨.f16Dec, 0x30, 0x20, 1⟩] := rfl
  rw [h, List.pairwise_pair]
  refine ⟨fun a => ?_, fun a => ?_, fun a => ?_⟩ <;> simp only [inDst, inSrc, dstBytes, srcBytes, Op.format] <;> omega
/-- `twoBatches` with a reset while both requests are in flight; both are asked again. -/
def twoBatchesReset : State :=
  { twoBatches with moves := twoBatches.moves.take 6 ++ [.drive { Pins.idle with rstN := false }] ++
      [.ask 1 false, .ask 0 false, .await, .write 0 0, .write 1 0] }

/-- Every hypothesis of the statement, for a run with a reset in between (log 20). -/
theorem witness_ConcurrentBatchesWithReset :
    Memory.wf twoBatchesReset.mem ∧ twoBatchesReset.rounds = [] ∧ (∀ m ∈ twoBatchesReset.moves, worksInHand m = true) ∧
      startsOf twoBatchesReset.moves = startsOf twoBatches.moves ∧
      nextIs (Sys2Proof.core.run twoBatchesReset.moves.length twoBatchesReset) (fun t =>
        t.rounds.all (Round.finished twoBatchesReset.params.lanes)) = true := by decide
/-- The one round of a batch of three on a block of eight lanes, its lanes read and stored in mixed orders. -/
theorem witness_RoundInHandCompletes :
    ({ State.reset with rounds := [Round.fresh ⟨.f16Enc, 0x40, 0, 3⟩ 0] } : State).rounds[0]? =
        some (Round.fresh ⟨.f16Enc, 0x40, 0, 3⟩ 0) ∧ Memory.wf State.reset.mem ∧
      State.reset.queue.length < State.reset.params.depth ∧
      [2, 0, 1].Perm (List.range (roundCount State.reset.params.lanes ⟨.f16Enc, 0x40, 0, 3⟩ 0)) ∧
      [1, 2, 0].Perm (List.range (roundCount State.reset.params.lanes ⟨.f16Enc, 0x40, 0, 3⟩ 0)) ∧
      2 < State.reset.params.lanes.count ∧ 0 * State.reset.params.lanes.count + 2 < 3 := by decide
/-- A round ready to ask, with room in the queue and without, and one that is not ready. -/
theorem witness_RoundsCountTheirResponses :
    Round.ready .one { Round.fresh ⟨.f16Enc, 0x10, 0, 1⟩ 0 with loaded := [(0, 0)] } = true ∧
      (Round.fresh ⟨.f16Enc, 0x10, 0, 1⟩ 0).ticket = none ∧ (tiny []).queue.length < (tiny []).params.depth ∧
      (busy [entryOne 1, entryOne 1] []).params.depth ≤ (busy [entryOne 1, entryOne 1] []).queue.length ∧
      Round.ready .one (Round.fresh ⟨.f16Enc, 0x10, 0, 1⟩ 0) = false ∧ ({ Pins.idle with rstN := false } : Pins).rstN = false ∧
      [roundOne (some 0), roundOne (some 1)][1]? = some (roundOne (some 1)) := by decide
theorem witness_RoundStoresItsRealLanes :
    (tiny [.round ⟨.f16Enc, 0x10, 0, 4⟩ 3]).moves = [.round ⟨.f16Enc, 0x10, 0, 4⟩ 3] ∧
      batchDisjoint ⟨.f16Enc, 0x10, 0, 4⟩ = true ∧ 0 < (tiny []).params.lanes.count ∧
      3 * (tiny []).params.lanes.count + 0 < 4 ∧ Memory.wf (tiny []).mem ∧
      3 < batchRequests (tiny []).params.lanes 4 ∧ batchRequests (tiny []).params.lanes 4 ≤ 4 ∧
      batchRequests (tiny []).params.lanes 0 ≤ 0 := by decide
theorem witness_SeventeenElementScenario :
    batchDisjoint ⟨.f16Enc, 0x2000, 0x1000, 17⟩ = true ∧ batchDisjoint ⟨.f16Dec, 0x3000, 0x2000, 17⟩ = true ∧
      Memory.wf State.reset.mem ∧ State.reset.queue = [] := by decide
theorem witness_ResponsesInRequestOrder :
    nextRequest (busy [entryOne 0] [.drive (offer 0x0 [0])]) = some ⟨0x0, [0]⟩ ∧ (offer 0x0 [0]).rstN = true ∧
      ({ offer 0x0 [0] with rstN := false } : Pins).rstN = false := by decide
theorem witness_OfferedResponseIsStable :
    (busy [entryOne 0] []).rspValid true = true ∧ (offerPins ⟨0x0, [0]⟩ false).rstN = true ∧
      (offerPins ⟨0x0, [0]⟩ false).rspReady = false ∧ (offer 0x0 [0]).rspReady = true := by decide
theorem witness_EdgeFrame :
    ((busy [entryOne 1] []).rspValid true && (offer 0x0 [0]).rspReady) = false ∧ (offer 0x0 [0]).rspReady = true ∧
      ((busy [entryOne 0] []).rspValid true && (offerPins ⟨0x0, [0]⟩ false).rspReady) = false ∧
      ((busy [entryOne 0] []).rspValid true && (offer 0x0 [0]).rspReady) = true ∧ (offer 0x0 [0]).rstN = true ∧
      (busy [entryOne 0, entryOne 0] []).reqReady true = false ∧ Pins.idle.reqValid = false := by decide
theorem witness_ResetEmptiesTheQueue :
    ({ offer 0x0 [0] with rstN := false } : Pins).rstN = false ∧ (tiny []).params.wf = true := by decide
theorem witness_TimingIndependentOfData :
    timingView (tiny [.drive (offer 0x0 [0x7FC00000])]) = timingView (tiny [.drive (offer 0x0 [0x00000001])]) ∧
      nextIs (step (tiny [.drive (offer 0x0 [0x7FC00000])])) (fun _ => true) = true := by decide
theorem witness_RequestsAreAnsweredInFiniteTime :
    ((busy [entryOne 2] [.drive (offer 0x0 [0])]).queue.map (fun e => e.wait + 1)).sum ≤ 3 ∧
      ∀ m ∈ (busy [entryOne 2] [.drive (offer 0x0 [0])]).moves.take 3, keepsTaking m = true := by decide
/-- The same with as many moves as steps, so that no idle pins (log 2) do the taking. -/
theorem witness_RequestsAreAnsweredByMovesAlone :
    ((busy [entryOne 2] (List.replicate 3 (.drive (offer 0x0 [0])))).queue.map (fun e => e.wait + 1)).sum ≤ 3 ∧
      (busy [entryOne 2] (List.replicate 3 (.drive (offer 0x0 [0])))).moves.length = 3 ∧
      ∀ m ∈ (busy [entryOne 2] (List.replicate 3 (.drive (offer 0x0 [0])))).moves.take 3, keepsTaking m = true := by decide
theorem witness_StepKeepsInvariant :
    MachineInv (busy [entryOne 1] [.drive (offer 0x0 [0])]) ∧
      nextIs (step (busy [entryOne 1] [.drive (offer 0x0 [0])])) (fun _ => true) = true := by decide
theorem witness_ParametersAreConstant : nextIs (step State.reset) (fun _ => true) = true := by decide

end Sys2Proof.Tests
end

/-! PROOFS. The statement of 00_scope.md: a response depends on its request alone (R9). -/

namespace Sys2Proof.Machine

open Sys2Proof.Claims

/-- The scalar function of `op` on operand lane `k` of `v`, as a number: no argument is a lane count or a state
(00_scope.md R9). -/
def Op.scalarLane (op : Op) (v : DataVec) (k : Nat) : Nat :=
  match Op.scalar op with
  | .narrowing f => (f (wideLane v k)).toNat
  | .widening f => (f (narrowLane v k)).toNat

/-- The response to an operation's own code. -/
theorem respond_code (L : LaneCount) (op : Op) (v : DataVec) :
    respond L { op := op.code, data := v } = .ok ((Op.scalar op).lanes L v) := by
  cases op <;> rfl

/-- Each of the block's result lanes is the scalar function of the operand lane of the same number, however many lanes
the block has (30_encoding.md R66). -/
theorem laneOf_respond_code {L : LaneCount} {k : Nat} (op : Op) (v : DataVec) (hk : k < L.count) :
    laneOf op (respond L { op := op.code, data := v }) k = Op.scalarLane op v k := by
  rw [respond_code]
  cases op with
  | f16Enc | bf16Enc | bf16EncRne =>
    exact congrArg BitVec.toNat ((narrowLane_encLanes ..).trans (if_pos hk))
  | f16Dec | bf16Dec =>
    exact congrArg BitVec.toNat ((wideLane_decLanes ..).trans (if_pos hk))

/-- An instruction completes by adding one entry, which holds the response of the spec's pure function. -/
theorem exec_adds_response (i : Instr) (s : State) :
    ∃ t e, exec i s = .next t ∧ t.queue = s.queue ++ [e] ∧ e.rsp = respond s.params.lanes (encode i) :=
  ⟨_, _, exec_eq i s, State.answer_queue .., rfl⟩

/-- Settles O16: both entries hold the pure function's response, whose lanes are scalar functions of the operand lanes
and which takes nothing from the state but the lane count. -/
theorem responseDependsOnRequestAlone : Obligations.ResponseDependsOnRequestAlone := by
  intro i s s'
  obtain ⟨t, e, ht, hq, he⟩ := exec_adds_response i s
  obtain ⟨t', e', ht', hq', he'⟩ := exec_adds_response i s'
  refine ⟨t, t', e, e', ht, ht', hq, hq', ?_, fun k hk hk' => ?_, fun hL => ?_⟩
  · rw [he, he', encode, respond_code, respond_code, Response.ok, Response.ok]
  · rw [he, he', encode, laneOf_respond_code _ _ hk, laneOf_respond_code _ _ hk']
  · rw [he, he', hL]

end Sys2Proof.Machine

/-! PROOFS. The statements of 20_memory.md: arrays in host memory (R41 to R44) and responses in request order (R50). -/

namespace Sys2Proof.Machine

open Sys2Proof.Safety Sys2Proof.Claims

/-! ### What a read returns after a write -/

section Reads
variable {m : Memory} (h : Memory.wf m)
include h

/-- Byte `k` of what was stored at `a`. -/
theorem readByte_memWrite_inside {n k : Nat} (a v : Nat) (hk : k < n) :
    Memory.readByte (memWrite m a n v) (a + k) = BitVec.ofNat 8 (v / 256 ^ k) := by
  rw [readByte_memWrite h, if_pos (by omega), Nat.add_sub_cancel_left]

/-- A stored value is little-endian: byte `k` holds the eight bits from `8 * k` on (20_memory.md R41). -/
theorem readByte_memWrite_toNat {w n k : Nat} (a : Nat) (v : BitVec w) (hk : k < n) :
    Memory.readByte (memWrite m a n v.toNat) (a + k) = v.extractLsb' (8 * k) 8 := by
  rw [readByte_memWrite_inside h a _ hk, BitVec.extractLsb', Nat.shiftRight_eq_div_pow, Nat.pow_mul]

/-- A read inside a stored value returns the value's own bytes, lowest first (20_memory.md R42). -/
theorem memRead_memWrite_inside {n k l : Nat} (a v : Nat) (hl : k + l ≤ n) :
    memRead (memWrite m a n v) (a + k) l = v / 256 ^ k % 256 ^ l := by
  induction l generalizing k with
  | zero => rw [memRead, Nat.pow_zero, Nat.mod_one]
  | succ l ih =>
    have hrest : memRead (memWrite m a n v) (a + k + 1) l = v / 256 ^ k / 256 % 256 ^ l := by
      rw [Nat.add_assoc, ih (by omega), Nat.pow_succ, Nat.div_div_eq_div_mul]
    rw [memRead, readByte_memWrite_inside h a v (by omega), hrest, BitVec.toNat_ofNat, Nat.pow_succ' (m := 256),
      Nat.mod_mul]

/-- A write leaves every read that shares no byte with it. -/
theorem memRead_memWrite_of_disjoint {a n b l : Nat} (v : Nat) (hd : b + l ≤ a ∨ a + n ≤ b) :
    memRead (memWrite m a n v) b l = memRead m b l :=
  memRead_congr fun c hc hc' => by rw [readByte_memWrite h, if_neg (by omega)]

/-- Elements of `w` bytes at stride `w` share no byte, so a write of one leaves the others (20_memory.md R43). -/
theorem memRead_memWrite_element_ne {w i j : Nat} (a v : Nat) (hij : j ≠ i) :
    memRead (memWrite m (a + w * i) w v) (a + w * j) w = memRead m (a + w * j) w := by
  refine memRead_memWrite_of_disjoint h v ?_
  rcases Nat.lt_or_gt_of_ne hij with hlt | hgt
  · have : w * (j + 1) ≤ w * i := Nat.mul_le_mul_left w hlt
    rw [Nat.mul_succ] at this
    omega
  · have : w * (i + 1) ≤ w * j := Nat.mul_le_mul_left w hgt
    rw [Nat.mul_succ] at this
    omega

/-- A code read inside a stored value is the sixteen bits of it at that place (20_memory.md R44). -/
theorem codeAt_memWrite_inside {w n k : Nat} (a : Nat) (v : BitVec w) (hk : k + 2 ≤ n) :
    codeAt (memWrite m a n v.toNat) (a + k) 0 = v.extractLsb' (8 * k) 16 := by
  have hread : memRead (memWrite m a n v.toNat) (a + k + 2 * 0) 2 = v.toNat / 256 ^ k % 2 ^ 16 :=
    memRead_memWrite_inside h a v.toNat hk
  apply BitVec.eq_of_toNat_eq
  rw [codeAt, hread, BitVec.toNat_ofNat, Nat.mod_mod, BitVec.extractLsb'_toNat, Nat.shiftRight_eq_div_pow, Nat.pow_mul]

/-- A stored array element of codes reads back. -/
theorem codeAt_memWrite_self (a i : Nat) (c : Code) : codeAt (memWrite m (a + 2 * i) 2 c.toNat) a i = c := by
  have hc : c.toNat < 256 ^ 2 := c.isLt
  rw [codeAt, memRead_memWrite_self h, Nat.mod_eq_of_lt hc, BitVec.ofNat_toNat, BitVec.setWidth_eq]

/-- A stored array element of binary32 values reads back. -/
theorem wordAt_memWrite_self (a i : Nat) (v : Word32) : wordAt (memWrite m (a + 4 * i) 4 v.toNat) a i = v := by
  have hv : v.toNat < 256 ^ 4 := v.isLt
  rw [wordAt, memRead_memWrite_self h, Nat.mod_eq_of_lt hv, BitVec.ofNat_toNat, BitVec.setWidth_eq]

end Reads

/-- Settles O39: each byte of the stored element by its place in the value, the element by read-back, the others
because elements at the array's stride share no byte. -/
theorem arraysAreLittleEndianAndPacked : Obligations.ArraysAreLittleEndianAndPacked := by
  intro m a i h
  refine ⟨fun c => ⟨?_, ?_, codeAt_memWrite_self h a i c, fun j hj => ?_⟩,
    fun v => ⟨?_, ?_, ?_, ?_, wordAt_memWrite_self h a i v, fun j hj => ?_⟩⟩
  · exact readByte_memWrite_toNat h (k := 0) _ c (by decide)
  · exact readByte_memWrite_toNat h (k := 1) _ c (by decide)
  · rw [codeAt, memRead_memWrite_element_ne h a _ hj, codeAt]
  · exact readByte_memWrite_toNat h (k := 0) _ v (by decide)
  · exact readByte_memWrite_toNat h (k := 1) _ v (by decide)
  · exact readByte_memWrite_toNat h (k := 2) _ v (by decide)
  · exact readByte_memWrite_toNat h (k := 3) _ v (by decide)
  · rw [wordAt, memRead_memWrite_element_ne h a _ hj, wordAt]

/-- Settles O40: both codes are read inside the stored value, and `BF16ENC` keeps its high sixteen bits. -/
theorem mixedWidthView : Obligations.MixedWidthView := fun _ a v h =>
  ⟨codeAt_memWrite_inside h (k := 2) a v (by decide), codeAt_memWrite_inside h (k := 0) a v (by decide)⟩

/-! ### Responses through an edge -/

/-- A `drive` move is one edge with the move's pins. -/
theorem step_drive {s : State} {p : Pins} {rest : List HostMove} (h : s.moves = .drive p :: rest) :
    step s = edge p { s with moves := rest } := by
  simp only [step, h, runMove]

/-- The request a `drive` move brings is the one its edge accepts. -/
theorem nextRequest_drive {s : State} {p : Pins} {rest : List HostMove} (h : s.moves = .drive p :: rest) :
    nextRequest s = acceptedRequest p { s with moves := rest } := by
  simp only [nextRequest, h, edgePins, Option.bind_some]

/-- The host keeps every response it has taken. -/
theorem restOfEdge_received_prefix (p : Pins) (s : State) : s.received <+: (restOfEdge p s).received := by
  rcases restOfEdge_cases p s with ⟨e, rest, -, -, -, -, h⟩ | ⟨-, h⟩ <;> rw [h]
  · exact List.prefix_append ..
  · exact List.prefix_rfl

/-- Taking the head moves its response from the queue's front to the end of those received; ageing changes none. -/
@[simp] theorem responsesInOrder_restOfEdge (p : Pins) (s : State) :
    responsesInOrder (restOfEdge p s) = responsesInOrder s := by
  rcases restOfEdge_cases p s with ⟨e, rest, hq, -, -, -, h⟩ | ⟨-, h⟩ <;> rw [h]
  · simp [responsesInOrder, hq, Function.comp_def]
  · simp [responsesInOrder, Function.comp_def]

/-- An answer comes after every response before it. -/
@[simp] theorem responsesInOrder_answer (s : State) (op : OpCode) (d : DataVec) (r : Response) :
    responsesInOrder (s.answer op d r) = responsesInOrder s ++ [r] := by
  simp [responsesInOrder]

/-- A reset leaves of the responses in order those the host has taken (log 20). -/
@[simp] theorem responsesInOrder_resetBlock (s : State) : responsesInOrder s.resetBlock = s.received := by
  simp [responsesInOrder]

/-- Settles O48, by the three cases of an edge: a reset, which leaves what the host has taken (log 20), an edge that
accepts nothing, an edge that accepts a request and answers it last. -/
theorem responsesInRequestOrder : Obligations.ResponsesInRequestOrder := by
  intro s p rest hm
  rw [step_drive hm, nextRequest_drive hm]
  have hs : responsesInOrder { s with moves := rest } = responsesInOrder s := rfl
  have hpre := restOfEdge_received_prefix p { s with moves := rest }
  rcases edge_cases p { s with moves := rest } with ⟨hr, he⟩ | ⟨hr, ha, he⟩ | ⟨hr, r, ha, he⟩
  · exact ⟨_, he, List.prefix_rfl, by simp [hr], fun _ => responsesInOrder_resetBlock _⟩
  · exact ⟨_, he, hpre, fun _ => by simp [ha, hs], by simp [hr]⟩
  · exact ⟨_, he, hpre, fun _ => by simp [ha, hs], by simp [hr]⟩

end Sys2Proof.Machine

/-! PROOFS. The statements of 30_encoding.md: operation codes (R63), lane positions (R64, R65) and execution (R66). -/

namespace Sys2Proof.Machine

open Sys2Proof.Claims

/-! ### Operation codes -/

/-- An operation's own code names it (30_encoding.md R63). -/
@[simp] theorem Op.ofCode?_code (op : Op) : Op.ofCode? op.code = some op := by cases op <;> rfl

/-- A request with an operation's own code decodes to that operation on the request's data. -/
theorem decode_code (op : Op) (d : DataVec) : decode { op := op.code, data := d } = .ok (Instr.ofOp op d) :=
  decode_of_some (Op.ofCode?_code op)

/-- Settles O1: each row's code decodes by `decode_code`; its format and scalar function are those the model lists. -/
theorem opcodeTableOfR63 : Obligations.OpcodeTableOfR63 :=
  ⟨decode_code .f16Enc, rfl, rfl, decode_code .f16Dec, rfl, rfl, decode_code .bf16Enc, rfl, rfl,
    decode_code .bf16Dec, rfl, rfl, decode_code .bf16EncRne, rfl, rfl⟩

/-- Format ENC is narrowing in every lane. -/
theorem Op.scalar_of_enc {op : Op} (h : op.format = .enc) : ∃ f, Op.scalar op = .narrowing f := by
  cases op with
  | f16Enc | bf16Enc | bf16EncRne => exact ⟨_, rfl⟩
  | f16Dec | bf16Dec => cases h

/-- Format DEC is widening in every lane. -/
theorem Op.scalar_of_dec {op : Op} (h : op.format = .dec) : ∃ f, Op.scalar op = .widening f := by
  cases op with
  | f16Enc | bf16Enc | bf16EncRne => cases h
  | f16Dec | bf16Dec => exact ⟨_, rfl⟩

/-! ### Where lanes lie in a vector -/

/-- Wide lane `i` is bits `[32*i + 31 : 32*i]` of the vector as one number (30_encoding.md R64). -/
theorem wideLane_toNat (v : DataVec) (i : Nat) :
    (wideLane v i).toNat = joinWords v 0 / 2 ^ (32 * i) % 2 ^ 32 := by
  induction v generalizing i with
  | nil => simp [wideLane, joinWords]
  | cons x xs ih =>
    have hx : x.toNat < 2 ^ 32 := x.isLt
    rw [joinWords]
    cases i with
    | zero =>
      rw [Nat.mul_zero, Nat.pow_zero, Nat.div_one, Nat.add_mul_mod_self_left, Nat.mod_eq_of_lt hx]
      rfl
    | succ i =>
      have hdiv : (x.toNat + 2 ^ 32 * joinWords xs 0) / 2 ^ 32 = joinWords xs 0 := by omega
      rw [Nat.mul_succ, Nat.add_comm (32 * i), Nat.pow_add, ← Nat.div_div_eq_div_mul, hdiv]
      exact ih i

/-- Narrow lane `i` is the half of wide lane `i / 2` that the parity of `i` names. -/
theorem narrowLane_eq_extractLsb' (v : DataVec) (i : Nat) :
    narrowLane v i = (wideLane v (i / 2)).extractLsb' (16 * (i % 2)) 16 := by
  rw [narrowLane]
  rcases Nat.mod_two_eq_zero_or_one i with h | h <;> rw [h] <;> rfl

/-- Narrow lane `i` is bits `[16*i + 15 : 16*i]` of the vector as one number (30_encoding.md R65). -/
theorem narrowLane_toNat (v : DataVec) (i : Nat) :
    (narrowLane v i).toNat = joinWords v 0 / 2 ^ (16 * i) % 2 ^ 16 := by
  have hhalf : ∀ n r, r < 2 → n % 2 ^ 32 / 2 ^ (16 * r) % 2 ^ 16 = n / 2 ^ (16 * r) % 2 ^ 16 := by
    intro n r hr
    interval_cases r <;> omega
  have hi : 32 * (i / 2) + 16 * (i % 2) = 16 * i := by omega
  rw [narrowLane_eq_extractLsb', BitVec.extractLsb'_toNat, Nat.shiftRight_eq_div_pow, wideLane_toNat,
    hhalf _ _ (Nat.mod_lt _ Nat.two_pos), Nat.div_div_eq_div_mul, ← Nat.pow_add, hi]

/-- Format DEC reads the block's code lanes alone: the operand's high half is ignored (30_encoding.md R65). -/
theorem decLanes_congr {L : LaneCount} {v v' : DataVec} (f : Code → Word32)
    (h : ∀ k, k < L.count → narrowLane v k = narrowLane v' k) : decLanes L f v = decLanes L f v' :=
  List.map_congr_left fun k hk => congrArg f (h k (List.mem_range.mp hk))

/-- Format ENC leaves every code lane from `LANES` on zero (30_encoding.md R65). -/
theorem narrowLane_encLanes_of_le {L : LaneCount} {k : Nat} (f : Word32 → Code) (v : DataVec) (hk : L.count ≤ k) :
    narrowLane (encLanes L f v) k = 0 := by
  rw [narrowLane_encLanes, if_neg (Nat.not_lt.mpr hk)]

/-- Settles O5: the positions by induction on the words of the vector, the two high halves by what the formats read and
leave. -/
theorem laneBitsOfVectors : Obligations.LaneBitsOfVectors := by
  refine ⟨fun v i => ⟨wideLane_toNat v i, narrowLane_toNat v i⟩, fun L op v v' hop h => ?_, fun L op v k hop hk => ?_⟩
  · obtain ⟨f, hf⟩ := Op.scalar_of_dec hop
    rw [respond_code, respond_code, hf, Scalar.lanes, decLanes_congr f h]
  · obtain ⟨f, hf⟩ := Op.scalar_of_enc hop
    rw [respond_code, hf]
    exact narrowLane_encLanes_of_le f v hk

/-! ### Execution of the two formats -/

/-- An instruction completes by adding one entry, which holds its scalar function applied to every lane
(30_encoding.md R66). -/
theorem exec_adds_lanes (i : Instr) (s : State) : ∃ t e, exec i s = .next t ∧ t.queue = s.queue ++ [e] ∧
    e.rsp = .ok ((Op.scalar i.op).lanes s.params.lanes i.data) := by
  obtain ⟨t, e, ht, hq, he⟩ := exec_adds_response i s
  exact ⟨t, e, ht, hq, he.trans (respond_code ..)⟩

/-- An instruction whose scalar function narrows encodes its operand lane by lane. -/
theorem encodesLanes_of_narrowing {i : Instr} {f : Word32 → Code} (hf : Op.scalar i.op = .narrowing f) (s : State) :
    EncodesLanes i f i.data s := by
  obtain ⟨t, e, ht, hq, he⟩ := exec_adds_lanes i s
  rw [hf] at he
  refine ⟨t, e, ht, hq, ?_⟩
  rw [he]
  exact ⟨rfl, fun k hk => (narrowLane_encLanes ..).trans (if_pos hk), fun k hk => narrowLane_encLanes_of_le f _ hk,
    encLanes_fits ..⟩

/-- An instruction whose scalar function widens decodes its operand lane by lane. -/
theorem decodesLanes_of_widening {i : Instr} {f : Code → Word32} (hf : Op.scalar i.op = .widening f) (s : State) :
    DecodesLanes i f i.data s := by
  obtain ⟨t, e, ht, hq, he⟩ := exec_adds_lanes i s
  rw [hf] at he
  refine ⟨t, e, ht, hq, ?_⟩
  rw [he]
  exact ⟨rfl, fun k hk => (wideLane_decLanes ..).trans (if_pos hk), decLanes_fits ..⟩

/-- Settles O14: each row of 30_encoding.md R63 has a narrowing or a widening scalar function, and each kind executes
lane by lane. -/
theorem requestExecutesLanewise : Obligations.RequestExecutesLanewise := fun d s =>
  ⟨encodesLanes_of_narrowing (i := .f16Enc d) rfl s, decodesLanes_of_widening (i := .f16Dec d) rfl s,
    encodesLanes_of_narrowing (i := .bf16Enc d) rfl s, decodesLanes_of_widening (i := .bf16Dec d) rfl s,
    encodesLanes_of_narrowing (i := .bf16EncRne d) rfl s⟩

end Sys2Proof.Machine

/-! PROOFS. The statements of 40_float16.md: `f16.enc` (R91 to R103), `f16.dec` (R110 to R115), and the integers that
survive both (R117). -/

namespace Sys2Proof.Machine

open Sys2Proof.Claims

/-! ### Classes, fields and values -/

section Classes
variable {top : Nat} (e m : Nat)

@[simp] theorem classOf_eq_zero_iff : classOf top e m = .zero ↔ e = 0 ∧ m = 0 := by
  unfold classOf
  split_ifs <;> simp_all

@[simp] theorem classOf_eq_subnormal_iff : classOf top e m = .subnormal ↔ e = 0 ∧ m ≠ 0 := by
  unfold classOf
  split_ifs <;> simp_all

@[simp] theorem classOf_eq_normal_iff : classOf top e m = .normal ↔ e ≠ 0 ∧ e ≠ top := by
  unfold classOf
  split_ifs <;> simp_all

variable [NeZero top]

@[simp] theorem classOf_eq_infinity_iff : classOf top e m = .infinity ↔ e = top ∧ m = 0 := by
  have := NeZero.ne top
  unfold classOf
  split_ifs <;> simp_all
  omega

@[simp] theorem classOf_eq_nan_iff : classOf top e m = .nan ↔ e = top ∧ m ≠ 0 := by
  have := NeZero.ne top
  unfold classOf
  split_ifs <;> simp_all
  omega

end Classes

theorem low31_eq_fields (x : Word32) : low31 x = exp32 x * 2 ^ 23 + man32 x := by
  rw [low31, exp32_eq, man32_eq]
  omega

theorem low15_eq_fields (h : Code) : low15 h = expF16 h * 2 ^ 10 + manF16 h := by
  rw [low15, expF16_eq, manF16_eq]
  omega

theorem expF16_eq_low15 (h : Code) : expF16 h = low15 h / 2 ^ 10 := by
  rw [low15, expF16_eq]
  omega

theorem manF16_eq_low15 (h : Code) : manF16 h = low15 h % 2 ^ 10 := by
  rw [low15, manF16_eq]
  omega

theorem low15_signedCode (s : BitVec 1) (h : Nat) : low15 (signedCode s h) = h % 2 ^ 15 := by
  rw [low15, signedCode_toNat]
  omega

@[simp] theorem sign32_word32 (s : BitVec 1) (e m : Nat) : sign32 (word32 s e m) = s := by
  apply BitVec.eq_of_toNat_eq
  rw [sign32_eq, word32_toNat]
  omega

theorem exp32_word32 (s : BitVec 1) (m : Nat) {e : Nat} (he : e < 2 ^ 8) : exp32 (word32 s e m) = e := by
  rw [exp32_eq, word32_toNat]
  omega

theorem man32_word32 (s : BitVec 1) (e : Nat) {m : Nat} (hm : m < 2 ^ 23) : man32 (word32 s e m) = m := by
  rw [man32_eq, word32_toNat]
  omega

/-- A binary32 pattern is put together from its own fields. -/
theorem word32_fields (x : Word32) : word32 (sign32 x) (exp32 x) (man32 x) = x := by
  apply BitVec.eq_of_toNat_eq
  have := exp32_lt x
  have := man32_lt x
  rw [word32_toNat, toNat_eq_fields x]
  omega

theorem mag32_of_exp_pos {x : Word32} (h : 0 < exp32 x) : mag32 x = (2 ^ 23 + man32 x) * 2 ^ (exp32 x - 1) :=
  if_neg (Nat.ne_of_gt h)

/-- A magnitude lies below the next power of two. -/
theorem mag32_lt (x : Word32) : mag32 x < 2 ^ (exp32 x + 23) := by
  have hm := man32_lt x
  rcases Nat.eq_zero_or_pos (exp32 x) with he | he
  · rw [mag32, if_pos he, he]
    exact hm
  · rw [mag32_of_exp_pos he, show exp32 x + 23 = 24 + (exp32 x - 1) by omega, Nat.pow_add]
    exact Nat.mul_lt_mul_of_pos_right (by omega) (Nat.two_pow_pos _)

/-- The magnitude of a pattern with an exponent is at least that exponent's power of two. -/
theorem le_mag32 {x : Word32} (he : 0 < exp32 x) : 2 ^ (exp32 x + 22) ≤ mag32 x := by
  rw [mag32_of_exp_pos he, show exp32 x + 22 = 23 + (exp32 x - 1) by omega, Nat.pow_add]
  exact Nat.mul_le_mul_right _ (Nat.le_add_right ..)

/-- An exponent field below `e` bounds the magnitude. -/
theorem mag32_lt_of_exp32_lt {x : Word32} {e : Nat} (h : exp32 x < e) : mag32 x < 2 ^ (e + 22) :=
  Nat.lt_of_lt_of_le (mag32_lt x) (Nat.pow_le_pow_right (by decide) (by omega))

/-- An exponent field from `e` on bounds the magnitude below. -/
theorem le_mag32_of_le_exp32 {x : Word32} {e : Nat} (he : 0 < e) (h : e ≤ exp32 x) : 2 ^ (e + 22) ≤ mag32 x :=
  Nat.le_trans (Nat.pow_le_pow_right (by decide) (by omega)) (le_mag32 (by omega))

/-! ### Rounding -/

/-- Less than half is dropped. -/
theorem roundNearest_of_lt (tie : TieRule) (h : Nat) {rem half : Nat} (hr : rem < half) :
    roundNearest tie h rem half = h := by
  unfold roundNearest
  cases tie <;> exact if_neg (by omega)

/-- More than half rounds up. -/
theorem roundNearest_of_gt (tie : TieRule) (h : Nat) {rem half : Nat} (hr : half < rem) :
    roundNearest tie h rem half = h + 1 := by
  unfold roundNearest
  cases tie <;> exact if_pos (by omega)

/-- From an odd number, half or more rounds up. -/
theorem roundNearest_even_of_odd {h rem half : Nat} (hh : h % 2 = 1) (hr : half ≤ rem) :
    roundNearest .even h rem half = h + 1 :=
  if_pos (by omega)

/-! ### `f16.enc`: the fifteen lower bits -/

/-- The lower bits `F16ENC` gives the fields `e` and `m`, whatever the sign (40_float16.md R96). -/
def f16encBits (tie : TieRule) (e m : Nat) : Nat :=
  if e = 255 ∧ m ≠ 0 then 0x7E00
  else if e = 255 ∧ m = 0 then 0x7C00
  else if e ≥ 143 then 0x7C00
  else if e ≥ 113 then f16encNormal tie e m
  else f16encSubnormal tie e m

/-- `F16ENC` puts the sign beside the lower bits (40_float16.md R92). -/
theorem f16encWith_eq (tie : TieRule) (x : Word32) :
    f16encWith tie x = signedCode (sign32 x) (f16encBits tie (exp32 x) (man32 x)) := by
  simp only [f16encWith, f16encBits, apply_ite (signedCode (sign32 x))]
  rfl

theorem f16enc_eq (x : Word32) : f16enc x = signedCode (sign32 x) (f16encBits .even (exp32 x) (man32 x)) :=
  f16encWith_eq .even x

section Ranges
variable (tie : TieRule) {e m : Nat}

/-- The row of NaN operands (40_float16.md R102). -/
theorem f16encBits_of_nan (hm : m ≠ 0) : f16encBits tie 255 m = 0x7E00 := if_pos ⟨rfl, hm⟩

/-- The rows of overflow and infinity (40_float16.md R97, R103). -/
theorem f16encBits_of_ge (he : 143 ≤ e) (h : ¬ (e = 255 ∧ m ≠ 0)) : f16encBits tie e m = 0x7C00 := by
  unfold f16encBits
  rw [if_neg h, if_pos he, ite_self]

/-- The normal range (40_float16.md R98). -/
theorem f16encBits_of_normal (h : 113 ≤ e) (h' : e ≤ 142) : f16encBits tie e m = f16encNormal tie e m := by
  unfold f16encBits
  rw [if_neg (by omega), if_neg (by omega), if_neg (by omega), if_pos h]

/-- The subnormal range and below (40_float16.md R98, R99). -/
theorem f16encBits_of_le (h : e ≤ 112) : f16encBits tie e m = f16encSubnormal tie e m := by
  unfold f16encBits
  rw [if_neg (by omega), if_neg (by omega), if_neg (by omega), if_neg (by omega)]

variable (hm : m < 2 ^ 23)
include hm

/-- In the normal range rounding adds at most one to exponent and mantissa taken as one number (40_float16.md R96). -/
theorem f16encNormal_bounds (e : Nat) : (e - 112) * 2 ^ 10 + m / 2 ^ 13 ≤ f16encNormal tie e m ∧
    f16encNormal tie e m ≤ (e - 112) * 2 ^ 10 + m / 2 ^ 13 + 1 := by
  rw [f16encNormal_eq tie hm]
  rcases roundNearest_cases tie ((e - 112) * 2 ^ 10 + m / 2 ^ 13) (m % 2 ^ 13) (2 ^ 12) with h | h <;> omega

/-- The increment stops at infinity in the normal range (40_float16.md R100). -/
theorem f16encNormal_le (h' : e ≤ 142) : f16encNormal tie e m ≤ 0x7C00 := by
  have := f16encNormal_bounds tie hm e
  omega

/-- Below mantissa `0x7FF000` rounding carries nothing into the exponent field (40_float16.md R91). -/
theorem f16encNormal_div_of_lt (e : Nat) (h : m < 0x7FF000) : f16encNormal tie e m / 2 ^ 10 = e - 112 := by
  rcases Nat.lt_or_ge (m / 2 ^ 13) 1023 with hlt | hge
  · have := f16encNormal_bounds tie hm e
    omega
  · rw [f16encNormal_eq tie hm, roundNearest_of_lt tie _ (by omega)]
    omega

/-- From mantissa `0x7FF000` on the mantissa is odd and at least half is dropped: rounding carries to the next power of
two (40_float16.md R91, R100). -/
theorem f16encNormal_of_carry (h : 113 ≤ e) (hc : 0x7FF000 ≤ m) : f16encNormal .even e m = (e - 111) * 2 ^ 10 := by
  rw [f16encNormal_eq _ hm, roundNearest_even_of_odd (by omega) (by omega)]
  omega

/-- Below the normal range the shift is at least 14, so the increment stops at the least normal code
(40_float16.md R100). -/
theorem f16encSubnormal_le (h : e ≤ 112) : f16encSubnormal tie e m ≤ 0x0400 := by
  have hshift : (2 ^ 23 + m) / 2 ^ min (126 - e) 25 ≤ (2 ^ 23 + m) / 2 ^ 14 :=
    Nat.div_le_div_left (Nat.pow_le_pow_right (by decide) (by omega)) (by decide)
  rw [f16encSubnormal_eq tie hm]
  rcases roundNearest_cases tie ((2 ^ 23 + m) / 2 ^ min (126 - e) 25) ((2 ^ 23 + m) % 2 ^ min (126 - e) 25)
    (2 ^ (min (126 - e) 25 - 1)) with h | h <;> omega

/-- Up to exponent field 101 less than half of the least subnormal is left (40_float16.md R99). -/
theorem f16encSubnormal_of_le (h : e ≤ 101) : f16encSubnormal tie e m = 0 := by
  rw [f16encSubnormal_eq tie hm, show min (126 - e) 25 = 25 by omega, roundNearest_of_lt tie _ (by omega)]
  omega

/-- Between half of the least subnormal and the least subnormal, rounding goes up (40_float16.md R99). -/
theorem f16encSubnormal_102 (h : 0 < m) : f16encSubnormal tie 102 m = 1 := by
  rw [f16encSubnormal_eq tie hm, show min (126 - 102) 25 = 24 from rfl, roundNearest_of_gt tie _ (by omega)]
  omega

/-- No operand but a NaN goes beyond infinity (40_float16.md R103). -/
theorem f16encBits_le (h : ¬ (e = 255 ∧ m ≠ 0)) : f16encBits tie e m ≤ 0x7C00 := by
  rcases Nat.lt_or_ge e 113 with hsub | hnorm
  · rw [f16encBits_of_le tie (by omega)]
    exact Nat.le_trans (f16encSubnormal_le tie hm (by omega)) (by decide)
  · rcases Nat.lt_or_ge e 143 with hfin | hover
    · rw [f16encBits_of_normal tie hnorm (by omega)]
      exact f16encNormal_le tie hm (by omega)
    · exact (f16encBits_of_ge tie hover h).le

/-- `F16ENC` never touches the sign bit. -/
theorem f16encBits_lt (e : Nat) : f16encBits tie e m < 2 ^ 15 := by
  by_cases h : e = 255 ∧ m ≠ 0
  · rw [h.1, f16encBits_of_nan tie h.2]
    decide
  · exact Nat.lt_of_le_of_lt (f16encBits_le tie hm h) (by decide)

end Ranges

@[simp] theorem sign16_f16enc (x : Word32) : sign16 (f16enc x) = sign32 x := by
  rw [f16enc_eq, sign16_signedCode]

theorem low15_f16enc (x : Word32) : low15 (f16enc x) = f16encBits .even (exp32 x) (man32 x) := by
  rw [f16enc_eq, low15_signedCode, Nat.mod_eq_of_lt (f16encBits_lt _ (man32_lt x) _)]

/-- From `0x477FF000` on every operand but a NaN overflows (40_float16.md R97). -/
theorem f16encBits_of_overflow {e m : Nat} (hm : m < 2 ^ 23) (hn : ¬ (e = 255 ∧ m ≠ 0))
    (h : 0x477FF000 ≤ e * 2 ^ 23 + m) : f16encBits .even e m = 0x7C00 := by
  rcases Nat.lt_or_ge e 143 with he | he
  · obtain rfl : e = 142 := by omega
    rw [f16encBits_of_normal _ (by decide) (by decide), f16encNormal_of_carry hm (by decide) (by omega)]
    rfl
  · exact f16encBits_of_ge _ he hn

/-- Below `0x477FF000` the result is finite (40_float16.md R97). -/
theorem f16encBits_lt_infinity {e m : Nat} (hm : m < 2 ^ 23) (h : e * 2 ^ 23 + m < 0x477FF000) :
    f16encBits .even e m < 0x7C00 := by
  rcases Nat.lt_or_ge e 113 with he | he
  · rw [f16encBits_of_le _ (by omega)]
    exact Nat.lt_of_le_of_lt (f16encSubnormal_le _ hm (by omega)) (by decide)
  · rw [f16encBits_of_normal _ he (by omega)]
    rcases Nat.lt_or_ge m 0x7FF000 with hc | hc
    · have := f16encNormal_div_of_lt .even hm e hc
      omega
    · have hlast : e - 111 ≤ 30 := by omega
      rw [f16encNormal_of_carry hm he hc]
      exact Nat.lt_of_le_of_lt (Nat.mul_le_mul_right _ hlast) (by decide)

/-- Up to `0x33000000`, half of the least subnormal, the result is a zero; the tie goes to the even code
(40_float16.md R99). -/
theorem f16encBits_of_underflow {e m : Nat} (hm : m < 2 ^ 23) (h : e * 2 ^ 23 + m ≤ 0x33000000) :
    f16encBits .even e m = 0 := by
  rw [f16encBits_of_le _ (by omega)]
  rcases Nat.lt_or_ge e 102 with he | he
  · exact f16encSubnormal_of_le _ hm (by omega)
  · obtain ⟨rfl, rfl⟩ : e = 102 ∧ m = 0 := by omega
    decide

/-- Above `0x33000000` up to `0x33800000` the result is the least subnormal (40_float16.md R99). -/
theorem f16encBits_eq_one {e m : Nat} (hm : m < 2 ^ 23) (h : 0x33000000 < e * 2 ^ 23 + m)
    (h' : e * 2 ^ 23 + m ≤ 0x33800000) : f16encBits .even e m = 1 := by
  rw [f16encBits_of_le _ (by omega)]
  rcases Nat.lt_or_ge e 103 with he | he
  · obtain rfl : e = 102 := by omega
    exact f16encSubnormal_102 _ hm (by omega)
  · obtain ⟨rfl, rfl⟩ : e = 103 ∧ m = 0 := by omega
    decide

/-! ### The sign -/

/-- Flipping the top bit of an operand leaves its exponent field. -/
theorem exp32_flip (x : Word32) : exp32 (x ^^^ 0x80000000) = exp32 x := by
  rw [exp32, BitVec.extractLsb'_xor, exp32]
  exact congrArg BitVec.toNat BitVec.xor_zero

theorem man32_flip (x : Word32) : man32 (x ^^^ 0x80000000) = man32 x := by
  rw [man32, BitVec.extractLsb'_xor, man32]
  exact congrArg BitVec.toNat BitVec.xor_zero

theorem sign32_flip (x : Word32) : sign32 (x ^^^ 0x80000000) = sign32 x ^^^ 1 :=
  BitVec.extractLsb'_xor

theorem signedCode_flip (s : BitVec 1) (h : Nat) : signedCode (s ^^^ 1) h = signedCode s h ^^^ 0x8000 := by
  have := BitVec.xor_append (x₁ := s) (x₂ := 1#1) (y₁ := BitVec.ofNat 15 h) (y₂ := 0#15)
  rw [BitVec.xor_zero] at this
  exact this.symm

/-- Settles O18: the operand's fields but the sign give the lower bits. -/
theorem f16EncKeepsSign : Obligations.F16EncKeepsSign := by
  refine ⟨fun x => ⟨sign16_f16enc x, ?_⟩, by decide, by decide, by decide⟩
  rw [f16enc_eq, f16enc_eq, sign32_flip, exp32_flip, man32_flip, signedCode_flip]

/-- Settles O22: a NaN by its row, everything else because it stops at infinity. -/
theorem f16EncCanonicalisesNaN : Obligations.F16EncCanonicalisesNaN := by
  intro x
  have hcanonical : ∀ s : BitVec 1,
      quietF16 (signedCode s 0x7E00) = true ∧ classF16 (signedCode s 0x7E00) = .nan := by decide
  have hnan : class32 x = .nan → f16enc x = signedCode (sign32 x) 0x7E00 := fun h => by
    obtain ⟨he, hm⟩ := (classOf_eq_nan_iff ..).mp h
    rw [f16enc_eq, he, f16encBits_of_nan _ hm]
  refine ⟨fun h => ⟨hnan h, ?_⟩, ⟨fun h => ?_, fun h => ?_⟩, fun h => ?_⟩
  · rw [hnan h]
    exact (hcanonical _).1
  · by_contra hn
    have hle := f16encBits_le .even (man32_lt x) (mt (classOf_eq_nan_iff ..).mpr hn)
    obtain ⟨he, hm⟩ := (classOf_eq_nan_iff ..).mp h
    rw [← low15_f16enc, low15_eq_fields] at hle
    omega
  · rw [hnan h]
    exact (hcanonical _).2
  · obtain ⟨he, hm⟩ := (classOf_eq_infinity_iff ..).mp h
    rw [f16enc_eq, f16encBits_of_ge _ (by omega) (by omega)]

/-- Settles O20: the two sides of the boundary by fields, the tie value at its own fields. -/
theorem f16EncOverflowBoundary : Obligations.F16EncOverflowBoundary := by
  refine ⟨fun x hn => ?_, fun x hx => ?_, by decide, by decide, by decide, by decide, by decide, by decide, by decide,
    by decide⟩
  · have hm := man32_lt x
    rw [low31_eq_fields]
    refine ⟨fun h => ?_, fun h => ?_⟩
    · rw [low15_f16enc]
      exact Nat.le_of_lt_succ (f16encBits_lt_infinity hm (by omega))
    · rw [f16enc_eq, f16encBits_of_overflow hm (mt (classOf_eq_nan_iff ..).mpr hn) h]
  · have hm := man32_lt x
    rw [low31_eq_fields] at hx
    obtain ⟨he, hm⟩ : exp32 x = 142 ∧ man32 x = 0x7FF000 := by omega
    rw [mag32, he, hm]
    decide

/-- Up to `0x33000000` the magnitude is at most 2^-25, 2^124 units (40_float16.md R99). -/
theorem low31_le_iff_mag32_le (x : Word32) : low31 x ≤ 0x33000000 ↔ mag32 x ≤ 2 ^ 124 := by
  have hm := man32_lt x
  rw [low31_eq_fields]
  rcases Nat.lt_trichotomy (exp32 x) 102 with he | he | he
  · have := mag32_lt_of_exp32_lt he
    omega
  · rw [mag32_of_exp_pos (by omega), he]
    omega
  · have := le_mag32_of_le_exp32 (e := 103) (by decide) he
    omega

/-- Settles O21: zeros up to half of the least subnormal, the least subnormal up to itself; an operand with exponent
field 0 is far below. -/
theorem f16EncUnderflowBoundary : Obligations.F16EncUnderflowBoundary := by
  refine ⟨by decide, fun x => ?_⟩
  have hm := man32_lt x
  have hzero : low31 x ≤ 0x33000000 → low15 (f16enc x) = 0 := fun h => by
    rw [low15_f16enc, f16encBits_of_underflow hm (by rwa [← low31_eq_fields])]
  have hexp : exp32 x = 0 → low15 (f16enc x) = 0 := fun h => hzero (by rw [low31_eq_fields]; omega)
  refine ⟨fun h => hzero (by omega), fun h => hzero h.le, low31_le_iff_mag32_le x, fun h h' => ?_, fun h => ?_,
    fun h => ?_⟩
  · rw [low31_eq_fields] at h h'
    rw [low15_f16enc, f16encBits_eq_one hm h h']
  · exact hexp ((classOf_eq_subnormal_iff ..).mp h).1
  · exact hexp ((classOf_eq_zero_iff ..).mp h).1

/-- A code between the least normal one and infinity is normal or the infinity of its sign. -/
theorem classF16_normal_or_infinity {h : Code} (hlow : 0x0400 ≤ low15 h) (hhigh : low15 h ≤ 0x7C00) :
    classF16 h = .normal ∨ low15 h = 0x7C00 := by
  rw [classF16, classOf_eq_normal_iff, expF16_eq_low15]
  omega

/-- A code up to the least normal one is subnormal, zero or that code. -/
theorem classF16_of_low15_le {h : Code} (hle : low15 h ≤ 0x0400) :
    classF16 h = .subnormal ∨ classF16 h = .zero ∨ low15 h = 0x0400 := by
  rw [classF16, classOf_eq_subnormal_iff, classOf_eq_zero_iff, expF16_eq_low15, manF16_eq_low15]
  omega

/-- Settles O19: each row by its own rule, the magnitudes by the powers of two the exponent field names. -/
theorem f16EncResultClasses : Obligations.F16EncResultClasses := by
  intro x
  have hm := man32_lt x
  refine ⟨fun he hnan => ?_, fun he hinf => ?_, fun he he' => ⟨?_, ?_⟩, fun he he' => ?_, fun he he' => ?_,
    fun he => ?_⟩
  · rw [f16enc_eq, he, f16encBits_of_nan _ hnan]
    rfl
  · rw [f16enc_eq, f16encBits_of_ge _ (by omega) (by omega)]
    rfl
  · exact le_mag32_of_le_exp32 (e := 143) (by decide) he
  · rw [f16enc_eq, f16encBits_of_ge _ he (by omega)]
    rfl
  · have hbits : low15 (f16enc x) = f16encNormal .even (exp32 x) (man32 x) := by
      rw [low15_f16enc, f16encBits_of_normal _ he he']
    have hbounds := f16encNormal_bounds .even hm (exp32 x)
    refine ⟨le_mag32_of_le_exp32 (e := 113) (by decide) he, mag32_lt_of_exp32_lt (e := 143) (by omega),
      sign16_f16enc x, ?_, fun h => ?_, fun h => ?_⟩
    · refine (classF16_normal_or_infinity (by omega) ?_).imp_right fun h => ?_
      · rw [hbits]
        exact f16encNormal_le _ hm he'
      · rw [low15_f16enc] at h
        rw [f16enc_eq, h, f16Infinity]
    · rw [expF16_eq_low15, hbits, f16encNormal_div_of_lt _ hm _ h]
    · rw [expF16_eq_low15, hbits, f16encNormal_of_carry hm he h]
      omega
  · refine ⟨le_mag32_of_le_exp32 (e := 102) (by decide) he, mag32_lt_of_exp32_lt (e := 113) (by omega),
      sign16_f16enc x, classF16_of_low15_le ?_⟩
    rw [low15_f16enc, f16encBits_of_le _ he']
    exact f16encSubnormal_le _ hm he'
  · refine ⟨mag32_lt_of_exp32_lt (e := 102) (by omega), sign16_f16enc x, ?_⟩
    rw [low15_f16enc, f16encBits_of_underflow hm (by omega)]

/-! ### `f16.dec`: the decoded word of each class -/

/-- A quiet NaN has the top bit of its mantissa set (10_state.md R27). -/
theorem quiet32_iff (x : Word32) : quiet32 x = true ↔ 2 ^ 22 ≤ man32 x := by
  rw [quiet32, BitVec.getLsbD, Nat.testBit_eq_decide_div_mod_eq, decide_eq_true_iff, man32_eq]
  omega

/-- Mantissa bits set by `or` in a word. -/
theorem word32_or (s : BitVec 1) (e : Nat) {m n : Nat} (hm : m < 2 ^ 23) (hn : n < 2 ^ 23) :
    word32 s e m ||| BitVec.ofNat 32 n = word32 s e (m ||| n) := by
  have hfields : ∀ k, k < 2 ^ 23 → (word32 s e k).toNat = 2 ^ 23 * (s.toNat * 2 ^ 8 + e % 2 ^ 8) ||| k :=
    fun k hk => by
      rw [← Nat.two_pow_add_eq_or_of_lt hk, word32_toNat]
      omega
  apply BitVec.eq_of_toNat_eq
  rw [BitVec.toNat_or, hfields m hm, hfields _ (Nat.or_lt_two_pow hm hn), BitVec.toNat_ofNat,
    Nat.mod_eq_of_lt (Nat.lt_trans hn (by decide)), Nat.or_assoc]

/-- Shifted left until its highest set bit `k` stands at bit `n`, a number lies between 2^n and 2^(n + 1). -/
theorem mul_two_pow_bounds {m k n : Nat} (hkn : k ≤ n) (hk : 2 ^ k ≤ m) (hk' : m < 2 ^ (k + 1)) :
    2 ^ n ≤ m * 2 ^ (n - k) ∧ m * 2 ^ (n - k) < 2 ^ (n + 1) := by
  have hn : 2 ^ n = 2 ^ k * 2 ^ (n - k) := by rw [← Nat.pow_add, Nat.add_sub_cancel' hkn]
  have hn' : 2 ^ (n + 1) = 2 ^ (k + 1) * 2 ^ (n - k) := by rw [Nat.pow_succ, hn, Nat.pow_succ, Nat.mul_right_comm]
  rw [hn, hn']
  exact ⟨Nat.mul_le_mul_right _ hk, Nat.mul_lt_mul_of_pos_right hk' (Nat.two_pow_pos _)⟩

/-- The mantissa of a code, shifted to the word's, stays in the field. -/
theorem manF16_shift_lt (h : Code) : manF16 h * 2 ^ 13 < 2 ^ 23 := by
  have := manF16_lt h
  omega

section Decode
variable {h : Code}

/-- The highest set bit of a code's mantissa lies in the field. -/
theorem le_nine_of_two_pow_le_manF16 {k : Nat} (hk : 2 ^ k ≤ manF16 h) : k ≤ 9 :=
  Nat.le_of_lt_succ ((Nat.pow_lt_pow_iff_right (by decide)).mp (Nat.lt_of_le_of_lt hk (manF16_lt h)))

/-- 40_float16.md R114: a NaN is quieted and keeps its mantissa bits. -/
theorem f16dec_of_nan (hc : classF16 h = .nan) :
    f16dec h = word32 (sign16 h) 255 ((manF16 h ||| 0x200) * 2 ^ 13) := by
  obtain ⟨he, hm⟩ := (classOf_eq_nan_iff ..).mp hc
  have hquiet : ∀ s : BitVec 1, (s ++ 0x7FC00000#31 : BitVec (1 + 31)) = word32 s 255 (0x200 <<< 13) := by decide
  have hlt : manF16 h <<< 13 < 2 ^ 23 := Nat.shiftLeft_eq _ _ ▸ manF16_shift_lt h
  unfold f16dec
  rw [if_pos ⟨he, hm⟩, hquiet, word32_or _ _ (by decide) hlt, ← Nat.shiftLeft_or_distrib, Nat.or_comm,
    Nat.shiftLeft_eq]

theorem f16dec_of_infinity (hc : classF16 h = .infinity) : f16dec h = word32 (sign16 h) 255 0 := by
  obtain ⟨he, hm⟩ := (classOf_eq_infinity_iff ..).mp hc
  have hword : ∀ s : BitVec 1, (s ++ 0x7F800000#31 : BitVec (1 + 31)) = word32 s 255 0 := by decide
  unfold f16dec
  rw [if_neg (by omega), if_pos ⟨he, hm⟩, hword]

/-- 40_float16.md R111: the exponent is rebiased, the mantissa gets 13 zero bits. -/
theorem f16dec_of_normal (hc : classF16 h = .normal) :
    f16dec h = word32 (sign16 h) (expF16 h + 112) (manF16 h * 2 ^ 13) := by
  obtain ⟨he, he'⟩ := (classOf_eq_normal_iff ..).mp hc
  unfold f16dec
  rw [if_neg (by omega), if_neg (by omega), if_pos he, Nat.shiftLeft_eq]

theorem f16dec_of_zero (hc : classF16 h = .zero) : f16dec h = word32 (sign16 h) 0 0 := by
  obtain ⟨he, hm⟩ := (classOf_eq_zero_iff ..).mp hc
  have hword : ∀ s : BitVec 1, (s ++ 0#31 : BitVec (1 + 31)) = word32 s 0 0 := by decide
  unfold f16dec
  rw [if_neg (by omega), if_neg (by omega), if_neg (by omega), if_neg (by omega), hword]

/-- 40_float16.md R112: the highest set bit `k` of the mantissa becomes the word's leading bit, which no field holds. -/
theorem f16dec_of_subnormal (hc : classF16 h = .subnormal) {k : Nat} (hk : 2 ^ k ≤ manF16 h)
    (hk' : manF16 h < 2 ^ (k + 1)) :
    f16dec h = word32 (sign16 h) (103 + k) (manF16 h * 2 ^ (23 - k) - 2 ^ 23) := by
  obtain ⟨he, hm⟩ := (classOf_eq_subnormal_iff ..).mp hc
  have hlog : Nat.log2 (manF16 h) = k := (Nat.log2_eq_iff hm).mpr ⟨hk, hk'⟩
  have hk9 := le_nine_of_two_pow_le_manF16 hk
  obtain ⟨hle, hlt⟩ := mul_two_pow_bounds (n := 23) (by omega) hk hk'
  have hmod : manF16 h * 2 ^ (23 - k) % 2 ^ 23 = manF16 h * 2 ^ (23 - k) - 2 ^ 23 := by omega
  unfold f16dec
  dsimp only
  rw [if_neg (by omega), if_neg (by omega), if_neg (by omega), if_pos hm, hlog, Nat.shiftLeft_eq,
    show 0x7FFFFF = 2 ^ 23 - 1 from rfl, Nat.and_two_pow_sub_one_eq_mod, hmod]

/-- A subnormal code's mantissa has a highest set bit. -/
theorem exists_highest_bit_manF16 (hc : classF16 h = .subnormal) :
    ∃ k, 2 ^ k ≤ manF16 h ∧ manF16 h < 2 ^ (k + 1) :=
  ⟨Nat.log2 (manF16 h), Nat.log2_self_le ((classOf_eq_subnormal_iff ..).mp hc).2, Nat.lt_log2_self⟩

end Decode

/-- Decoding keeps the sign in every class. -/
@[simp] theorem sign32_f16dec (h : Code) : sign32 (f16dec h) = sign16 h := by
  cases hc : classF16 h with
  | zero => rw [f16dec_of_zero hc, sign32_word32]
  | subnormal =>
    obtain ⟨k, hk, hk'⟩ := exists_highest_bit_manF16 hc
    rw [f16dec_of_subnormal hc hk hk', sign32_word32]
  | normal => rw [f16dec_of_normal hc, sign32_word32]
  | infinity => rw [f16dec_of_infinity hc, sign32_word32]
  | nan => rw [f16dec_of_nan hc, sign32_word32]

theorem fields_f16dec_of_zero {h : Code} (hc : classF16 h = .zero) : exp32 (f16dec h) = 0 ∧ man32 (f16dec h) = 0 := by
  rw [f16dec_of_zero hc]
  exact ⟨exp32_word32 _ _ (by decide), man32_word32 _ _ (by decide)⟩

theorem fields_f16dec_of_subnormal {h : Code} (hc : classF16 h = .subnormal) {k : Nat} (hk : 2 ^ k ≤ manF16 h)
    (hk' : manF16 h < 2 ^ (k + 1)) :
    exp32 (f16dec h) = 103 + k ∧ 2 ^ 23 + man32 (f16dec h) = manF16 h * 2 ^ (23 - k) := by
  have hk9 := le_nine_of_two_pow_le_manF16 hk
  obtain ⟨hle, hlt⟩ := mul_two_pow_bounds (n := 23) (by omega) hk hk'
  rw [f16dec_of_subnormal hc hk hk', man32_word32 _ _ (by omega)]
  exact ⟨exp32_word32 _ _ (by omega), Nat.add_sub_cancel' hle⟩

theorem fields_f16dec_of_normal {h : Code} (hc : classF16 h = .normal) :
    exp32 (f16dec h) = expF16 h + 112 ∧ man32 (f16dec h) = manF16 h * 2 ^ 13 := by
  have := expF16_lt h
  rw [f16dec_of_normal hc]
  exact ⟨exp32_word32 _ _ (by omega), man32_word32 _ _ (manF16_shift_lt h)⟩

theorem class32_f16dec_of_infinity {h : Code} (hc : classF16 h = .infinity) : class32 (f16dec h) = .infinity := by
  rw [f16dec_of_infinity hc, class32, classOf_eq_infinity_iff]
  exact ⟨exp32_word32 _ _ (by decide), man32_word32 _ _ (by decide)⟩

/-- Decoding gives a finite code the finite word of its value (40_float16.md R115). -/
theorem f16dec_finite_exact {h : Code} (hnan : classF16 h ≠ .nan) (hinf : classF16 h ≠ .infinity) :
    exp32 (f16dec h) < 255 ∧ mag32 (f16dec h) = magF16 h := by
  cases hc : classF16 h with
  | zero =>
    obtain ⟨he, hm⟩ := (classOf_eq_zero_iff ..).mp hc
    obtain ⟨hexp, hman⟩ := fields_f16dec_of_zero hc
    rw [mag32, magF16, hexp, hman, he, hm]
    decide
  | subnormal =>
    obtain ⟨he, -⟩ := (classOf_eq_subnormal_iff ..).mp hc
    obtain ⟨k, hk, hk'⟩ := exists_highest_bit_manF16 hc
    obtain ⟨hexp, hman⟩ := fields_f16dec_of_subnormal hc hk hk'
    have hk9 := le_nine_of_two_pow_le_manF16 hk
    refine ⟨by omega, ?_⟩
    rw [mag32_of_exp_pos (by omega), magF16, if_pos he, hman, hexp, Nat.mul_assoc, ← Nat.pow_add]
    congr 2
    omega
  | normal =>
    obtain ⟨he, -⟩ := (classOf_eq_normal_iff ..).mp hc
    obtain ⟨hexp, hman⟩ := fields_f16dec_of_normal hc
    have hlt := expF16_lt h
    refine ⟨by omega, ?_⟩
    have hpow : 2 ^ (expF16 h + 112 - 1) = 2 ^ (expF16 h - 1) * 2 ^ 112 := by
      rw [← Nat.pow_add]
      congr 1
      omega
    rw [mag32_of_exp_pos (by omega), magF16, if_neg he, hman, hexp, hpow]
    ring
  | infinity => exact absurd hc hinf
  | nan => exact absurd hc hnan

/-- Settles O27: infinity by its word, a finite code by its class's fields. -/
theorem f16DecIsExact : Obligations.F16DecIsExact :=
  ⟨fun h hnan => ⟨sign32_f16dec h, class32_f16dec_of_infinity, f16dec_finite_exact hnan⟩, by decide⟩

/-- Settles O28: the fields of the decoded word of either class, within their ranges. -/
theorem f16DecFiniteFields : Obligations.F16DecFiniteFields := by
  refine ⟨fun h hc => ?_, fun h hc => ⟨sign32_f16dec h, fun k hk hk' => ?_⟩, by decide, by decide, by decide⟩
  · obtain ⟨he, he'⟩ := (classOf_eq_normal_iff ..).mp hc
    obtain ⟨hexp, hman⟩ := fields_f16dec_of_normal hc
    have hlt := expF16_lt h
    exact ⟨sign32_f16dec h, hexp, by omega, by omega, hman⟩
  · obtain ⟨hexp, hman⟩ := fields_f16dec_of_subnormal hc hk hk'
    have hk9 := le_nine_of_two_pow_le_manF16 hk
    exact ⟨hexp, by omega, hman⟩

/-- Settles O29: the fields of each special word; a NaN's set quiet bit also keeps its mantissa from 0. -/
theorem f16DecSpecialCodes : Obligations.F16DecSpecialCodes := by
  refine ⟨fun h => ⟨fun hc => ?_, fun hc => ⟨class32_f16dec_of_infinity hc, sign32_f16dec h⟩, fun hc => ?_⟩,
    by decide, by decide, by decide, by decide, by decide, by decide, by decide, by decide⟩
  · exact ⟨(classOf_eq_zero_iff ..).mpr (fields_f16dec_of_zero hc), sign32_f16dec h⟩
  · have hlt : manF16 h ||| 0x200 < 2 ^ 10 := Nat.or_lt_two_pow (manF16_lt h) (by decide)
    have hquiet : 0x200 ≤ manF16 h ||| 0x200 := Nat.right_le_or
    have hexp : exp32 (f16dec h) = 255 := by
      rw [f16dec_of_nan hc]
      exact exp32_word32 _ _ (by decide)
    have hman : man32 (f16dec h) = (manF16 h ||| 0x200) * 2 ^ 13 := by
      rw [f16dec_of_nan hc, man32_word32 _ _ (by omega)]
    exact ⟨(classOf_eq_nan_iff ..).mpr ⟨hexp, by omega⟩, sign32_f16dec h, (quiet32_iff _).mpr (by omega), hman⟩

/-! ### Values that survive encoding -/

/-- A word in the normal range whose lower 13 mantissa bits are clear is encoded without rounding, so decoding gives it
back (40_float16.md R96, R111). -/
theorem f16dec_f16enc_of_normal {x : Word32} (he : 113 ≤ exp32 x) (he' : exp32 x ≤ 142)
    (hm : man32 x % 2 ^ 13 = 0) : f16dec (f16enc x) = x := by
  have hlt := man32_lt x
  have hbits : low15 (f16enc x) = (exp32 x - 112) * 2 ^ 10 + man32 x / 2 ^ 13 := by
    rw [low15_f16enc, f16encBits_of_normal _ he he', f16encNormal_eq _ hlt, hm, roundNearest_of_lt _ _ (by decide)]
  have hexp : expF16 (f16enc x) = exp32 x - 112 := by
    rw [expF16_eq_low15]
    omega
  have hman : manF16 (f16enc x) = man32 x / 2 ^ 13 := by
    rw [manF16_eq_low15]
    omega
  have hc : classF16 (f16enc x) = .normal := (classOf_eq_normal_iff ..).mpr (by omega)
  rw [f16dec_of_normal hc, sign16_f16enc, hexp, hman, Nat.sub_add_cancel (by omega),
    Nat.div_mul_cancel (Nat.dvd_of_mod_eq_zero hm), word32_fields]

/-- A positive integer up to 2048 has its exponent field in the normal range and its lower 13 mantissa bits clear
(40_float16.md R117). -/
theorem fields_of_small_integer {x : Word32} {n : Nat} (hn : 0 < n) (hn' : n ≤ 2048) (h : mag32 x = n * 2 ^ 149) :
    113 ≤ exp32 x ∧ exp32 x ≤ 142 ∧ man32 x % 2 ^ 13 = 0 := by
  have hlow : 127 ≤ exp32 x := by
    by_contra hlt
    have := mag32_lt_of_exp32_lt (e := 127) (Nat.lt_of_not_le hlt)
    omega
  have hhigh : exp32 x ≤ 138 := by
    by_contra hlt
    have := le_mag32_of_le_exp32 (e := 139) (by decide) (Nat.lt_of_not_le hlt)
    omega
  obtain ⟨d, hd, he⟩ : ∃ d, d ≤ 11 ∧ exp32 x = 127 + d := ⟨exp32 x - 127, by omega, by omega⟩
  have hm := man32_lt x
  rw [mag32_of_exp_pos (by omega), he] at h
  refine ⟨by omega, by omega, ?_⟩
  interval_cases d <;> omega

/-- Settles O31: 0 has the zero pattern, a positive integer up to 2048 is exact in the normal range. -/
theorem smallIntegersSurviveF16 : Obligations.SmallIntegersSurviveF16 := by
  refine ⟨fun x n hn hs hfin hx => ?_, by decide, by decide, by decide, by decide⟩
  rcases Nat.eq_zero_or_pos n with rfl | hpos
  · have hexp : exp32 x = 0 := by
      by_contra he
      have := le_mag32 (Nat.pos_of_ne_zero he)
      have := Nat.two_pow_pos (exp32 x + 22)
      omega
    have hman : man32 x = 0 := by
      rwa [mag32, if_pos hexp, Nat.zero_mul] at hx
    rw [← word32_fields x, hs, hexp, hman]
    decide
  · obtain ⟨he, he', hm⟩ := fields_of_small_integer hpos hn hx
    exact f16dec_f16enc_of_normal he he' hm

end Sys2Proof.Machine

/-! PROOFS. The statements of 41_bfloat16.md: `bf16.enc` (R131, R132), `bf16.dec` (R134), the round trips (R136) and how
the two encoders differ (R139). -/

namespace Sys2Proof.Machine

open Sys2Proof.Claims

/-! ### `bf16.enc`: the fields of the upper half -/

@[simp] theorem sign16_bf16enc (x : Word32) : sign16 (bf16enc x) = sign32 x := by
  apply BitVec.eq_of_toNat_eq
  rw [sign16_eq, bf16enc_toNat, sign32_eq]
  omega

@[simp] theorem expBF16_bf16enc (x : Word32) : expBF16 (bf16enc x) = exp32 x := by
  rw [expBF16_eq, bf16enc_toNat, exp32_eq]
  omega

@[simp] theorem manBF16_bf16enc (x : Word32) : manBF16 (bf16enc x) = man32 x / 2 ^ 16 := by
  rw [manBF16_eq, bf16enc_toNat, man32_eq]
  omega

@[simp] theorem quietBF16_bf16enc (x : Word32) : quietBF16 (bf16enc x) = quiet32 x := by
  simp [quietBF16, bf16enc, quiet32]

theorem low15_bf16enc (x : Word32) : low15 (bf16enc x) = low31 x / 2 ^ 16 := by
  rw [low15, bf16enc_toNat, low31]
  omega

/-- The exponent field and the mantissa's seven upper bits decide the class of the upper half. -/
theorem classBF16_bf16enc (x : Word32) : classBF16 (bf16enc x) = classOf 255 (exp32 x) (man32 x / 2 ^ 16) := by
  rw [classBF16, expBF16_bf16enc, manBF16_bf16enc]

/-- A code's magnitude in the units of a binary32 mantissa. -/
theorem magBF16_eq (b : Code) : magBF16 b =
    if expBF16 b = 0 then manBF16 b * 2 ^ 16 else (2 ^ 23 + manBF16 b * 2 ^ 16) * 2 ^ (expBF16 b - 1) := by
  rw [magBF16]
  congr 1
  ring

/-- Truncation rounds toward zero (41_bfloat16.md R132). -/
theorem magBF16_bf16enc_le (x : Word32) : magBF16 (bf16enc x) ≤ mag32 x := by
  have hm : man32 x / 2 ^ 16 * 2 ^ 16 ≤ man32 x := Nat.div_mul_le_self ..
  rw [magBF16_eq, mag32, expBF16_bf16enc, manBF16_bf16enc]
  split
  · exact hm
  · exact Nat.mul_le_mul_right _ (Nat.add_le_add_left hm _)

/-- A NaN whose payload lies in the low half alone becomes the infinity of its sign (41_bfloat16.md R132). -/
theorem bf16enc_of_low_payload {x : Word32} (he : exp32 x = 255) (hm : man32 x / 2 ^ 16 = 0) :
    bf16enc x = signedCode (sign32 x) 0x7F80 := by
  apply BitVec.eq_of_toNat_eq
  rw [toNat_eq_fieldsBF16, sign16_bf16enc, expBF16_bf16enc, manBF16_bf16enc, he, hm, signedCode_toNat]
  omega

/-- Settles O33: each row of the table by the fields of the upper half. -/
theorem bf16EncTruncates : Obligations.Bf16EncTruncates := by
  refine ⟨fun x => ⟨bf16enc_toNat x, sign16_bf16enc x, fun _ hlow => ?_, fun hc hlow => ?_, fun hc => ?_,
    fun hc hm => ?_, fun hc hm => ?_⟩, by decide, by decide, by decide, by decide, by decide⟩
  · rw [low15_bf16enc, Nat.div_eq_of_lt hlow]
  · obtain ⟨he, -⟩ := (classOf_eq_subnormal_iff ..).mp hc
    rw [low31_eq_fields] at hlow
    rw [classBF16_bf16enc, classOf_eq_subnormal_iff]
    exact ⟨he, by omega⟩
  · have hfields := (classOf_eq_normal_iff ..).mp hc
    rw [classBF16_bf16enc, classOf_eq_normal_iff]
    exact ⟨hfields, expBF16_bf16enc x, magBF16_bf16enc_le x⟩
  · obtain ⟨he, -⟩ := (classOf_eq_nan_iff ..).mp hc
    rw [classBF16_bf16enc, classOf_eq_nan_iff]
    exact ⟨⟨he, hm⟩, manBF16_bf16enc x, quietBF16_bf16enc x⟩
  · exact bf16enc_of_low_payload ((classOf_eq_nan_iff ..).mp hc).1 hm

/-! ### `bf16.dec`: the word whose upper half is the code -/

@[simp] theorem bf16enc_bf16dec (b : Code) : bf16enc (bf16dec b) = b := by
  apply BitVec.eq_of_toNat_eq
  rw [bf16enc_toNat, bf16dec_toNat, Nat.mul_div_cancel _ (by decide)]

/-- Decoding after truncating clears the low half (41_bfloat16.md R136). -/
theorem bf16dec_bf16enc (x : Word32) : bf16dec (bf16enc x) = x &&& 0xFFFF0000 := by
  have hlow : (x.toNat &&& 0xFFFF0000) % 2 ^ 16 = 0 := by
    rw [Nat.and_mod_two_pow]
    exact Nat.and_zero _
  have hhigh : (x.toNat &&& 0xFFFF0000) / 2 ^ 16 = x.toNat / 2 ^ 16 := by
    have := x.isLt
    rw [Nat.and_div_two_pow, show 0xFFFF0000 / 2 ^ 16 = 2 ^ 16 - 1 from rfl, Nat.and_two_pow_sub_one_eq_mod]
    omega
  apply BitVec.eq_of_toNat_eq
  rw [bf16dec_toNat, bf16enc_toNat, BitVec.toNat_and, ← hhigh]
  exact Nat.div_mul_cancel (Nat.dvd_of_mod_eq_zero hlow)

@[simp] theorem sign32_bf16dec (b : Code) : sign32 (bf16dec b) = sign16 b := by
  rw [← sign16_bf16enc, bf16enc_bf16dec]

@[simp] theorem exp32_bf16dec (b : Code) : exp32 (bf16dec b) = expBF16 b := by
  rw [← expBF16_bf16enc, bf16enc_bf16dec]

@[simp] theorem quiet32_bf16dec (b : Code) : quiet32 (bf16dec b) = quietBF16 b := by
  rw [← quietBF16_bf16enc, bf16enc_bf16dec]

@[simp] theorem man32_bf16dec (b : Code) : man32 (bf16dec b) = manBF16 b * 2 ^ 16 := by
  rw [man32_eq, bf16dec_toNat, manBF16_eq]
  omega

/-- A mantissa is zero exactly if it is zero with sixteen zero bits below, so the classes agree. -/
@[simp] theorem class32_bf16dec (b : Code) : class32 (bf16dec b) = classBF16 b := by
  have hzero : manBF16 b * 2 ^ 16 = 0 ↔ manBF16 b = 0 := by omega
  simp only [class32, classBF16, classOf, exp32_bf16dec, man32_bf16dec, hzero]

@[simp] theorem mag32_bf16dec (b : Code) : mag32 (bf16dec b) = magBF16 b := by
  rw [mag32, exp32_bf16dec, man32_bf16dec, magBF16_eq]

/-- Settles O34: the fields of the word are those of the code, the mantissa with sixteen zero bits below. -/
theorem bf16DecIsExact : Obligations.Bf16DecIsExact :=
  ⟨fun b => ⟨bf16dec_toNat b, class32_bf16dec b, sign32_bf16dec b, quiet32_bf16dec b, mag32_bf16dec b⟩, by decide⟩

/-- Settles O35: the code is the upper half of its word; truncation clears the low half of an operand. -/
theorem bf16RoundTrips : Obligations.Bf16RoundTrips :=
  ⟨bf16enc_bf16dec, bf16dec_bf16enc, fun x => bf16dec_toNat (bf16encr x)⟩

/-! ### `bf16.enc.rne` beside `bf16.enc` -/

/-- A NaN is truncated and quieted (41_bfloat16.md R138). -/
theorem bf16encr_of_nan {x : Word32} (hc : class32 x = .nan) : bf16encr x = bf16enc x ||| 0x0040 :=
  if_pos ((classOf_eq_nan_iff ..).mp hc)

/-- The lower bits of an operand that is no NaN stop at infinity (10_state.md R27). -/
theorem low31_le_of_not_nan {x : Word32} (hc : class32 x ≠ .nan) : low31 x ≤ 0x7F800000 := by
  have he := exp32_lt x
  have hm := man32_lt x
  rw [class32, Ne, classOf_eq_nan_iff] at hc
  rw [low31_eq_fields]
  omega

/-- The sum of 41_bfloat16.md R138 stays below 2^32 for an operand that is no NaN, so nothing of it is cut off. -/
theorem bf16encr_toNat_of_not_nan {x : Word32} (hc : class32 x ≠ .nan) :
    (bf16encr x).toNat = (x.toNat + 0x7FFF + x.toNat / 2 ^ 16 % 2) / 2 ^ 16 := by
  have hx := x.isLt
  have hlow := low31_le_of_not_nan hc
  rw [low31] at hlow
  rw [bf16encr_toNat (mt (classOf_eq_nan_iff ..).mpr hc), Nat.mod_eq_of_lt]
  omega

/-- Bit 16 of an operand is the parity of its upper half. -/
theorem getLsbD_sixteen_eq_false_iff (x : Word32) : x.getLsbD 16 = false ↔ x.toNat / 2 ^ 16 % 2 = 0 := by
  rw [BitVec.getLsbD, Nat.testBit_eq_decide_div_mod_eq, decide_eq_false_iff_not]
  omega

/-- Settles O38: the increment reaches bit 16 of the sum exactly if the low half is above the tie, or at the tie with an
odd upper half. -/
theorem bf16EncodersDiffer : Obligations.Bf16EncodersDiffer := by
  refine fun x => ⟨fun hc hdown => BitVec.eq_of_toNat_eq ?_, fun hc hup => ?_, bf16encr_of_nan⟩
  · rw [getLsbD_sixteen_eq_false_iff] at hdown
    rw [bf16encr_toNat_of_not_nan hc, bf16enc_toNat]
    omega
  · rw [getLsbD_sixteen_eq_false_iff] at hup
    rw [bf16encr_toNat_of_not_nan hc, bf16enc_toNat]
    omega

end Sys2Proof.Machine

/-! PROOFS. The statements of 42_lanes_and_batch.md: lanes (R150), batches of any lane count (R152), and the scenario of
R159. -/

namespace Sys2Proof.Machine

open Sys2Proof.Safety Sys2Proof.Claims

/-! ### Lanes -/

/-- The scalar function of `op` on a lane given as a number, which is how memory and the ports carry it. -/
def Op.scalarNat (op : Op) (x : Nat) : Nat :=
  match Op.scalar op with
  | .narrowing f => (f (BitVec.ofNat 32 x)).toNat
  | .widening f => (f (BitVec.ofNat 16 x)).toNat

/-- Of a vector, the scalar function in lane `k` reads operand lane `k` alone. -/
theorem Op.scalarLane_eq (op : Op) (v : DataVec) (k : Nat) :
    Op.scalarLane op v k = Op.scalarNat op (operandLane op v k) := by
  have hwide : BitVec.ofNat 32 (wideLane v k).toNat = wideLane v k := by simp
  have hnarrow : BitVec.ofNat 16 (narrowLane v k).toNat = narrowLane v k := by simp
  cases op with
  | f16Enc | bf16Enc | bf16EncRne =>
    simp only [Op.scalarLane, Op.scalarNat, Op.scalar, operandLane, Op.format, hwide]
  | f16Dec | bf16Dec =>
    simp only [Op.scalarLane, Op.scalarNat, Op.scalar, operandLane, Op.format, hnarrow]

/-- Settles O17: a result lane is the scalar function of its operand lane, and nothing else of the vector enters it. -/
theorem lanesAreIndependent : Obligations.LanesAreIndependent := by
  intro L op v v' k hk
  refine ⟨laneOf_respond_code op v hk, fun h => ?_⟩
  rw [laneOf_respond_code op v hk, laneOf_respond_code op v' hk, Op.scalarLane_eq, Op.scalarLane_eq, h]

/-! ### Elements -/

/-- A result fits the bytes of a destination element. -/
theorem Op.scalarNat_lt (op : Op) (x : Nat) : Op.scalarNat op x < 256 ^ dstBytes op := by
  cases op with
  | f16Enc | f16Dec | bf16Enc | bf16Dec | bf16EncRne => exact BitVec.isLt _

/-- A batch stores the scalar function of the number it reads. -/
theorem elementResult_eq (b : Batch) (m : Memory) (k : Nat) :
    elementResult b m k = Op.scalarNat b.op (sourceElement b m k) := by
  obtain ⟨op, dst, src, n⟩ := b
  cases op with
  | f16Enc | f16Dec | bf16Enc | bf16Dec | bf16EncRne => rfl

/-- A lane of a packed operand is the number packed there. -/
theorem operandLane_packOperand {L : LaneCount} {op : Op} {f : Nat → Nat} {i : Nat} (hi : i < L.count)
    (hf : f i < 256 ^ srcBytes op) : operandLane op (packOperand L op f) i = f i := by
  unfold srcBytes at hf
  unfold operandLane packOperand
  cases hop : op.format with
  | enc =>
    rw [hop] at hf
    simp only [wideLane_packWide, if_pos hi, BitVec.toNat_ofNat]
    exact Nat.mod_eq_of_lt hf
  | dec =>
    rw [hop] at hf
    simp only [narrowLane_packNarrow, if_pos hi, BitVec.toNat_ofNat]
    exact Nat.mod_eq_of_lt hf

/-- Result lane `i` of round `j`, below `cnt`, is what the batch stores for element `j * LANES + i`. -/
theorem resultLane_round {L : LaneCount} {b : Batch} {m : Memory} {i j : Nat} (hi : i < roundCount L b j) :
    resultLane b.op ((Op.scalar b.op).lanes L (roundOperand L b m j)) i = elementResult b m (j * L.count + i) := by
  have hL : i < L.count := lt_of_lt_of_le hi (min_le_left ..)
  have hlane : operandLane b.op (roundOperand L b m j) i = sourceElement b m (j * L.count + i) := by
    rw [roundOperand, operandLane_packOperand hL, if_pos hi]
    rw [if_pos hi]
    exact memRead_lt ..
  have hres := laneOf_respond_code b.op (roundOperand L b m j) hL
  rw [respond_code, Op.scalarLane_eq, hlane, ← elementResult_eq] at hres
  exact hres

/-! ### The memory of a batch, element by element

The memory after any number of rounds is that of so many stored elements, in which no lane count appears. -/

/-- `m` with the first `k` results of a batch stored, each computed from `m`. -/
def converted (b : Batch) (m : Memory) (k : Nat) : Memory :=
  (List.range k).foldl (fun m' i => storeElement b m' i (elementResult b m i)) m

theorem converted_succ (b : Batch) (m : Memory) (k : Nat) :
    converted b m (k + 1) = storeElement b (converted b m k) k (elementResult b m k) := by
  simp [converted, List.range_succ]

theorem converted_add (b : Batch) (m : Memory) (k c : Nat) : converted b m (k + c) =
    (List.range c).foldl (fun m' i => storeElement b m' (k + i) (elementResult b m (k + i))) (converted b m k) := by
  simp [converted, List.range_add, List.foldl_map]

section Converted
variable {b : Batch} {m : Memory} (h : Memory.wf m)
include h

theorem wf_converted (k : Nat) : Memory.wf (converted b m k) := by
  induction k with
  | zero => exact h
  | succ k ih => rw [converted_succ]; exact wf_memWrite ih ..

/-- Storing results leaves every read that shares no byte with the stored elements. -/
theorem memRead_converted_of_disjoint {a l k : Nat} (hd : a + l ≤ b.dst ∨ b.dst + dstBytes b.op * k ≤ a) :
    memRead (converted b m k) a l = memRead m a l := by
  induction k with
  | zero => rfl
  | succ k ih =>
    rw [Nat.mul_succ] at hd
    rw [converted_succ, storeElement, memRead_memWrite_of_disjoint (wf_converted h k) _ (by omega), ih (by omega)]

/-- Each stored element reads back as its result. -/
theorem memRead_converted {i k : Nat} (hi : i < k) :
    memRead (converted b m k) (b.dst + dstBytes b.op * i) (dstBytes b.op) = elementResult b m i := by
  induction k with
  | zero => cases hi
  | succ k ih =>
    rw [converted_succ, storeElement]
    rcases Nat.lt_or_eq_of_le (Nat.le_of_lt_succ hi) with hlt | rfl
    · rw [memRead_memWrite_element_ne (wf_converted h k) _ _ (Nat.ne_of_lt hlt), ih hlt]
    · rw [memRead_memWrite_self (wf_converted h i), elementResult_eq, Nat.mod_eq_of_lt (Op.scalarNat_lt ..)]

/-- A batch with disjoint ranges leaves its source elements as they were (42_lanes_and_batch.md R156 (b)). -/
theorem sourceElement_converted {i k : Nat} (hd : batchDisjoint b = true) (hk : k ≤ b.n) (hi : i < b.n) :
    sourceElement b (converted b m k) i = sourceElement b m i := by
  have hdst : dstBytes b.op * k ≤ dstBytes b.op * b.n := Nat.mul_le_mul_left _ hk
  have hsrc : srcBytes b.op * (i + 1) ≤ srcBytes b.op * b.n := Nat.mul_le_mul_left _ hi
  rw [Nat.mul_succ] at hsrc
  have hcases := of_decide_eq_true hd
  exact memRead_converted_of_disjoint h (by omega)

end Converted

/-! ### Rounds -/

/-- Round `j` is one of the batch's exactly if its first element is (42_lanes_and_batch.md R153). -/
theorem lt_batchRequests_iff {L : LaneCount} {n j : Nat} : j < batchRequests L n ↔ j * L.count < n := by
  have hL := LaneCount.count_pos L
  rw [batchRequests, Nat.lt_iff_add_one_le, Nat.le_div_iff_mul_le hL, Nat.succ_mul]
  omega

/-- The real lanes of round `j` are the elements from `j * LANES` up to the next round's first, or the last. -/
theorem add_roundCount {L : LaneCount} {b : Batch} {j : Nat} (hj : j * L.count < b.n) :
    j * L.count + roundCount L b j = min b.n ((j + 1) * L.count) := by
  rw [roundCount, Nat.succ_mul]
  omega

/-- Round `j` stores the results of its own elements after those of the rounds before. -/
theorem storeRound_converted {L : LaneCount} {b : Batch} (m : Memory) {j : Nat} (hj : j * L.count < b.n) :
    storeRound L b j ((Op.scalar b.op).lanes L (roundOperand L b m j)) (converted b m (min b.n (j * L.count))) =
      converted b m (min b.n ((j + 1) * L.count)) := by
  rw [min_eq_right (Nat.le_of_lt hj), ← add_roundCount hj, converted_add, storeRound]
  refine List.foldl_ext _ _ _ fun m' i hi => ?_
  rw [resultLane_round (List.mem_range.mp hi)]

section Rounds
variable {b : Batch} {m : Memory} (h : Memory.wf m) (hd : batchDisjoint b = true)
include h hd

/-- The operand of a round is the same after results are stored: no store reaches a source element. -/
theorem roundOperand_converted (L : LaneCount) (j : Nat) {k : Nat} (hk : k ≤ b.n) :
    roundOperand L b (converted b m k) j = roundOperand L b m j := by
  unfold roundOperand
  congr 1
  funext i
  split
  · next hi =>
    have hi' : i < b.n - j * L.count := lt_of_lt_of_le hi (min_le_right ..)
    exact sourceElement_converted h hd hk (by omega)
  · rfl

/-- `k` rounds from round `j` on, with nothing in flight: one response for each round, in order, and the results of
their elements in memory. -/
theorem batchRounds_eq (k j : Nat) (s : State) (hq : s.queue = [])
    (hm : s.mem = converted b m (min b.n (j * s.params.lanes.count)))
    (hjk : j + k ≤ batchRequests s.params.lanes b.n) :
    batchRounds b k j s = .next { s with
      received := s.received ++ (List.range' j k).map
        (fun i => respond s.params.lanes ⟨b.op.code, roundOperand s.params.lanes b m i⟩)
      mem := converted b m (min b.n ((j + k) * s.params.lanes.count))
      tick := s.tick + k } := by
  induction k generalizing j s with
  | zero => simp [batchRounds, ← hm]
  | succ k ih =>
    have hj : j * s.params.lanes.count < b.n := lt_batchRequests_iff.mp (by omega)
    have hjk' : j + 1 + k = j + (k + 1) := by omega
    have htick : s.tick + 1 + k = s.tick + (k + 1) := by omega
    rw [batchRounds, batchRound_eq, hm, roundOperand_converted h hd _ _ (min_le_left ..), storeRound_converted m hj]
    refine (ih (j + 1) _ rfl rfl (hjk' ▸ hjk)).trans ?_
    simp [hq, hjk', htick, List.range'_succ]

end Rounds

/-! ### Whole batches -/

/-- The first round takes every response still in flight (log 12), so it may as well find none. -/
theorem batchRounds_drain (b : Batch) (k j : Nat) (s : State) :
    batchRounds b (k + 1) j s = batchRounds b (k + 1) j s.drain := by
  simp [batchRounds, batchRound_eq]

/-- The whole effect of a batch (42_lanes_and_batch.md R153): what is in flight is taken, then each request is answered
in order, and every element's result is stored. -/
theorem execBatch_eq {b : Batch} {s : State} (h : Memory.wf s.mem) (hd : batchDisjoint b = true) (hn : 0 < b.n) :
    execBatch b s = .next { s.drain with
      received := responsesInOrder s ++ (List.range (batchRequests s.params.lanes b.n)).map
        (fun j => respond s.params.lanes ⟨b.op.code, roundOperand s.params.lanes b s.mem j⟩)
      mem := converted b s.mem b.n
      tick := s.tick + batchRequests s.params.lanes b.n } := by
  have hpos : 0 < batchRequests s.params.lanes b.n := lt_batchRequests_iff.mpr (by omega)
  have hall : b.n ≤ batchRequests s.params.lanes b.n * s.params.lanes.count :=
    Nat.not_lt.mp (mt lt_batchRequests_iff.mpr (Nat.lt_irrefl _))
  obtain ⟨k, hk⟩ := Nat.exists_eq_add_of_lt hpos
  rw [Nat.zero_add] at hk
  rw [execBatch, if_pos hd, hk, batchRounds_drain, ← hk]
  refine (batchRounds_eq h hd _ 0 s.drain rfl (by simp [converted]) (by simp)).trans ?_
  simp [responsesInOrder, List.range_eq_range', min_eq_left hall]

/-- A batch with elements completes: it leaves nothing in flight and issues `ceil(n / LANES)` requests. -/
theorem execBatch_completes {b : Batch} {s : State} (h : Memory.wf s.mem) (hd : batchDisjoint b = true) (hn : 0 < b.n) :
    ∃ t, execBatch b s = .next t ∧ t.mem = converted b s.mem b.n ∧ t.params = s.params ∧ t.queue = [] ∧
      t.received.length = (responsesInOrder s).length + batchRequests s.params.lanes b.n :=
  ⟨_, execBatch_eq h hd hn, rfl, rfl, rfl, by simp⟩

/-- The memory a batch leaves is that of all its elements, whatever the block. -/
theorem mem_execBatch {b : Batch} {s t : State} (h : Memory.wf s.mem) (ht : execBatch b s = .next t) :
    t.mem = converted b s.mem b.n := by
  cases hd : batchDisjoint b with
  | false => simp [execBatch, hd] at ht
  | true =>
    rcases Nat.eq_zero_or_pos b.n with hn | hn
    · have hnone : batchRequests s.params.lanes b.n = 0 :=
        Nat.eq_zero_of_not_pos (mt lt_batchRequests_iff.mp (by omega))
      rw [execBatch, if_pos hd, hnone, batchRounds] at ht
      cases ht
      rw [hn]
      rfl
    · obtain ⟨u, hu, hum, -⟩ := execBatch_completes h hd hn
      rw [hu] at ht
      cases ht
      exact hum

/-- Settles O45: from one memory both batches store the same elements, and no lane count enters an element. -/
theorem batchIndependentOfLanes : Obligations.BatchIndependentOfLanes := by
  intro s s' t t' b h hmem ht ht'
  rw [mem_execBatch h ht, mem_execBatch (hmem ▸ h) ht', hmem]

/-! ### The scenario of R159 -/

/-- The destination array of `f16.enc.batch`, code by code. -/
theorem codeAt_converted_f16Enc {m : Memory} (h : Memory.wf m) (dst src : Nat) {n k : Nat} (hk : k < n) :
    codeAt (converted ⟨.f16Enc, dst, src, n⟩ m n) dst k = f16enc (wordAt m src k) := by
  have hread : memRead (converted ⟨.f16Enc, dst, src, n⟩ m n) (dst + 2 * k) 2 = (f16enc (wordAt m src k)).toNat :=
    memRead_converted (b := ⟨.f16Enc, dst, src, n⟩) h hk
  rw [codeAt, hread, BitVec.ofNat_toNat, BitVec.setWidth_eq]

/-- The destination array of `f16.dec.batch`, word by word. -/
theorem wordAt_converted_f16Dec {m : Memory} (h : Memory.wf m) (dst src : Nat) {n k : Nat} (hk : k < n) :
    wordAt (converted ⟨.f16Dec, dst, src, n⟩ m n) dst k = f16dec (codeAt m src k) := by
  have hread : memRead (converted ⟨.f16Dec, dst, src, n⟩ m n) (dst + 4 * k) 4 = (f16dec (codeAt m src k)).toNat :=
    memRead_converted (b := ⟨.f16Dec, dst, src, n⟩) h hk
  rw [wordAt, hread, BitVec.ofNat_toNat, BitVec.setWidth_eq]

/-- Settles O47: the second batch reads the codes the first stored, and each receives one response for every round. -/
theorem seventeenElementScenario : Obligations.SeventeenElementScenario := by
  refine ⟨fun s a b c h henc hdec => ?_, rfl, rfl, rfl⟩
  obtain ⟨t, ht, htm, htp, htq, htr⟩ := execBatch_completes h henc (Nat.succ_pos 16)
  have hwf : Memory.wf t.mem := htm ▸ wf_converted h 17
  obtain ⟨u, hu, hum, -, -, hur⟩ := execBatch_completes hwf hdec (Nat.succ_pos 16)
  refine ⟨t, u, ht, hu, fun k hk => ?_, fun hq => ⟨?_, ?_⟩⟩
  · rw [hum, wordAt_converted_f16Dec hwf c b hk, htm, codeAt_converted_f16Enc h b a hk]
  · rw [htr, responsesInOrder, hq, List.map_nil, List.append_nil]
  · rw [hur, responsesInOrder, htq, List.map_nil, List.append_nil, htp]

end Sys2Proof.Machine

/-! PROOFS. The statements of 60_exceptions.md: `rsp_err` (R170, R172). -/

namespace Sys2Proof.Machine

open Sys2Proof.Claims

/-! ### Reserved operation codes -/

/-- The codes that name no operation are the eleven of 30_encoding.md R68. -/
theorem Op.ofCode?_eq_none_iff (c : OpCode) : Op.ofCode? c = none ↔
    c ∈ ([0x4, 0x5, 0x7, 0x8, 0x9, 0xA, 0xB, 0xC, 0xD, 0xE, 0xF] : List OpCode) := by
  revert c
  decide

/-- The response to a code that names no operation. -/
theorem respond_of_none {r : Request} (L : LaneCount) (h : Op.ofCode? r.op = none) : respond L r = .reserved L := by
  simp only [respond, h]

/-- A response has `rsp_err = 1` exactly when its request's code names no operation: the data does not enter. -/
theorem respond_err_iff (L : LaneCount) (r : Request) : (respond L r).err = true ↔ Op.ofCode? r.op = none := by
  cases h : Op.ofCode? r.op with
  | none => simp [respond_of_none L h, Response.reserved]
  | some op => simp [respond, h, Response.ok]

/-- The response to an instruction's request has `rsp_err = 0`, whatever its operands (60_exceptions.md R172). -/
theorem respond_encode_err (L : LaneCount) (i : Instr) : (respond L (encode i)).err = false := by
  rw [encode, respond_code, Response.ok]

/-- An error response has every data lane zero (30_encoding.md R68). -/
theorem wideLane_reserved (L : LaneCount) (k : Nat) : wideLane (Response.reserved L).data k = 0 := by
  rw [Response.reserved, wideLane_packWide, ite_self]

/-- Settles O11: an error response is that of a code naming no operation, and an instruction's code names one. -/
theorem onlyReservedCodesRaiseError : Obligations.OnlyReservedCodesRaiseError := by
  refine ⟨fun L r => (respond_err_iff L r).trans (Op.ofCode?_eq_none_iff r.op), fun L r herr k => ?_, fun i s => ?_⟩
  · rw [respond_of_none L ((respond_err_iff L r).mp herr), wideLane_reserved]
  · obtain ⟨t, e, ht, hq, he⟩ := exec_adds_response i s
    exact ⟨t, e, ht, hq, he, he ▸ respond_encode_err ..⟩

end Sys2Proof.Machine

/-! PROOFS. The statement of 70_reset_and_hazards.md: timing does not depend on operand data (R196). -/

namespace Sys2Proof.Machine.Timing

open Sys2Proof.Safety

/-! ### Lists that look the same -/

section Lists
variable {α β γ δ : Type} {g : α → γ} {g' : β → γ} {l : List α} {l' : List β}

/-- What is a function of the view of each element is the same for two lists of the same view. -/
theorem map_eq_map_of_view {f : α → δ} {f' : β → δ} (h : l.map g = l'.map g') (hf : ∀ a b, g a = g' b → f a = f' b) :
    l.map f = l'.map f' := by
  rw [← List.forall₂_eq_eq_eq, List.forall₂_map_left_iff, List.forall₂_map_right_iff] at h ⊢
  exact h.imp hf

/-- Two lists of the same view have it still after changing the same place in the same way. -/
theorem map_modify_eq_of_view {f : α → α} {f' : β → β} (k : Nat) (h : l.map g = l'.map g')
    (hf : ∀ a b, g a = g' b → g (f a) = g' (f' b)) : (l.modify k f).map g = (l'.modify k f').map g' := by
  induction l generalizing l' k with
  | nil =>
    obtain rfl : l' = [] := by simpa using h.symm
    simp
  | cons a l ih =>
    cases l' with
    | nil => cases h
    | cons b l' =>
      obtain ⟨hab, hl⟩ := List.cons.inj h
      cases k with
      | zero => exact congrArg₂ List.cons (hf a b hab) hl
      | succ k => exact congrArg₂ List.cons hab (ih k hl)

/-- Whether a key is listed depends on the keys alone. -/
theorem isSome_lookup_eq (i : Nat) (l : List (Nat × Nat)) : (l.lookup i).isSome = (l.map Prod.fst).contains i := by
  induction l with
  | nil => rfl
  | cons p l ih =>
    rw [List.lookup_cons, List.map_cons, List.contains_cons, ← ih]
    cases i == p.1 <;> rfl

end Lists

/-! ### The view, field by field -/

/-- Two states have the same view exactly when they have it in each field. -/
theorem timingView_eq_iff {s t : State} : timingView s = timingView t ↔
    s.params = t.params ∧ (s.queue.map fun e => (e.op, e.wait)) = t.queue.map (fun e => (e.op, e.wait)) ∧
      s.rounds.map (roundTiming s.received.length) = t.rounds.map (roundTiming t.received.length) ∧
      s.moves.map eraseData = t.moves.map eraseData ∧ s.tick = t.tick := by
  simp only [timingView, TimingView.mk.injEq]

/-- Two rounds in hand have the same view exactly when they have it in each field. -/
theorem roundTiming_eq_iff {n m : Nat} {r q : Round} : roundTiming n r = roundTiming m q ↔
    r.batch = q.batch ∧ r.j = q.j ∧ r.loaded.map Prod.fst = q.loaded.map Prod.fst ∧
      (r.ticket.map fun k => k + 1 - n) = q.ticket.map fun k => k + 1 - m := by
  simp only [roundTiming, RoundTiming.mk.injEq]

/-- Two edges differ only in operand bits exactly when the other pins are the same. -/
theorem eraseData_drive_eq_iff {p q : Pins} : eraseData (.drive p) = eraseData (.drive q) ↔
    p.rstN = q.rstN ∧ p.reqValid = q.reqValid ∧ p.reqOp = q.reqOp ∧ p.rspReady = q.rspReady := by
  simp only [eraseData, HostMove.drive.injEq, Pins.mk.injEq, true_and]

/-! ### Rounds of the same view -/

/-- Of the tickets the host keeps counting on at a reset: those whose place is 0. -/
theorem place_filter_lt (ticket : Option Nat) (n : Nat) :
    (ticket.filter fun k => decide (k < n)).map (fun k => k + 1 - n) =
      (ticket.map fun k => k + 1 - n).filter fun place => decide (place = 0) := by
  cases ticket with
  | none => rfl
  | some k =>
    have hk : k < n ↔ k + 1 - n = 0 := by omega
    simp only [Option.filter_some, Option.map_some, hk]
    split <;> rfl

/-- A round not accepted yet has no place, however many responses are taken. -/
theorem roundTiming_of_ticket_none {r : Round} (h : r.ticket = none) (n : Nat) : roundTiming n r = roundTiming 0 r := by
  simp [roundTiming, h]

/-- Rounds just taken in hand look the same however many responses are taken. -/
theorem map_roundTiming_freshRounds (L : LaneCount) (b : Batch) (n : Nat) :
    (freshRounds L b).map (roundTiming n) = (freshRounds L b).map (roundTiming 0) := by
  refine List.map_congr_left fun r hr => roundTiming_of_ticket_none ?_ n
  obtain ⟨j, -, rfl⟩ := List.mem_map.mp hr
  rfl

section Round
variable {n m : Nat} {r q : Round} (h : roundTiming n r = roundTiming m q)
include h

/-- After as many more responses are taken the views are the same. -/
theorem roundTiming_add_congr (c : Nat) : roundTiming (n + c) r = roundTiming (m + c) q := by
  obtain ⟨hb, hj, hl, ht⟩ := roundTiming_eq_iff.mp h
  have hc := congrArg (Option.map (· - c)) ht
  simp only [Option.map_map, Function.comp_def, Nat.sub_sub] at hc
  exact roundTiming_eq_iff.mpr ⟨hb, hj, hl, hc⟩

/-- Both rounds have been accepted, or neither. -/
theorem ticket_eq_none_congr : r.ticket = none ↔ q.ticket = none := by
  obtain ⟨-, -, -, ht⟩ := roundTiming_eq_iff.mp h
  rw [← Option.map_eq_none_iff, ht, Option.map_eq_none_iff]

/-- A response is lost for both or for neither: it is taken exactly when its place is 0. -/
theorem roundTiming_lose_congr : roundTiming n (r.lose n) = roundTiming m (q.lose m) := by
  obtain ⟨hb, hj, hl, ht⟩ := roundTiming_eq_iff.mp h
  refine roundTiming_eq_iff.mpr ⟨hb, hj, hl, ?_⟩
  simp only [Round.lose_ticket, place_filter_lt, ht]

/-- A lane is read in both rounds or in neither. -/
theorem isSome_lookup_congr (i : Nat) : (r.loaded.lookup i).isSome = (q.loaded.lookup i).isSome := by
  obtain ⟨-, -, hl, -⟩ := roundTiming_eq_iff.mp h
  rw [isSome_lookup_eq, isSome_lookup_eq, hl]

/-- Both rounds have the same real lanes. -/
theorem cnt_congr (L : LaneCount) : r.cnt L = q.cnt L := by
  obtain ⟨hb, hj, -, -⟩ := roundTiming_eq_iff.mp h
  rw [Round.cnt, Round.cnt, hb, hj]

/-- Both rounds have every real lane read, or neither. -/
theorem ready_congr (L : LaneCount) : r.ready L = q.ready L := by
  simp only [Round.ready, cnt_congr h, isSome_lookup_congr h]

/-- Reading a lane reads it in both rounds or in neither, whatever the memories hold. -/
theorem roundTiming_load_congr (L : LaneCount) (a b : Memory) (i : Nat) :
    roundTiming n (r.load L a i) = roundTiming m (q.load L b i) := by
  have hread : r.loaded.lookup i = none ↔ q.loaded.lookup i = none := by
    simp only [← Option.not_isSome_iff_eq_none, isSome_lookup_congr h]
  have hcond : (i < r.cnt L ∧ r.ticket = none ∧ r.loaded.lookup i = none) ↔
      (i < q.cnt L ∧ q.ticket = none ∧ q.loaded.lookup i = none) := by
    rw [cnt_congr h, ticket_eq_none_congr h, hread]
  obtain ⟨hb, hj, hl, ht⟩ := roundTiming_eq_iff.mp h
  unfold Round.load
  by_cases hq : i < q.cnt L ∧ q.ticket = none ∧ q.loaded.lookup i = none
  · rw [if_pos hq, if_pos (hcond.mpr hq)]
    exact roundTiming_eq_iff.mpr ⟨hb, hj, congrArg (i :: ·) hl, ht⟩
  · rw [if_neg hq, if_neg (mt hcond.mp hq)]
    exact h

end Round

/-! ### Pins and outcomes -/

/-- `rsp_valid` is read off the first wait in flight. -/
theorem rspValid_eq_head (s : State) (r : Bool) :
    s.rspValid r = (r && ((s.queue.map fun e => (e.op, e.wait)).head?.any fun e => decide (e.2 = 0))) := by
  unfold State.rspValid
  cases s.queue <;> rfl

/-- The outcome as timing may depend on it: the view of the next state, or that there is none. -/
def timingOf : Outcome → Option TimingView
  | .next s => some (timingView s)
  | .fault _ => none
  | .refused _ => none

/-! ### An `ask` edge -/

/-- An edge keeps the number of the next accepted request's response. -/
theorem nextTicket_restOfEdge (p : Pins) (s : State) : (restOfEdge p s).nextTicket = s.nextTicket := by
  simpa [responsesInOrder, State.nextTicket] using congrArg List.length (responsesInOrder_restOfEdge p s)

section Ask
variable {k : Nat} {rdy : Bool} {s : State}

/-- An `ask` move that accepts nothing is the rest of its edge. -/
theorem askRound_of_accepts_none (ha : acceptedRequest (askPins k rdy s) s = none) :
    askRound k rdy s = .next (restOfEdge (askPins k rdy s) s) := by
  rcases askRound_cases k rdy s with ⟨-, h⟩ | ⟨r, -, -, -, -, hr, -⟩
  · exact h
  · cases ha.symm.trans hr

/-- An `ask` move that accepts a request answers it and notes which response it will have. -/
theorem askRound_of_accepts_some {q : Request} (ha : acceptedRequest (askPins k rdy s) s = some q) :
    askRound k rdy s = .next (((restOfEdge (askPins k rdy s) s).answer q.op q.data
      (respond s.params.lanes q)).noteTicket k s.nextTicket) := by
  rcases askRound_cases k rdy s with ⟨hn, -⟩ | ⟨r, -, -, -, -, hr, h⟩
  · cases ha.symm.trans hn
  · obtain rfl : q = r.request s.params.lanes := Option.some.inj (ha.symm.trans hr)
    exact h

end Ask

/-! ### Operations on states of the same view -/

/-- Storing a lane changes nothing that timing may depend on. -/
@[simp] theorem timingView_writeLane (k i : Nat) (s : State) : timingView (s.writeLane k i) = timingView s := by
  rcases s.writeLane_cases k i with h | ⟨r, v, hw, h⟩
  · rw [h]
  · obtain ⟨hr, -⟩ := State.toWrite_eq_some.mp hw
    obtain ⟨hk, rfl⟩ := List.getElem?_eq_some_iff.mp hr
    rw [h]
    refine timingView_eq_iff.mpr ⟨rfl, rfl, ?_, rfl, rfl⟩
    rw [List.map_set]
    exact (congrArg _ (List.getElem_map _).symm).trans (List.set_getElem_self (by simpa using hk))

section State
variable {s t : State} (h : timingView s = timingView t)
include h

/-- As many requests are in flight in both blocks. -/
theorem queue_length_congr : s.queue.length = t.queue.length := by
  obtain ⟨-, hq, -⟩ := timingView_eq_iff.mp h
  simpa using congrArg List.length hq

/-- Both blocks are ready for a request, or neither. -/
theorem reqReady_congr (r : Bool) : s.reqReady r = t.reqReady r := by
  obtain ⟨hp, -⟩ := timingView_eq_iff.mp h
  rw [State.reqReady, State.reqReady, queue_length_congr h, hp]

/-- Both blocks offer a response, or neither. -/
theorem rspValid_congr (r : Bool) : s.rspValid r = t.rspValid r := by
  obtain ⟨-, hq, -⟩ := timingView_eq_iff.mp h
  rw [rspValid_eq_head, rspValid_eq_head, hq]

/-- Taking the head brings every awaited response one place nearer, whatever the response is. -/
theorem takeHead_congr : timingView s.takeHead = timingView t.takeHead := by
  obtain ⟨hp, hq, hr, hm, hk⟩ := timingView_eq_iff.mp h
  rcases s.takeHead_cases with ⟨hs, hs'⟩ | ⟨e, l, hs, hs'⟩ <;>
    rcases t.takeHead_cases with ⟨ht, ht'⟩ | ⟨e', l', ht, ht'⟩
  · rw [hs', ht', h]
  · simp [hs, ht] at hq
  · simp [hs, ht] at hq
  · rw [hs, ht] at hq
    rw [hs', ht']
    refine timingView_eq_iff.mpr ⟨hp, List.tail_eq_of_cons_eq hq, ?_, hm, hk⟩
    simp only [List.length_append]
    exact map_eq_map_of_view hr fun _ _ h => roundTiming_add_congr h 1

/-- An edge counts the same waits down. -/
theorem passEdge_congr : timingView s.passEdge = timingView t.passEdge := by
  obtain ⟨hp, hq, hr, hm, hk⟩ := timingView_eq_iff.mp h
  refine timingView_eq_iff.mpr ⟨hp, ?_, hr, hm, congrArg (· + 1) hk⟩
  have := congrArg (List.map fun e => (e.1, e.2 - 1)) hq
  simpa [Function.comp_def] using this

/-- A reset empties both queues and loses the responses of the same rounds. -/
theorem resetBlock_congr : timingView s.resetBlock = timingView t.resetBlock := by
  obtain ⟨hp, -, hr, hm, hk⟩ := timingView_eq_iff.mp h
  refine timingView_eq_iff.mpr ⟨hp, rfl, ?_, hm, congrArg (· + 1) hk⟩
  simp only [State.resetBlock_rounds, State.resetBlock_received, List.map_map]
  exact map_eq_map_of_view hr fun _ _ h => roundTiming_lose_congr h

/-- The wait of an accepted request depends on its operation code, never on its operand or response (R196). -/
theorem answer_congr (op : OpCode) (d d' : DataVec) (r r' : Response) :
    timingView (s.answer op d r) = timingView (t.answer op d' r') := by
  obtain ⟨hp, hq, hr, hm, hk⟩ := timingView_eq_iff.mp h
  refine timingView_eq_iff.mpr ⟨hp, ?_, hr, hm, hk⟩
  simp [hq, hp, hk, queue_length_congr h]

/-- Taking every response in flight takes as many of both blocks. -/
theorem drain_congr : timingView s.drain = timingView t.drain := by
  obtain ⟨hp, hq, hr, hm, hk⟩ := timingView_eq_iff.mp h
  refine timingView_eq_iff.mpr ⟨hp, rfl, ?_, hm, hk⟩
  simp only [State.drain_rounds, State.drain_received, List.length_append, List.length_map, queue_length_congr h]
  exact map_eq_map_of_view hr fun _ _ h => roundTiming_add_congr h _

/-- A lane is read whatever the memories hold. -/
theorem loadLane_congr (k i : Nat) : timingView (s.loadLane k i) = timingView (t.loadLane k i) := by
  obtain ⟨hp, hq, hr, hm, hk⟩ := timingView_eq_iff.mp h
  refine timingView_eq_iff.mpr ⟨hp, hq, ?_, hm, hk⟩
  simp only [State.loadLane_rounds, State.loadLane_received, hp]
  exact map_modify_eq_of_view k hr fun _ _ h => roundTiming_load_congr h ..

/-- The `k`-th round counts in both states on the response in the same place of the queue. -/
theorem noteTicket_congr (k : Nat) {n m : Nat} (hnm : n + 1 - s.received.length = m + 1 - t.received.length) :
    timingView (s.noteTicket k n) = timingView (t.noteTicket k m) := by
  obtain ⟨hp, hq, hr, hm, hk⟩ := timingView_eq_iff.mp h
  refine timingView_eq_iff.mpr ⟨hp, hq, ?_, hm, hk⟩
  refine map_modify_eq_of_view k hr fun a b hab => ?_
  obtain ⟨hb, hj, hl, -⟩ := roundTiming_eq_iff.mp hab
  exact roundTiming_eq_iff.mpr ⟨hb, hj, hl, congrArg some hnm⟩

/-- A batch is refused, or brings the same rounds, none of them with a response yet. -/
theorem timingOf_startBatch_congr (b : Batch) : timingOf (startBatch b s) = timingOf (startBatch b t) := by
  obtain ⟨hp, hq, hr, hm, hk⟩ := timingView_eq_iff.mp h
  rcases startBatch_cases b s with ⟨hd, hs⟩ | ⟨hd, hs⟩
  · rw [hs, startBatch, if_pos hd]
    refine congrArg some (timingView_eq_iff.mpr ⟨hp, hq, ?_, hm, hk⟩)
    simp only [List.map_append, hr, hp, map_roundTiming_freshRounds _ _ (List.length _)]
  · rw [hs, startBatch, hd]
    rfl

/-- The `k`-th round offers a request in both states or in neither, of the same operation code. -/
theorem toAsk_op_congr (k : Nat) : (s.toAsk k).map Request.op = (t.toAsk k).map Request.op := by
  obtain ⟨hp, -, hr, -⟩ := timingView_eq_iff.mp h
  have hk := congrArg (·[k]?) hr
  simp only [List.getElem?_map] at hk
  unfold State.toAsk
  cases hs : s.rounds[k]? with
  | none =>
    rw [hs, Option.map_none, eq_comm, Option.map_eq_none_iff] at hk
    rw [hk]
  | some r =>
    rw [hs, Option.map_some, eq_comm, Option.map_eq_some_iff] at hk
    obtain ⟨q, ht, hq⟩ := hk
    have hb : q.batch = r.batch := (roundTiming_eq_iff.mp hq).1
    simp only [ht, hp, ticket_eq_none_congr hq, ready_congr hq]
    split
    · exact congrArg (fun b : Batch => some b.op.code) hb.symm
    · rfl

/-- Both rounds offer their request at the edge, or neither. -/
theorem askPins_congr (k : Nat) (rdy : Bool) :
    eraseData (.drive (askPins k rdy s)) = eraseData (.drive (askPins k rdy t)) := by
  have hop := toAsk_op_congr h k
  unfold askPins
  cases hs : s.toAsk k with
  | none =>
    rw [hs, Option.map_none, eq_comm, Option.map_eq_none_iff] at hop
    rw [hop]
  | some r =>
    rw [hs, Option.map_some, eq_comm, Option.map_eq_some_iff] at hop
    obtain ⟨r', ht, hr⟩ := hop
    rw [ht]
    exact eraseData_drive_eq_iff.mpr ⟨rfl, rfl, hr.symm, rfl⟩

section Pins
variable {p q : Pins} (hpq : eraseData (.drive p) = eraseData (.drive q))
include hpq

/-- The head is taken from both blocks or from neither. -/
theorem restOfEdge_congr : timingView (restOfEdge p s) = timingView (restOfEdge q t) := by
  obtain ⟨hrst, -, -, hrdy⟩ := eraseData_drive_eq_iff.mp hpq
  unfold restOfEdge
  rw [hrst, hrdy, rspValid_congr h]
  split
  · exact passEdge_congr (takeHead_congr h)
  · exact passEdge_congr h

/-- Neither edge accepts a request, or both do, of the same operation code. -/
theorem acceptedRequest_congr : (acceptedRequest p s = none ∧ acceptedRequest q t = none) ∨
    ∃ r r', acceptedRequest p s = some r ∧ acceptedRequest q t = some r' ∧ r.op = r'.op := by
  obtain ⟨hrst, hval, hop, -⟩ := eraseData_drive_eq_iff.mp hpq
  unfold acceptedRequest
  rw [hrst, hval, reqReady_congr h]
  split
  · exact .inr ⟨_, _, rfl, rfl, hop⟩
  · exact .inl ⟨rfl, rfl⟩

/-- Edges that differ only in operand bits, in states of the same view, lead to states of the same view. -/
theorem timingOf_edge_congr : timingOf (edge p s) = timingOf (edge q t) := by
  obtain ⟨hrst, -, -, -⟩ := eraseData_drive_eq_iff.mp hpq
  have hrest := restOfEdge_congr h hpq
  unfold edge
  rw [hrst]
  split
  · rcases acceptedRequest_congr h hpq with ⟨ha, ha'⟩ | ⟨r, r', ha, ha', hop⟩ <;> rw [ha, ha']
    · exact congrArg some hrest
    · simp only [acceptRequest_eq, hop]
      exact congrArg some (answer_congr hrest ..)
  · exact congrArg some (resetBlock_congr h)

end Pins

/-- An `ask` move: a round that is accepted counts on a response in the same place of the queue. -/
theorem timingOf_askRound_congr (k : Nat) (rdy : Bool) : timingOf (askRound k rdy s) = timingOf (askRound k rdy t) := by
  have hpins := askPins_congr h k rdy
  have hrest := restOfEdge_congr h hpins
  rcases acceptedRequest_congr h hpins with ⟨ha, ha'⟩ | ⟨r, r', ha, ha', hop⟩
  · rw [askRound_of_accepts_none ha, askRound_of_accepts_none ha']
    exact congrArg some hrest
  · rw [askRound_of_accepts_some ha, askRound_of_accepts_some ha', hop]
    refine congrArg some (noteTicket_congr (answer_congr hrest ..) k ?_)
    have hq := queue_length_congr hrest
    rw [← nextTicket_restOfEdge (askPins k rdy s) s, ← nextTicket_restOfEdge (askPins k rdy t) t]
    simp only [State.answer_received, State.nextTicket]
    omega

/-- A round of a batch takes as many responses and one edge, whatever it converts. -/
theorem batchRound_congr (b : Batch) (j : Nat) :
    ∃ s' t', batchRound b j s = .next s' ∧ batchRound b j t = .next t' ∧ timingView s' = timingView t' := by
  obtain ⟨hp, -, hr, hm, hk⟩ := timingView_eq_iff.mp h
  refine ⟨_, _, batchRound_eq b j s, batchRound_eq b j t, timingView_eq_iff.mpr ⟨hp, rfl, ?_, hm, congrArg (· + 1) hk⟩⟩
  simp only [List.length_append, List.length_map, List.length_singleton, queue_length_congr h, Nat.add_assoc]
  exact map_eq_map_of_view hr fun _ _ h => roundTiming_add_congr h _

end State

/-! ### Batches, moves, steps -/

/-- Rounds one after the other, by induction on their number. -/
theorem timingOf_batchRounds_congr (b : Batch) (k j : Nat) {s t : State} (h : timingView s = timingView t) :
    timingOf (batchRounds b k j s) = timingOf (batchRounds b k j t) := by
  induction k generalizing j s t with
  | zero => exact congrArg some h
  | succ k ih =>
    obtain ⟨s', t', hs, ht, h'⟩ := batchRound_congr h b j
    rw [batchRounds, batchRounds, hs, ht]
    exact ih (j + 1) h'

/-- A batch depends on `LANES` and its own length, never on what it converts. -/
theorem timingOf_execBatch_congr (b : Batch) {s t : State} (h : timingView s = timingView t) :
    timingOf (execBatch b s) = timingOf (execBatch b t) := by
  obtain ⟨hp, -⟩ := timingView_eq_iff.mp h
  unfold execBatch
  rw [hp]
  split
  · exact timingOf_batchRounds_congr b _ 0 h
  · rfl

/-- Whether a round is refused, does nothing or is run depends on its batch and `LANES`. -/
theorem timingOf_execRound_congr (b : Batch) (j : Nat) {s t : State} (h : timingView s = timingView t) :
    timingOf (execRound b j s) = timingOf (execRound b j t) := by
  obtain ⟨hp, -⟩ := timingView_eq_iff.mp h
  unfold execRound
  rw [hp]
  split
  · split
    · obtain ⟨s', t', hs, ht, h'⟩ := batchRound_congr h b j
      rw [hs, ht]
      exact congrArg some h'
    · exact congrArg some h
  · rfl

/-- The operand bits a move carries do not reach the view of the next state. -/
theorem timingOf_runMove_eraseData (m : HostMove) (s : State) :
    timingOf (runMove (eraseData m) s) = timingOf (runMove m s) := by
  cases m with
  | drive p => exact timingOf_edge_congr rfl rfl
  | store a n v | batch b | round b j | start b | load k i | ask k rdy | await | write k i => rfl

/-- The same move makes of states of the same view states of the same view. -/
theorem timingOf_runMove_congr (m : HostMove) {s t : State} (h : timingView s = timingView t) :
    timingOf (runMove m s) = timingOf (runMove m t) := by
  cases m with
  | drive p => exact timingOf_edge_congr h rfl
  | batch b => exact timingOf_execBatch_congr b h
  | round b j => exact timingOf_execRound_congr b j h
  | start b => exact timingOf_startBatch_congr h b
  | load k i => exact congrArg some (loadLane_congr h k i)
  | ask k rdy => exact timingOf_askRound_congr h k rdy
  | await => exact congrArg some (drain_congr h)
  | write k i => exact congrArg some (by rw [timingView_writeLane, timingView_writeLane, h])
  | store a n v => exact congrArg some h

/-- One step from states of the same view: erase the move's operand bits, run the erased move in both states. -/
theorem timingOf_step_congr {s t : State} (h : timingView s = timingView t) :
    timingOf (step s) = timingOf (step t) := by
  obtain ⟨hp, hq, hr, hm, hk⟩ := timingView_eq_iff.mp h
  unfold step
  cases hs : s.moves with
  | nil =>
    rw [hs, List.map_nil, eq_comm, List.map_eq_nil_iff] at hm
    rw [hm]
    exact timingOf_runMove_congr _ h
  | cons m l =>
    rw [hs, List.map_cons, eq_comm, List.map_eq_cons_iff] at hm
    obtain ⟨m', l', ht, hmm, hl⟩ := hm
    have h' : timingView { s with moves := l } = timingView { t with moves := l' } :=
      timingView_eq_iff.mpr ⟨hp, hq, hr, hl.symm, hk⟩
    rw [ht]
    calc timingOf (runMove m { s with moves := l })
      _ = timingOf (runMove (eraseData m) { s with moves := l }) := (timingOf_runMove_eraseData ..).symm
      _ = timingOf (runMove (eraseData m) { t with moves := l' }) := timingOf_runMove_congr _ h'
      _ = timingOf (runMove (eraseData m') { t with moves := l' }) := by rw [hmm]
      _ = timingOf (runMove m' { t with moves := l' }) := timingOf_runMove_eraseData ..

/-- An outcome with a view is a next state of that view. -/
theorem timingOf_eq_some_iff {o : Outcome} {v : TimingView} :
    timingOf o = some v ↔ ∃ s, o = .next s ∧ timingView s = v := by
  cases o <;> simp [timingOf]

end Sys2Proof.Machine.Timing

namespace Sys2Proof.Machine

open Sys2Proof.Safety Timing

/-- Settles O52: the pins are functions of the view, and so is the view of the next state. -/
theorem timingIndependentOfData : Obligations.TimingIndependentOfData := by
  intro s t h
  refine ⟨fun r => ⟨reqReady_congr h r, rspValid_congr h r⟩, fun s' hs => ?_⟩
  have hv : timingOf (step t) = some (timingView s') := by rw [← timingOf_step_congr h, hs]; rfl
  obtain ⟨t', ht, hv'⟩ := timingOf_eq_some_iff.mp hv
  exact ⟨t', ht, hv'.symm⟩

end Sys2Proof.Machine

/-! PROOFS. The statements of 30_encoding.md on words: a request and its word stand for each other (R60). -/

namespace Sys2Proof.Machine

/-! ### Numbers as words -/

@[simp] theorem splitWords_length (n w : Nat) : (splitWords n w).1.length = n := by
  induction n generalizing w with
  | zero => rfl
  | succ n ih => simp [splitWords, ih]

/-- Splitting what was joined gives the words and the top back. -/
@[simp] theorem splitWords_joinWords (ws : DataVec) (top : Nat) :
    splitWords ws.length (joinWords ws top) = (ws, top) := by
  induction ws with
  | nil => rfl
  | cons v ws ih =>
    have hv : v.toNat < 2 ^ 32 := v.isLt
    have hrest : (v.toNat + 2 ^ 32 * joinWords ws top) / 2 ^ 32 = joinWords ws top := by omega
    have hword : BitVec.ofNat 32 (v.toNat + 2 ^ 32 * joinWords ws top) = v := by
      apply BitVec.eq_of_toNat_eq
      rw [BitVec.toNat_ofNat]
      omega
    rw [joinWords, List.length_cons, splitWords, hrest, ih, hword]

/-- Joining what was split gives the number back. -/
@[simp] theorem joinWords_splitWords (n w : Nat) : joinWords (splitWords n w).1 (splitWords n w).2 = w := by
  induction n generalizing w with
  | zero => rfl
  | succ n ih =>
    rw [splitWords, joinWords, ih, BitVec.toNat_ofNat]
    omega

/-- Words below a top of `k` bits make a number of `k` bits and those of the words. -/
theorem joinWords_lt {k top : Nat} (ws : DataVec) (h : top < 2 ^ k) : joinWords ws top < 2 ^ (k + 32 * ws.length) := by
  induction ws with
  | nil => exact h
  | cons v ws ih =>
    have hv : v.toNat < 2 ^ 32 := v.isLt
    rw [joinWords, List.length_cons, Nat.mul_succ, ← Nat.add_assoc, Nat.pow_add]
    omega

/-! ### Requests as words -/

/-- A word is read as a request exactly if the request has the block's width and the word is its own. -/
theorem requestOfWord_eq_ok_iff {L : LaneCount} {w : Nat} {r : Request} :
    requestOfWord L w = .ok r ↔ DataVec.fits L r.data = true ∧ requestWord r = w := by
  simp only [DataVec.fits, beq_iff_eq]
  constructor
  · intro h
    simp only [requestOfWord] at h
    split at h
    · next htop =>
      cases h
      have hop : (BitVec.ofNat 4 (splitWords L.count w).2).toNat = (splitWords L.count w).2 := Nat.mod_eq_of_lt htop
      simp [requestWord, hop]
    · cases h
  · rintro ⟨hlen, rfl⟩
    have hop : r.op.toNat < 16 := r.op.isLt
    simp only [requestOfWord, requestWord, ← hlen, splitWords_joinWords, if_pos hop, BitVec.ofNat_toNat,
      BitVec.setWidth_eq]

/-- The request word of a block with `LANES` lanes has `4 + 32 * LANES` bits (30_encoding.md R60). -/
theorem requestWord_lt {L : LaneCount} {r : Request} (h : DataVec.fits L r.data = true) :
    requestWord r < 2 ^ (4 + 32 * L.count) := by
  simp only [DataVec.fits, beq_iff_eq] at h
  rw [← h]
  exact joinWords_lt r.data r.op.isLt

/-! ### Instructions as requests -/

/-- Well-formed means of the block's width, whatever the operation (60_exceptions.md R177). -/
theorem Instr.wf_iff (L : LaneCount) (i : Instr) : i.wf L = true ↔ DataVec.fits L (encode i).data = true := by
  cases i <;> rfl

/-- A request stands for an instruction exactly if it is the instruction's own. -/
theorem decode_eq_ok_iff {r : Request} {i : Instr} : decode r = .ok i ↔ encode i = r := by
  have hself : ∀ op d, encode (Instr.ofOp op d) = ⟨op.code, d⟩ := fun op d => by cases op <;> rfl
  constructor
  · intro h
    cases hop : Op.ofCode? r.op with
    | none => simp [decode_of_none hop] at h
    | some op =>
      rw [decode_of_some hop, Except.ok.injEq] at h
      rw [← h, hself, ← Op.code_of_ofCode? hop]
  · rintro rfl
    exact (decode_code i.op i.data).trans (congrArg Except.ok (by cases i <;> rfl))

/-- A word stands for an instruction exactly if the instruction is well-formed and the word its own. -/
theorem decodeWord_eq_ok_iff {L : LaneCount} {w : Nat} {i : Instr} :
    decodeWord L w = .ok i ↔ i.wf L = true ∧ encodeWord i = w := by
  rw [Instr.wf_iff, encodeWord, ← requestOfWord_eq_ok_iff, decodeWord]
  cases h : requestOfWord L w with
  | error e => simp
  | ok r => exact decode_eq_ok_iff.trans (by rw [Except.ok.injEq, eq_comm])

/-- Settles O3: both decodings are equivalences, read from right to left; the width is that of a request word. -/
theorem decodeOfEncodeIsIdentity : Obligations.DecodeOfEncodeIsIdentity := fun L i h =>
  ⟨decode_eq_ok_iff.mpr rfl, decodeWord_eq_ok_iff.mpr ⟨h, rfl⟩, requestWord_lt ((Instr.wf_iff L i).mp h)⟩

/-- Settles O4: the same equivalence, read from left to right. -/
theorem decodedWordEncodesBack : Obligations.DecodedWordEncodesBack := fun _ _ _ => decodeWord_eq_ok_iff.mp

/-- Settles O2: each word by its own digits. -/
theorem publishedRequestWordsDecode : Obligations.PublishedRequestWordsDecode := by
  unfold Obligations.PublishedRequestWordsDecode
  decide

end Sys2Proof.Machine

/-! PROOFS. The statements on one edge of 30_encoding.md section 6, 10_state.md section 3 and 70_reset_and_hazards.md
section 1: what it accepts, takes, offers and leaves. -/

namespace Sys2Proof.Machine

open Sys2Proof.Safety Sys2Proof.Claims

/-! ### The rest of an edge -/

@[simp] theorem State.takeHead_rounds (s : State) : s.takeHead.rounds = s.rounds := by
  rcases s.takeHead_cases with ⟨-, h⟩ | ⟨e, rest, -, h⟩ <;> rw [h]

@[simp] theorem restOfEdge_rounds (p : Pins) (s : State) : (restOfEdge p s).rounds = s.rounds := by
  unfold restOfEdge; split <;> simp

/-- The offered response is the head's. -/
theorem State.rspPins_of_head {s : State} {e : Entry} {l : List Entry} (hq : s.queue = e :: l) (hw : e.wait = 0) :
    s.rspPins true = e.rsp := by
  have hv : s.rspValid true = true := (s.rspValid_iff true).mpr ⟨rfl, e, l, hq, hw⟩
  unfold State.rspPins
  simp [hq, hv]

/-- Where the offer meets `rsp_ready`, the offered response moves from the head of the queue to the host. -/
theorem restOfEdge_of_taken {p : Pins} {s : State} (hr : p.rstN = true) (h : (s.rspValid true && p.rspReady) = true) :
    restOfEdge p s = { s with
      queue := s.queue.tail.map Entry.age, received := s.received ++ [s.rspPins true], tick := s.tick + 1 } := by
  rcases restOfEdge_cases p s with ⟨e, l, hq, hw, -, -, he⟩ | ⟨hf, -⟩
  · rw [he, State.rspPins_of_head hq hw, hq, List.tail_cons]
  · simp [hr, h] at hf

/-- Where it does not, time passes and nothing else happens. -/
theorem restOfEdge_of_kept {p : Pins} {s : State} (h : (s.rspValid true && p.rspReady) = false) :
    restOfEdge p s = s.passEdge := by
  rcases restOfEdge_cases p s with ⟨e, l, hq, hw, -, hrdy, -⟩ | ⟨-, he⟩
  · have hv : s.rspValid true = true := (s.rspValid_iff true).mpr ⟨rfl, e, l, hq, hw⟩
    simp [hv, hrdy] at h
  · exact he

/-! ### What an edge does -/

/-- An edge without reset is its rest, with at most one entry joined at the end of the queue, none without an
acceptance. -/
theorem edge_of_rstN {p : Pins} (hr : p.rstN = true) (s : State) :
    ∃ q, edge p s = .next { restOfEdge p s with queue := (restOfEdge p s).queue ++ q } ∧ q.length ≤ 1 ∧
      (acceptedRequest p s = none → q = []) := by
  rcases edge_cases p s with ⟨h, -⟩ | ⟨-, -, h⟩ | ⟨-, r, ha, h⟩
  · simp [hr] at h
  · exact ⟨[], by rw [h, List.append_nil], Nat.zero_le _, fun _ => rfl⟩
  · exact ⟨_, h, Nat.le_refl _, by simp [ha]⟩

/-- An edge in reset empties the queue. -/
theorem edge_of_reset {p : Pins} (hr : p.rstN = false) (s : State) : edge p s = .next s.resetBlock := by
  simp [edge, hr]

/-- An edge that accepts no request is its rest. -/
theorem edge_of_not_accepted {p : Pins} {s : State} (hr : p.rstN = true) (ha : acceptedRequest p s = none) :
    edge p s = .next (restOfEdge p s) := by
  simp [edge, hr, ha]

/-- An offered request that meets room in the queue is accepted (log 6). -/
theorem acceptedRequest_of_room {p : Pins} {s : State} (hr : p.rstN = true) (hv : p.reqValid = true)
    (hq : s.queue.length < s.params.depth) :
    acceptedRequest p s = some { op := p.reqOp, data := fitLanes s.params.lanes p.reqData } :=
  acceptedRequest_eq_some.mpr ⟨hv, hr, hq, rfl⟩

/-- An edge that accepts a request naming an operation runs its instruction, after the rest of the edge (log 7). -/
theorem edge_of_decoded {p : Pins} {s : State} {r : Request} {i : Instr} (hr : p.rstN = true)
    (ha : acceptedRequest p s = some r) (hi : decode r = .ok i) : edge p s = exec i (restOfEdge p s) := by
  simp [edge, hr, ha, acceptRequest, hi]

/-- Settles O8: what is accepted has the block's width, and the edge runs what it decodes to. -/
theorem stepRunsDecodedInstruction : Obligations.StepRunsDecodedInstruction := by
  intro s p rest i hm hr hv hq hi
  have hfits : DataVec.fits s.params.lanes (encode i).data = true := by
    rw [decode_eq_ok_iff.mp hi]
    exact fitLanes_fits ..
  refine ⟨(Instr.wf_iff ..).mpr hfits, ?_⟩
  rw [step_drive hm]
  exact edge_of_decoded hr (acceptedRequest_of_room (s := { s with moves := rest }) hr hv hq) hi

/-- Settles O15: an instruction adds its response to the queue and touches no other field. -/
theorem instructionsChangeOnlyTheQueue : Obligations.InstructionsChangeOnlyTheQueue := fun i s =>
  ⟨_, _, exec_eq i s, State.answer_queue .., rfl, rfl, Nat.le_add_right .., rfl, rfl, rfl, rfl, rfl, fun _ => rfl⟩

/-! ### The word `withFetchWord` places -/

/-- The offered request meets room in the queue: it was there, or what was in flight is lost (log 14). -/
theorem State.withOffer_room (s : State) (r : Request) :
    (s.withOffer r).queue.length < (s.withOffer r).params.depth := by
  unfold State.withOffer
  simp only
  split
  · next h => exact h
  · simp

theorem State.withOffer_frame (s : State) (r : Request) :
    (s.withOffer r).received = s.received ∧ (s.withOffer r).mem = s.mem ∧
      (s.withOffer r).params.lanes = s.params.lanes ∧
      (s.withOffer r).moves = .drive (offerPins r false) :: s.moves := by
  unfold State.withOffer
  simp only
  split <;> simp

/-- With room already there, `DEPTH` is at least 1 and nothing is lost. -/
theorem State.withOffer_of_room {s : State} (r : Request) (h : s.queue.length < s.params.depth) :
    (s.withOffer r).params = s.params ∧ (s.withOffer r).rounds = s.rounds := by
  have hdepth : max 1 s.params.depth = s.params.depth := by omega
  simp [State.withOffer, hdepth, h]

/-- The step after an offer runs the instruction the request decodes to: the offer is accepted, and with `rsp_ready` 0
the rest of its edge takes nothing. -/
theorem step_withOffer {s : State} {r : Request} {i : Instr} (hfits : DataVec.fits s.params.lanes r.data = true)
    (hi : decode r = .ok i) : step (s.withOffer r) = exec i { s.withOffer r with moves := s.moves }.passEdge := by
  obtain ⟨-, -, hlanes, hmoves⟩ := s.withOffer_frame r
  have hacc : acceptedRequest (offerPins r false) { s.withOffer r with moves := s.moves } = some r := by
    rw [acceptedRequest_of_room (s := { s.withOffer r with moves := s.moves }) rfl rfl (s.withOffer_room r)]
    simp only [offerPins, hlanes, fitLanes_of_fits hfits]
  rw [step_drive hmoves, edge_of_decoded rfl hacc hi, restOfEdge_of_kept (Bool.and_false _)]

theorem tableRequest_fits (L : LaneCount) (nbits w : Nat) : DataVec.fits L (tableRequest L nbits w).data = true := by
  simp [DataVec.fits, tableRequest]

/-- Settles O6: the table word's request is the one `withFetchWord` offers. -/
theorem tableWordRunsNext : Obligations.TableWordRunsNext := by
  intro s nbits w i hi
  refine ⟨fun hL => ?_, ?_⟩
  · rw [decodeTableWord, ← hL, hi]
    rfl
  · obtain ⟨hrec, hmem, hlanes, -⟩ := s.withOffer_frame (tableRequest s.params.lanes nbits w)
    exact ⟨_, step_withOffer (tableRequest_fits ..) hi, hrec, hmem, rfl, hlanes,
      State.withOffer_of_room (tableRequest s.params.lanes nbits w)⟩

/-! ### Offer, delivery and frame -/

/-- Settles O49: an entry whose wait is over stays so as time passes, and stays at the head until it is taken. -/
theorem offeredResponseIsStable : Obligations.OfferedResponseIsStable := by
  intro s p rest hm hr hv
  obtain ⟨q, he, -, -⟩ := edge_of_rstN hr { s with moves := rest }
  rw [step_drive hm]
  refine ⟨_, he, fun hrdy => ?_, fun hrdy => ?_⟩
  · obtain ⟨-, e, l, hq, hw⟩ := (s.rspValid_iff true).mp hv
    have hkept := restOfEdge_of_kept (p := p) (s := { s with moves := rest }) (by simp [hrdy])
    have hhead : ({ s with moves := rest }.passEdge.queue ++ q) = e.age :: (l.map Entry.age ++ q) := by simp [hq]
    have hwait : e.age.wait = 0 := by simp [hw]
    rw [hkept]
    refine ⟨(State.rspValid_iff _ true).mpr ⟨rfl, _, _, hhead, hwait⟩, ?_, rfl⟩
    exact (State.rspPins_of_head hhead hwait).trans (State.rspPins_of_head hq hw).symm
  · rw [restOfEdge_of_taken hr (by rw [hrdy, Bool.and_true]; exact hv)]
    rfl

/-- Settles O50: the two cases of the rest of the edge, and at most one entry joined. -/
theorem edgeFrame : Obligations.EdgeFrame := by
  intro s p rest hm hr
  obtain ⟨q, he, hlen, hnone⟩ := edge_of_rstN hr { s with moves := rest }
  have hnotacc : p.reqValid = false ∨ s.reqReady true = false → q = [] := fun h => hnone <| by
    have hready : ({ s with moves := rest } : State).reqReady p.rstN = s.reqReady true := by rw [hr]; rfl
    rw [acceptedRequest, hready]
    rcases h with h | h <;> simp [h]
  rw [step_drive hm]
  refine ⟨_, he, restOfEdge_params .., restOfEdge_mem .., restOfEdge_rounds .., restOfEdge_moves .., ?_⟩
  cases htaken : s.rspValid true && p.rspReady with
  | true =>
    have hrest := restOfEdge_of_taken (p := p) (s := { s with moves := rest }) hr htaken
    rw [hrest]
    refine ⟨by simp, fun _ => rfl, fun h => ?_, ?_⟩
    · simp [hnotacc h, Function.comp_def, List.drop_one]
    · simp only [List.length_append, List.length_map, List.length_tail]
      omega
  | false =>
    have hrest := restOfEdge_of_kept (p := p) (s := { s with moves := rest }) htaken
    rw [hrest]
    refine ⟨fun _ => rfl, by simp, fun h => ?_, ?_⟩
    · simp [hnotacc h, Function.comp_def]
    · simpa using hlen

/-- Settles O51: in reset `rst_n` holds both handshake pins low; an empty queue offers nothing and, with a `DEPTH` of at
least 1, has room. -/
theorem resetEmptiesTheQueue : Obligations.ResetEmptiesTheQueue := by
  refine ⟨fun s p rest hm hr => ?_, rfl, rfl, rfl⟩
  rw [step_drive hm, edge_of_reset hr, nextRequest_drive hm]
  refine ⟨by simp [State.reqReady, hr], by simp [State.rspValid, hr], by simp [acceptedRequest, State.reqReady, hr],
    _, rfl, rfl, rfl, rfl, rfl, rfl, rfl, fun hwf => ?_⟩
  exact (State.reqReady_iff _ true).mpr ⟨rfl, of_decide_eq_true hwf⟩

/-- With no move left the step is an edge with idle pins, which accepts nothing (log 2). -/
theorem step_of_no_moves {s : State} (hm : s.moves = []) : step s = .next (restOfEdge Pins.idle s) := by
  have hstep : step s = edge Pins.idle s := by simp only [step, hm, runMove]
  rw [hstep, edge_of_not_accepted rfl (acceptedRequest_of_reqValid_false rfl)]

/-- Settles O9: the idle pins keep `rsp_ready` 1, so an offered response is taken. -/
theorem idleHostTakesResponses : Obligations.IdleHostTakesResponses := by
  intro s hm
  refine ⟨by simp [nextRequest, hm], _, step_of_no_moves hm, by simp [hm], by simp, fun hv => ?_, fun hv => ?_⟩
  · rw [restOfEdge_of_taken rfl (by simp [hv, Pins.idle])]
  · rw [restOfEdge_of_kept (by simp [hv])]
    exact ⟨rfl, rfl⟩

end Sys2Proof.Machine

/-! PROOFS. Where a step stops and what every step keeps: 30_encoding.md section 4, 60_exceptions.md section 1,
93_implementation_defined.md U1, U4, 10_state.md section 3, 00_scope.md section 4. -/

namespace Sys2Proof.Machine

open Sys2Proof.Safety Sys2Proof.Claims

/-! ### Where a batch stops -/

theorem srcBytes_pos (op : Op) : 0 < srcBytes op := by cases op <;> decide
theorem dstBytes_pos (op : Op) : 0 < dstBytes op := by cases op <;> decide

/-- The ranges are disjoint exactly if no byte is both read and written (42_lanes_and_batch.md R156 (b)). -/
theorem batchDisjoint_iff (b : Batch) : batchDisjoint b = true ↔ ∀ a, ¬ (inSrc b a ∧ inDst b a) := by
  simp only [batchDisjoint, decide_eq_true_iff, inSrc, inDst]
  constructor
  · rintro h a ⟨⟨hs, hs'⟩, hd, hd'⟩
    rcases h with hn | h | h
    · rw [hn, Nat.mul_zero] at hs'
      omega
    · omega
    · omega
  · intro h
    rcases Nat.eq_zero_or_pos b.n with hn | hn
    · exact .inl hn
    · have hsrc := Nat.mul_pos (srcBytes_pos b.op) hn
      have hdst := Nat.mul_pos (dstBytes_pos b.op) hn
      have := h (max b.src b.dst)
      omega

theorem batchDisjoint_eq_false_iff (b : Batch) : batchDisjoint b = false ↔ ∃ a, inSrc b a ∧ inDst b a := by
  rw [← Bool.not_eq_true, batchDisjoint_iff, not_forall_not]

/-- Rounds never stop. -/
theorem batchRounds_next (b : Batch) (k j : Nat) (s : State) : ∃ t, batchRounds b k j s = .next t := by
  induction k generalizing j s with
  | zero => exact ⟨s, rfl⟩
  | succ k ih =>
    rw [batchRounds, batchRound_eq]
    exact ih ..

/-- A batch is refused or has a next state, by its ranges alone. -/
theorem execBatch_stops (b : Batch) (s : State) :
    (batchDisjoint b = true ∧ ∃ t, execBatch b s = .next t) ∨
      (batchDisjoint b = false ∧ execBatch b s = .refused .batchOverlap) := by
  unfold execBatch
  cases batchDisjoint b with
  | true => exact .inl ⟨rfl, batchRounds_next ..⟩
  | false => exact .inr ⟨rfl, rfl⟩

/-- A round is refused or has a next state, by the ranges of its batch alone. -/
theorem execRound_stops (b : Batch) (j : Nat) (s : State) :
    (batchDisjoint b = true ∧ ∃ t, execRound b j s = .next t) ∨
      (batchDisjoint b = false ∧ execRound b j s = .refused .batchOverlap) := by
  unfold execRound
  cases batchDisjoint b with
  | true =>
    refine .inl ⟨rfl, ?_⟩
    simp only [if_true]
    split
    · exact ⟨_, batchRound_eq b j s⟩
    · exact ⟨s, rfl⟩
  | false => exact .inr ⟨rfl, rfl⟩

/-- A batch of no elements has no round (42_lanes_and_batch.md R156 (a)). -/
theorem execBatch_of_empty {b : Batch} (hn : b.n = 0) (s : State) : execBatch b s = .next s := by
  have hd : batchDisjoint b = true := by simp [batchDisjoint, hn]
  have hreq : batchRequests s.params.lanes b.n = 0 := Nat.eq_zero_of_not_pos (mt lt_batchRequests_iff.mp (by omega))
  rw [execBatch, if_pos hd, hreq, batchRounds]

/-- A `batch` move is the whole batch. -/
theorem step_batch {s : State} {b : Batch} {rest : List HostMove} (h : s.moves = .batch b :: rest) :
    step s = execBatch b { s with moves := rest } := by
  simp only [step, h, runMove]

/-- Settles O44: no element, no round; and a refusal by the ranges alone. -/
theorem batchDegenerateCases : Obligations.BatchDegenerateCases := by
  intro s b rest hm
  rw [step_batch hm, ← batchDisjoint_eq_false_iff]
  refine ⟨fun hn => execBatch_of_empty hn _, fun h => ?_, fun h => ?_⟩
  · rcases execBatch_stops b { s with moves := rest } with ⟨-, t, ht⟩ | ⟨hd, -⟩
    · cases ht.symm.trans h
    · exact hd
  · rw [execBatch, h]
    rfl

/-! ### Where a move stops -/

/-- The batch a move begins, runs, or runs a round of. -/
def batchOf : HostMove → Option Batch
  | .batch b => some b
  | .round b _ => some b
  | .start b => some b
  | .drive _ | .load _ _ | .ask _ _ | .await | .write _ _ | .store _ _ _ => none

theorem batchOf_eq_some_iff {m : HostMove} {b : Batch} :
    batchOf m = some b ↔ m = .batch b ∨ m = .start b ∨ ∃ j, m = .round b j := by
  cases m <;> simp [batchOf]

theorem edge_next (p : Pins) (s : State) : ∃ t, edge p s = .next t := by
  rcases edge_cases p s with ⟨-, h⟩ | ⟨-, -, h⟩ | ⟨-, r, -, h⟩ <;> exact ⟨_, h⟩

/-- An `ask` move is its edge, but for the host's note on its rounds. -/
theorem askRound_eq_edge (k : Nat) (rdy : Bool) (s : State) :
    ∃ t rs, edge (askPins k rdy s) s = .next t ∧ askRound k rdy s = .next { t with rounds := rs } := by
  obtain ⟨t, ht⟩ := edge_next (askPins k rdy s) s
  simp only [askRound, ht]
  split
  · exact ⟨t, (t.noteTicket k s.nextTicket).rounds, rfl, rfl⟩
  · exact ⟨t, t.rounds, rfl, rfl⟩

/-- A move has a next state, or is refused because the ranges of its batch meet. -/
theorem runMove_stops (m : HostMove) (s : State) : (∃ t, runMove m s = .next t) ∨
    ∃ b, batchOf m = some b ∧ batchDisjoint b = false ∧ runMove m s = .refused .batchOverlap := by
  cases m with
  | drive p => exact .inl (edge_next p s)
  | batch b =>
    rcases execBatch_stops b s with ⟨-, h⟩ | ⟨hd, h⟩
    · exact .inl h
    · exact .inr ⟨b, rfl, hd, h⟩
  | round b j =>
    rcases execRound_stops b j s with ⟨-, h⟩ | ⟨hd, h⟩
    · exact .inl h
    · exact .inr ⟨b, rfl, hd, h⟩
  | start b =>
    rcases startBatch_cases b s with ⟨-, h⟩ | ⟨hd, h⟩
    · exact .inl ⟨_, h⟩
    · exact .inr ⟨b, rfl, hd, h⟩
  | load k i => exact .inl ⟨_, rfl⟩
  | ask k rdy =>
    obtain ⟨t, rs, -, h⟩ := askRound_eq_edge k rdy s
    exact .inl ⟨_, h⟩
  | await => exact .inl ⟨_, rfl⟩
  | write k i => exact .inl ⟨_, rfl⟩
  | store a n v => exact .inl ⟨_, rfl⟩

/-- With a move left the step is that move (log 2). -/
theorem step_of_move {s : State} {m : HostMove} {rest : List HostMove} (h : s.moves = m :: rest) :
    step s = runMove m { s with moves := rest } := by
  simp only [step, h]

/-- Settles O13: the move's own stop, and ranges meet exactly if they share a byte. -/
theorem stepStopsOnlyOnOverlappingBatch : Obligations.StepStopsOnlyOnOverlappingBatch := by
  intro s
  cases hm : s.moves with
  | nil => exact .inl ⟨_, step_of_no_moves hm⟩
  | cons m rest =>
    rw [step_of_move hm]
    refine (runMove_stops m _).imp_right ?_
    rintro ⟨b, hb, hd, h⟩
    refine ⟨b, rest, ?_, (batchDisjoint_eq_false_iff b).mp hd, h⟩
    rcases batchOf_eq_some_iff.mp hb with rfl | rfl | ⟨j, rfl⟩
    · exact .inl rfl
    · exact .inr (.inl rfl)
    · exact .inr (.inr ⟨j, rfl⟩)

/-! ### Reserved operation codes -/

theorem step_ne_fault (s : State) (f : Fault) : step s ≠ .fault f := by
  rcases stepStopsOnlyOnOverlappingBatch s with ⟨t, h⟩ | ⟨b, rest, -, -, h⟩ <;> rw [h] <;> simp

/-- The strict step faults where a reserved code is accepted. -/
theorem strictStep_of_reserved {s : State} {r : Request} (h : nextRequest s = some r) (hr : Op.ofCode? r.op = none) :
    strictStep s = .fault (.reservedOperation r.op) := by
  simp [strictStep, h, hr]

/-- It is the step where what is accepted, if anything is, names an operation. -/
theorem strictStep_of_defined {s : State} (h : ∀ r, nextRequest s = some r → Op.ofCode? r.op ≠ none) :
    strictStep s = step s := by
  unfold strictStep
  cases hr : nextRequest s with
  | none => rfl
  | some r => simp [h r hr]

/-- What decodes to no instruction is a code that names no operation. -/
theorem decode_eq_error_iff {r : Request} {e : DecodeError} :
    decode r = .error e ↔ Op.ofCode? r.op = none ∧ e = .reservedOpcode r.op := by
  cases h : Op.ofCode? r.op with
  | none => simp [decode_of_none h, eq_comm]
  | some op => simp [decode_of_some h]

/-- Settles O12: the strict step by whether the request, if any, names an operation; the step itself never faults. -/
theorem strictStepFaultsExactlyOnReserved : Obligations.StrictStepFaultsExactlyOnReserved := by
  refine fun s => ⟨fun op => ⟨fun h => ?_, ?_⟩, fun h => ?_⟩
  · by_contra hno
    have hdef : strictStep s = step s := strictStep_of_defined fun r hr hnone => by
      rw [strictStep_of_reserved hr hnone] at h
      cases h
      exact hno ⟨r, hr, rfl, decode_of_none hnone⟩
    exact step_ne_fault s _ (hdef.symm.trans h)
  · rintro ⟨r, hr, rfl, he⟩
    exact strictStep_of_reserved hr (decode_eq_error_iff.mp he).1
  · refine strictStep_of_defined fun r hr hnone => ?_
    obtain ⟨i, hi⟩ := h r hr
    cases hi.symm.trans (decode_of_none hnone)

/-- Settles O10: without the request the edge is its rest, with it one error entry is joined. -/
theorem reservedRequestAnsweredWithError : Obligations.ReservedRequestAnsweredWithError := by
  intro s p rest hm hr hv hq hop
  have hnone : Op.ofCode? p.reqOp = none := (Op.ofCode?_eq_none_iff _).mpr hop
  have hacc := acceptedRequest_of_room (s := { s with moves := rest }) hr hv hq
  have hnext := nextRequest_drive hm
  rw [hacc] at hnext
  rw [step_drive hm, step_drive (s := { s with moves := .drive { p with reqValid := false } :: rest }) rfl,
    edge_of_not_accepted (p := { p with reqValid := false }) hr (acceptedRequest_of_reqValid_false rfl),
    strictStep_of_reserved hnext hnone]
  rcases edge_cases p { s with moves := rest } with ⟨h, -⟩ | ⟨-, h, -⟩ | ⟨-, r, h, he⟩
  · simp [hr] at h
  · cases hacc.symm.trans h
  · obtain rfl := Option.some.inj (hacc.symm.trans h)
    rw [respond_of_none _ hnone] at he
    exact ⟨_, _, _, he, rfl, rfl, rfl, wideLane_reserved _, packWide_fits .., rfl⟩

/-! ### What every step keeps -/

section Keeps
variable {P : State → Prop} {b : Batch} (hround : ∀ j s t, P s → batchRound b j s = .next t → P t)
include hround

/-- Rounds one after the other keep what each keeps. -/
theorem batchRounds_keeps {k j : Nat} {s t : State} (hs : P s) (h : batchRounds b k j s = .next t) : P t := by
  induction k generalizing j s with
  | zero => cases h; exact hs
  | succ k ih =>
    rw [batchRounds, batchRound_eq] at h
    exact ih (hround j s _ hs (batchRound_eq b j s)) h

/-- A whole batch keeps what each round keeps. -/
theorem execBatch_keeps {s t : State} (hs : P s) (h : execBatch b s = .next t) : P t := by
  unfold execBatch at h
  split at h
  · exact batchRounds_keeps hround hs h
  · cases h

/-- One round as a move of its own keeps what each round keeps. -/
theorem execRound_keeps {j : Nat} {s t : State} (hs : P s) (h : execRound b j s = .next t) : P t := by
  unfold execRound at h
  split at h
  · split at h
    · exact hround j s t hs h
    · cases h; exact hs
  · cases h

end Keeps

/-- An edge keeps the constants and the moves to come. -/
theorem edge_frame {p : Pins} {s t : State} (h : edge p s = .next t) : t.params = s.params ∧ t.moves = s.moves := by
  rcases edge_cases p s with ⟨-, he⟩ | ⟨-, -, he⟩ | ⟨-, r, -, he⟩ <;> cases he.symm.trans h
  · exact ⟨rfl, rfl⟩
  · exact ⟨restOfEdge_params .., restOfEdge_moves ..⟩
  · exact ⟨restOfEdge_params .., restOfEdge_moves ..⟩

/-- No move changes the constants (00_scope.md R7) or the moves after it. -/
theorem runMove_frame {m : HostMove} {s t : State} (h : runMove m s = .next t) :
    t.params = s.params ∧ t.moves = s.moves := by
  have hround : ∀ b j u v, u.params = s.params ∧ u.moves = s.moves → batchRound b j u = .next v →
      v.params = s.params ∧ v.moves = s.moves := fun b j u v hu hv => by
    cases (batchRound_eq b j u).symm.trans hv
    exact hu
  cases m with
  | drive p => exact edge_frame h
  | batch b =>
    exact execBatch_keeps (P := fun u => u.params = s.params ∧ u.moves = s.moves) (hround b) ⟨rfl, rfl⟩ h
  | round b j =>
    exact execRound_keeps (P := fun u => u.params = s.params ∧ u.moves = s.moves) (hround b) ⟨rfl, rfl⟩ h
  | start b =>
    rcases startBatch_cases b s with ⟨-, he⟩ | ⟨-, he⟩ <;> cases he.symm.trans h
    exact ⟨rfl, rfl⟩
  | ask k rdy =>
    obtain ⟨u, rs, hu, he⟩ := askRound_eq_edge k rdy s
    cases he.symm.trans h
    exact (edge_frame hu :)
  | write k i =>
    cases h
    exact ⟨State.writeLane_params .., State.writeLane_moves ..⟩
  | load k i | await | store a n v => cases h; exact ⟨rfl, rfl⟩

/-- Settles O56: the next move keeps the constants, and so do idle pins. -/
theorem parametersAreConstant : Obligations.ParametersAreConstant := by
  intro s t h
  cases hm : s.moves with
  | nil =>
    cases (step_of_no_moves hm).symm.trans h
    exact restOfEdge_params ..
  | cons m rest =>
    rw [step_of_move hm] at h
    exact (runMove_frame h).1

/-! ### Rounds count on their own responses -/

/-- After one place is changed, each element is an old one or the changed one. -/
theorem mem_modify_cases {α : Type} {l : List α} {k : Nat} {f : α → α} {x : α} (h : x ∈ l.modify k f) :
    x ∈ l ∨ ∃ y, l[k]? = some y ∧ x = f y := by
  rw [List.modify_eq_set_getElem?] at h
  cases hk : l[k]? with
  | none =>
    rw [hk] at h
    exact .inl h
  | some y =>
    rw [hk] at h
    exact (List.mem_or_eq_of_mem_set h).imp_right fun hx => ⟨y, rfl, hx⟩

/-- Every round in hand counts on the response of its own request (20_memory.md R50). -/
def RoundsOk (s : State) : Prop := ∀ r ∈ s.rounds, RoundOk s r

/-- What a round counts on stays where it is while responses are only added. -/
theorem roundOk_of_prefix {s t : State} {r : Round} (h : RoundOk s r) (hp : t.params = s.params)
    (hpre : responsesInOrder s <+: responsesInOrder t) : RoundOk t r := by
  intro n hn
  obtain ⟨l, hl⟩ := hpre
  have hlt := (List.getElem?_eq_some_iff.mp (h n hn)).1
  rw [hp, ← hl, List.getElem?_append_left hlt, h n hn]

theorem roundsOk_of_prefix {s t : State} (h : RoundsOk s) (hp : t.params = s.params)
    (hpre : responsesInOrder s <+: responsesInOrder t) (hr : t.rounds = s.rounds) : RoundsOk t :=
  fun r hmem => roundOk_of_prefix (h r (hr ▸ hmem)) hp hpre

/-- A reset leaves of what is counted on exactly what is taken (log 20). -/
theorem roundsOk_resetBlock {s : State} (h : RoundsOk s) : RoundsOk s.resetBlock := by
  intro q hq n hn
  obtain ⟨r, hr, rfl⟩ := List.mem_map.mp hq
  simp only [Round.lose_ticket, Option.mem_def, Option.filter_eq_some_iff, decide_eq_true_iff] at hn
  have hcount := h r hr n hn.1
  rw [responsesInOrder, List.getElem?_append_left hn.2] at hcount
  rw [responsesInOrder_resetBlock]
  exact hcount

theorem roundsOk_restOfEdge {s : State} (p : Pins) (h : RoundsOk s) : RoundsOk (restOfEdge p s) :=
  roundsOk_of_prefix h (restOfEdge_params ..) (by simp) (restOfEdge_rounds ..)

theorem roundsOk_answer {s : State} (op : OpCode) (d : DataVec) (q : Response) (h : RoundsOk s) :
    RoundsOk (s.answer op d q) :=
  roundsOk_of_prefix h rfl (by simp) rfl

theorem roundsOk_edge {p : Pins} {s t : State} (h : RoundsOk s) (he : edge p s = .next t) : RoundsOk t := by
  rcases edge_cases p s with ⟨-, hs⟩ | ⟨-, -, hs⟩ | ⟨-, r, -, hs⟩ <;> cases hs.symm.trans he
  · exact roundsOk_resetBlock h
  · exact roundsOk_restOfEdge p h
  · exact roundsOk_answer _ _ _ (roundsOk_restOfEdge p h)

/-- The next accepted request's response has the number of the next ticket. -/
theorem responsesInOrder_length (s : State) : (responsesInOrder s).length = s.nextTicket := by
  simp [responsesInOrder, State.nextTicket]

@[simp] theorem responsesInOrder_noteTicket (s : State) (k n : Nat) :
    responsesInOrder (s.noteTicket k n) = responsesInOrder s := rfl

/-- The response of the request an `ask` brings has the number of the ticket the round notes. -/
theorem responsesInOrder_ask (p : Pins) (s : State) (op : OpCode) (d : DataVec) (q : Response) (k : Nat) :
    (responsesInOrder (((restOfEdge p s).answer op d q).noteTicket k s.nextTicket))[s.nextTicket]? = some q := by
  rw [responsesInOrder_noteTicket, responsesInOrder_answer, responsesInOrder_restOfEdge, ← responsesInOrder_length,
    List.getElem?_concat_length]

/-- After an `ask` that is accepted the round counts on the response at the end, which is its own. -/
theorem roundsOk_askRound {k : Nat} {rdy : Bool} {s t : State} (h : RoundsOk s) (ht : askRound k rdy s = .next t) :
    RoundsOk t := by
  rcases askRound_cases k rdy s with ⟨-, hs⟩ | ⟨r, hr, -, -, -, -, hs⟩ <;> cases hs.symm.trans ht
  · exact roundsOk_restOfEdge _ h
  · intro q hq
    rcases mem_modify_cases hq with hold | ⟨r', hr', rfl⟩
    · exact roundsOk_answer _ _ _ (roundsOk_restOfEdge _ h) q hold
    · simp only [State.answer_rounds, restOfEdge_rounds] at hr'
      obtain rfl := Option.some.inj (hr.symm.trans hr')
      rintro n ⟨⟩
      rw [responsesInOrder_ask]
      simp only [State.noteTicket_params, State.answer_params, restOfEdge_params]
      rfl

theorem roundsOk_batchRound {b : Batch} (j : Nat) (s t : State) (h : RoundsOk s) (ht : batchRound b j s = .next t) :
    RoundsOk t := by
  cases (batchRound_eq b j s).symm.trans ht
  exact roundsOk_of_prefix h rfl (by simp [responsesInOrder]) rfl

/-- Reading lanes is over once the request is accepted, so what is counted on stays right. -/
theorem roundsOk_loadLane {s : State} (k i : Nat) (h : RoundsOk s) : RoundsOk (s.loadLane k i) := by
  intro q hq
  rcases mem_modify_cases hq with hold | ⟨r, hr, rfl⟩
  · exact h q hold
  · rcases r.load_cases s.params.lanes s.mem i with he | ⟨-, ht, -, he⟩
    · rw [he]
      exact h r (List.mem_of_getElem? hr)
    · rw [he]
      intro n hn
      simp [ht] at hn

/-- Storing a lane leaves every round's count and request. -/
theorem roundsOk_writeLane {s : State} (k i : Nat) (h : RoundsOk s) : RoundsOk (s.writeLane k i) := by
  rcases s.writeLane_cases k i with he | ⟨r, v, hv, he⟩
  · rw [he]
    exact h
  · obtain ⟨hr, -⟩ := State.toWrite_eq_some.mp hv
    rw [he]
    intro q hq
    rcases List.mem_or_eq_of_mem_set hq with hold | rfl
    · exact h q hold
    · exact h r (List.mem_of_getElem? hr)

/-- The rounds a batch brings are those of its requests, with nothing done (42_lanes_and_batch.md R153). -/
theorem mem_freshRounds_iff {L : LaneCount} {b : Batch} {q : Round} :
    q ∈ freshRounds L b ↔ ∃ j, j < batchRequests L b.n ∧ q = Round.fresh b j := by
  simp [freshRounds, eq_comm]

theorem roundsOk_startBatch {b : Batch} {s t : State} (h : RoundsOk s) (ht : startBatch b s = .next t) :
    RoundsOk t := by
  rcases startBatch_cases b s with ⟨-, hs⟩ | ⟨-, hs⟩ <;> cases hs.symm.trans ht
  intro q hq
  rcases List.mem_append.mp hq with hold | hnew
  · exact h q hold
  · obtain ⟨j, -, rfl⟩ := mem_freshRounds_iff.mp hnew
    rintro n ⟨⟩

/-- No move makes a round count on another's response (log 23). -/
theorem roundsOk_runMove {m : HostMove} {s t : State} (h : RoundsOk s) (ht : runMove m s = .next t) : RoundsOk t := by
  cases m with
  | drive p => exact roundsOk_edge h ht
  | batch b => exact execBatch_keeps roundsOk_batchRound h ht
  | round b j => exact execRound_keeps roundsOk_batchRound h ht
  | start b => exact roundsOk_startBatch h ht
  | load k i => cases ht; exact roundsOk_loadLane k i h
  | ask k rdy => exact roundsOk_askRound h ht
  | await => cases ht; exact roundsOk_of_prefix h rfl (by simp [responsesInOrder]) rfl
  | write k i => cases ht; exact roundsOk_writeLane k i h
  | store a n v => cases ht; exact roundsOk_of_prefix h rfl List.prefix_rfl rfl

/-! ### The block and its host -/

/-- The part of the invariant that is not about rounds in hand (10_state.md R30, 30_encoding.md R61). -/
structure BlockOk (s : State) : Prop where
  params : s.params.wf = true
  room : s.queue.length ≤ s.params.depth
  entries : ∀ e ∈ s.queue, EntryOk s.params.lanes e
  received : ∀ r ∈ s.received, Response.wf s.params.lanes r = true
  mem : Memory.wf s.mem

theorem machineInv_iff (s : State) : MachineInv s ↔ BlockOk s ∧ RoundsOk s :=
  ⟨fun ⟨hp, hq, he, hr, hrounds, hm⟩ => ⟨⟨hp, hq, he, hr, hm⟩, hrounds⟩,
    fun ⟨⟨hp, hq, he, hr, hm⟩, hrounds⟩ => ⟨hp, hq, he, hr, hrounds, hm⟩⟩

/-- Every response of the pure function can stand on the block's pins. -/
theorem respond_wf (L : LaneCount) (r : Request) : Response.wf L (respond L r) = true := by
  unfold respond
  split
  · next op _ =>
    refine ok_wf _ _ ?_
    cases op with
    | f16Enc | bf16Enc | bf16EncRne => exact encLanes_fits ..
    | f16Dec | bf16Dec => exact decLanes_fits ..
  · exact reserved_wf L

theorem rsp_wf_of_entryOk {L : LaneCount} {e : Entry} (h : EntryOk L e) : Response.wf L e.rsp = true := by
  rw [h.2]
  exact respond_wf ..

theorem restOfEdge_queue_length_le (p : Pins) (s : State) : (restOfEdge p s).queue.length ≤ s.queue.length := by
  rcases restOfEdge_cases p s with ⟨e, l, hq, -, -, -, h⟩ | ⟨-, h⟩
  · simp [h, hq]
  · simp [h]

namespace BlockOk
variable {s : State} (h : BlockOk s)
include h

theorem append_received {l : List Response} (hl : ∀ r ∈ l, Response.wf s.params.lanes r = true) :
    ∀ r ∈ s.received ++ l, Response.wf s.params.lanes r = true := fun r hr =>
  (List.mem_append.mp hr).elim (h.received r) (hl r)

/-- What is in flight becomes what is received. -/
theorem queue_rsp_wf : ∀ r ∈ s.queue.map Entry.rsp, Response.wf s.params.lanes r = true := fun r hr => by
  obtain ⟨e, he, rfl⟩ := List.mem_map.mp hr
  exact rsp_wf_of_entryOk (h.entries e he)

theorem set_rounds (rs : List Round) : BlockOk { s with rounds := rs } :=
  ⟨h.params, h.room, h.entries, h.received, h.mem⟩

theorem set_mem {m : Memory} (hm : Memory.wf m) : BlockOk { s with mem := m } :=
  ⟨h.params, h.room, h.entries, h.received, hm⟩

theorem drain : BlockOk s.drain where
  params := h.params
  room := Nat.zero_le _
  entries := by simp
  received := h.append_received h.queue_rsp_wf
  mem := h.mem

theorem resetBlock : BlockOk s.resetBlock where
  params := h.params
  room := Nat.zero_le _
  entries := by simp
  received := h.received
  mem := h.mem

theorem restOfEdge (p : Pins) : BlockOk (restOfEdge p s) := by
  have hroom := Nat.le_trans (restOfEdge_queue_length_le p s) h.room
  rcases restOfEdge_cases p s with ⟨e, l, hq, -, -, -, he⟩ | ⟨-, he⟩ <;> rw [he] at hroom ⊢
  · have hall : ∀ e' ∈ e :: l, EntryOk s.params.lanes e' := hq ▸ h.entries
    refine ⟨h.params, hroom, fun e' he' => ?_, h.append_received fun r hr => ?_, h.mem⟩
    · obtain ⟨e₀, hmem, rfl⟩ := List.mem_map.mp he'
      exact hall e₀ (List.mem_cons_of_mem _ hmem)
    · rw [List.mem_singleton.mp hr]
      exact rsp_wf_of_entryOk (hall e (List.mem_cons_self ..))
  · refine ⟨h.params, hroom, fun e' he' => ?_, h.received, h.mem⟩
    obtain ⟨e₀, hmem, rfl⟩ := List.mem_map.mp he'
    exact h.entries e₀ hmem

/-- An accepted request meets room and brings its own response. -/
theorem answer {r : Request} (hroom : s.queue.length < s.params.depth)
    (hfits : DataVec.fits s.params.lanes r.data = true) :
    BlockOk (s.answer r.op r.data (respond s.params.lanes r)) where
  params := h.params
  room := by simpa using hroom
  entries := fun e he => by
    rcases List.mem_append.mp he with hold | hnew
    · exact h.entries e hold
    · rw [List.mem_singleton.mp hnew]
      exact ⟨hfits, rfl⟩
  received := h.received
  mem := h.mem

theorem edge {p : Pins} {t : State} (ht : edge p s = .next t) : BlockOk t := by
  rcases edge_cases p s with ⟨-, hs⟩ | ⟨-, -, hs⟩ | ⟨-, r, ha, hs⟩ <;> cases hs.symm.trans ht
  · exact h.resetBlock
  · exact h.restOfEdge p
  · obtain ⟨-, -, hroom, rfl⟩ := acceptedRequest_eq_some.mp ha
    have hanswer := (h.restOfEdge p).answer (r := ⟨p.reqOp, fitLanes s.params.lanes p.reqData⟩)
      (by rw [restOfEdge_params]; exact Nat.lt_of_le_of_lt (restOfEdge_queue_length_le p s) hroom)
      (by rw [restOfEdge_params]; exact fitLanes_fits ..)
    rwa [restOfEdge_params] at hanswer

end BlockOk

theorem wf_storeRound (L : LaneCount) (b : Batch) (j : Nat) (v : DataVec) {m : Memory} (h : Memory.wf m) :
    Memory.wf (storeRound L b j v m) := by
  unfold storeRound
  exact List.foldlRecOn _ _ h fun m' hm' i _ => wf_memWrite hm' ..

theorem blockOk_batchRound {b : Batch} (j : Nat) (s t : State) (h : BlockOk s) (ht : batchRound b j s = .next t) :
    BlockOk t := by
  cases (batchRound_eq b j s).symm.trans ht
  refine ⟨h.params, Nat.zero_le _, by simp, h.drain.append_received fun r hr => ?_, wf_storeRound _ _ _ _ h.mem⟩
  rw [List.mem_singleton.mp hr]
  exact respond_wf ..

/-- Every move keeps the block and its host in order. -/
theorem blockOk_runMove {m : HostMove} {s t : State} (h : BlockOk s) (ht : runMove m s = .next t) : BlockOk t := by
  cases m with
  | drive p => exact h.edge ht
  | batch b => exact execBatch_keeps blockOk_batchRound h ht
  | round b j => exact execRound_keeps blockOk_batchRound h ht
  | start b =>
    rcases startBatch_cases b s with ⟨-, he⟩ | ⟨-, he⟩ <;> cases he.symm.trans ht
    exact h.set_rounds _
  | load k i => cases ht; exact h.set_rounds _
  | ask k rdy =>
    obtain ⟨u, rs, hu, he⟩ := askRound_eq_edge k rdy s
    cases he.symm.trans ht
    exact (h.edge hu).set_rounds rs
  | await => cases ht; exact h.drain
  | write k i =>
    cases ht
    rcases s.writeLane_cases k i with he | ⟨r, v, -, he⟩ <;> rw [he]
    · exact h
    · exact (h.set_mem (wf_memWrite h.mem ..)).set_rounds _
  | store a n v => cases ht; exact h.set_mem (wf_memWrite h.mem ..)

/-- Settles O54: the next move keeps both parts of the invariant, and the idle pins are a move too. That rounds in hand
count on, and stop counting at a reset, is the model's choice, logs 23 and 20. -/
theorem stepKeepsInvariant : Obligations.StepKeepsInvariant := by
  intro s t hs ht
  obtain ⟨hblock, hrounds⟩ := (machineInv_iff s).mp hs
  rw [machineInv_iff]
  cases hm : s.moves with
  | nil =>
    cases (step_of_no_moves hm).symm.trans ht
    exact ⟨hblock.restOfEdge _, roundsOk_restOfEdge _ hrounds⟩
  | cons m rest =>
    rw [step_of_move hm] at ht
    exact ⟨blockOk_runMove (s := { s with moves := rest }) ⟨hblock.1, hblock.2, hblock.3, hblock.4, hblock.5⟩ ht,
      roundsOk_runMove (s := { s with moves := rest }) hrounds ht⟩

/-- Settles O55: the state after reset has nothing in flight, received, in hand or stored. -/
theorem resetHasInvariant : Obligations.ResetHasInvariant :=
  (machineInv_iff _).mpr ⟨⟨rfl, Nat.zero_le _, by simp [State.reset], by simp [State.reset], Memory.wf_nil⟩,
    fun r hr => by cases hr⟩

end Sys2Proof.Machine

/-! PROOFS. Rounding against exact values: the pattern tables of 10_state.md, 40_float16.md R98, R100, R116,
41_bfloat16.md R138 and 93_implementation_defined.md U2. -/

namespace Sys2Proof.Machine

open Sys2Proof.Claims

/-! ### Magnitudes as a function of the pattern -/

/-- The magnitude of the pattern `n` of a format with `w` mantissa bits, in units of its least subnormal: its exponent
and mantissa as one number `n` (10_state.md R27 to R29). -/
def patternMag (w n : Nat) : Nat := if n < 2 ^ w then n else (2 ^ w + n % 2 ^ w) * 2 ^ (n / 2 ^ w - 1)

/-- Exponent field 0: the mantissa counts units. -/
theorem patternMag_of_lt {w n : Nat} (h : n < 2 ^ w) : patternMag w n = n := if_pos h

/-- Exponent field `q`, mantissa `r`. The formula also holds with the mantissa at its end, where the next exponent
begins. -/
theorem patternMag_fields {w q r : Nat} (hq : 0 < q) (hr : r ≤ 2 ^ w) :
    patternMag w (q * 2 ^ w + r) = (2 ^ w + r) * 2 ^ (q - 1) := by
  have hw := Nat.two_pow_pos w
  have hle : 1 * 2 ^ w ≤ q * 2 ^ w := Nat.mul_le_mul_right _ hq
  rcases Nat.lt_or_eq_of_le hr with hlt | rfl
  · have hdiv : (q * 2 ^ w + r) / 2 ^ w = q := by
      rw [Nat.mul_comm, Nat.mul_add_div hw, Nat.div_eq_of_lt hlt, Nat.add_zero]
    have hmod : (q * 2 ^ w + r) % 2 ^ w = r := by rw [Nat.mul_comm, Nat.mul_add_mod, Nat.mod_eq_of_lt hlt]
    rw [patternMag, if_neg (by omega), hdiv, hmod]
  · rw [patternMag, if_neg (by omega), ← Nat.succ_mul, Nat.mul_div_cancel _ hw, Nat.mul_mod_left, Nat.succ_sub_one,
      Nat.add_zero, ← Nat.two_mul, Nat.mul_comm 2, Nat.mul_assoc, ← Nat.pow_succ', Nat.succ_eq_add_one,
      Nat.sub_add_cancel hq]

/-- Between one exponent and the next the magnitude grows evenly, by the exponent's unit. -/
theorem patternMag_linear {w q r d : Nat} (h : r + d ≤ 2 ^ w) :
    patternMag w (q * 2 ^ w + r + d) = patternMag w (q * 2 ^ w + r) + d * 2 ^ (q - 1) := by
  rcases Nat.eq_zero_or_pos q with rfl | hq
  · rcases Nat.lt_or_eq_of_le h with hlt | heq
    · rw [patternMag_of_lt (by omega), patternMag_of_lt (by omega)]
      simp
    · rcases Nat.eq_zero_or_pos d with rfl | hd
      · simp
      · have hend := patternMag_fields (w := w) Nat.one_pos (Nat.zero_le _)
        rw [show 0 * 2 ^ w + r + d = 1 * 2 ^ w + 0 by omega, hend, patternMag_of_lt (by omega)]
        simp [heq]
  · rw [Nat.add_assoc, patternMag_fields hq h, patternMag_fields hq (Nat.le_of_add_right_le h), ← Nat.add_assoc,
      Nat.add_mul]

/-- The next pattern is one unit of the exponent away. -/
theorem patternMag_succ (w n : Nat) : patternMag w (n + 1) = patternMag w n + 2 ^ (n / 2 ^ w - 1) := by
  have h := patternMag_linear (q := n / 2 ^ w) (d := 1) (Nat.mod_lt n (Nat.two_pow_pos w))
  rwa [Nat.div_add_mod', Nat.one_mul] at h

theorem patternMag_strictMono (w : Nat) : StrictMono (patternMag w) :=
  strictMono_nat_of_lt_succ fun n => by
    rw [patternMag_succ]
    exact Nat.lt_add_of_pos_right (Nat.two_pow_pos _)

/-- `d` more mantissa bits, all zero, are the same value in a unit `2^d` smaller. -/
theorem patternMag_shift (w d k : Nat) : patternMag (w + d) (k * 2 ^ d) = patternMag w k * 2 ^ d := by
  have hd := Nat.two_pow_pos d
  unfold patternMag
  rw [Nat.pow_add, Nat.mul_mod_mul_right, Nat.mul_div_mul_right _ _ hd]
  simp only [Nat.mul_lt_mul_right hd]
  split
  · rfl
  · ring

/-- An exponent field larger by `d` is the value times `2^d`. -/
theorem patternMag_rebias {w q r d : Nat} (hq : 0 < q) (hr : r ≤ 2 ^ w) :
    patternMag w ((q + d) * 2 ^ w + r) = patternMag w (q * 2 ^ w + r) * 2 ^ d := by
  have hexp : q + d - 1 = q - 1 + d := by omega
  rw [patternMag_fields (by omega) hr, patternMag_fields hq hr, hexp, Nat.pow_add, Nat.mul_assoc]

/-! ### The three formats -/

theorem low15_eq_fieldsBF16 (b : Code) : low15 b = expBF16 b * 2 ^ 7 + manBF16 b := by
  rw [low15, expBF16_eq, manBF16_eq]
  omega

theorem mag32_eq_patternMag (x : Word32) : mag32 x = patternMag 23 (low31 x) := by
  have hm := man32_lt x
  rw [low31_eq_fields]
  rcases Nat.eq_zero_or_pos (exp32 x) with he | he
  · rw [mag32, if_pos he, he, Nat.zero_mul, Nat.zero_add, patternMag_of_lt hm]
  · rw [mag32_of_exp_pos he, patternMag_fields he hm.le]

theorem magF16_eq_patternMag (h : Code) : magF16 h = patternMag 10 (low15 h) * 2 ^ 125 := by
  have hm := manF16_lt h
  rw [low15_eq_fields, magF16]
  rcases Nat.eq_zero_or_pos (expF16 h) with he | he
  · rw [if_pos he, he, Nat.zero_mul, Nat.zero_add, patternMag_of_lt hm]
  · rw [if_neg he.ne', patternMag_fields he hm.le]

theorem magBF16_eq_patternMag (b : Code) : magBF16 b = patternMag 7 (low15 b) * 2 ^ 16 := by
  have hm := manBF16_lt b
  rw [low15_eq_fieldsBF16, magBF16]
  rcases Nat.eq_zero_or_pos (expBF16 b) with he | he
  · rw [if_pos he, he, Nat.zero_mul, Nat.zero_add, patternMag_of_lt hm]
  · rw [if_neg he.ne', patternMag_fields he hm.le]

theorem low15_lt (h : Code) : low15 h < 2 ^ 15 := Nat.mod_lt _ (by decide)

theorem classF16_eq_nan_iff (h : Code) : classF16 h = .nan ↔ 0x7C01 ≤ low15 h := by
  have := expF16_lt h
  have := manF16_lt h
  rw [classF16, classOf_eq_nan_iff, low15_eq_fields]
  omega

theorem classBF16_eq_nan_iff (b : Code) : classBF16 b = .nan ↔ 0x7F81 ≤ low15 b := by
  have := expBF16_lt b
  have := manBF16_lt b
  rw [classBF16, classOf_eq_nan_iff, low15_eq_fieldsBF16]
  have := low15_lt b
  rw [low15_eq_fieldsBF16] at this
  omega

/-- Settles O7: each class by the fields the pattern holds, the growth by that of `patternMag`. -/
theorem codeClassesByPattern : Obligations.CodeClassesByPattern := by
  refine ⟨fun h => ?_, fun h g hlt => ?_⟩
  · have := low15_lt h
    have := manF16_lt h
    have := manBF16_lt h
    have := low15_eq_fields h
    have := low15_eq_fieldsBF16 h
    refine ⟨?_, ?_, ?_, ?_, classF16_eq_nan_iff h, ?_, ?_, ?_, ?_, classBF16_eq_nan_iff h⟩
    · rw [classF16, classOf_eq_zero_iff]; omega
    · rw [classF16, classOf_eq_subnormal_iff]; omega
    · rw [classF16, classOf_eq_normal_iff]; omega
    · rw [classF16, classOf_eq_infinity_iff]; omega
    · rw [classBF16, classOf_eq_zero_iff]; omega
    · rw [classBF16, classOf_eq_subnormal_iff]; omega
    · rw [classBF16, classOf_eq_normal_iff]; omega
    · rw [classBF16, classOf_eq_infinity_iff]; omega
  · rw [magF16_eq_patternMag, magF16_eq_patternMag, magBF16_eq_patternMag, magBF16_eq_patternMag]
    exact ⟨Nat.mul_lt_mul_of_pos_right (patternMag_strictMono 10 hlt) (by decide),
      Nat.mul_lt_mul_of_pos_right (patternMag_strictMono 7 hlt) (by decide)⟩

/-! ### Rounding to nearest, ties to even -/

/-- Of the values `value n` of the patterns up to `top`, that of `r` is nearest to `x`, and `r` is even if another one
is as near. -/
def NearestEven (value : Nat → Nat) (top x r : Nat) : Prop :=
  ∀ n, n ≤ top → gap x (value r) ≤ gap x (value n) ∧
    (gap x (value r) = gap x (value n) → value n ≠ value r → r % 2 = 0)

/-- A tie goes to the even one of the two neighbours. -/
theorem roundNearest_even_tie (h half : Nat) : (h % 2 = 0 ∧ roundNearest .even h half half = h) ∨
    ((h + 1) % 2 = 0 ∧ roundNearest .even h half half = h + 1) := by
  rcases Nat.mod_two_eq_zero_or_one h with hh | hh
  · exact .inl ⟨hh, if_neg (by omega)⟩
  · exact .inr ⟨by omega, roundNearest_even_of_odd hh le_rfl⟩

section Nearest
variable {value : Nat → Nat} (hv : StrictMono value)
include hv

/-- Rounding `rem` of the `2 * half` equal parts between two neighbouring values picks the nearest of all values. -/
theorem nearestEven_roundNearest {top x k rem half u : Nat} (hu : 0 < u) (hx : x = value k + rem * u)
    (hnext : value (k + 1) = value k + 2 * half * u) (hrem : rem < 2 * half) :
    NearestEven value top x (roundNearest .even k rem half) := by
  intro n _
  have hscale : ∀ a b : Nat, a * u < b * u ↔ a < b := fun a b => Nat.mul_lt_mul_right hu
  have hhalf : 2 * half * u = 2 * (half * u) := Nat.mul_assoc ..
  have hlt := (hscale rem (2 * half)).mpr hrem
  have hside : value n ≤ value k ∨ value (k + 1) ≤ value n :=
    (le_or_gt n k).imp (fun h => hv.monotone h) (fun h => hv.monotone h)
  rw [hhalf] at hnext hlt
  unfold gap
  rcases Nat.lt_trichotomy rem half with hr | rfl | hr
  · have := (hscale rem half).mpr hr
    rw [roundNearest_of_lt _ _ hr]
    omega
  · rcases roundNearest_even_tie k rem with ⟨hk, h⟩ | ⟨hk, h⟩ <;> rw [h] <;> omega
  · have := (hscale half rem).mpr hr
    rw [roundNearest_of_gt _ _ hr]
    omega

/-- Above the last value, the last is nearest. -/
theorem nearestEven_top {top x : Nat} (hx : value top ≤ x) (heven : top % 2 = 0) : NearestEven value top x top := by
  intro n hn
  have := hv.monotone hn
  unfold gap
  exact ⟨by omega, fun _ _ => heven⟩

/-- Of two operands the smaller has no larger result. -/
theorem nearestEven_mono {top x y r s : Nat} (hx : NearestEven value top x r) (hy : NearestEven value top y s)
    (hr : r ≤ top) (hs : s ≤ top) (hxy : x < y) : r ≤ s := by
  by_contra hlt
  have hval := hv (Nat.lt_of_not_le hlt)
  have hxs := (hx s hs).1
  have hyr := (hy r hr).1
  unfold gap at hxs hyr
  omega

/-- A value is its own nearest. -/
theorem nearestEven_value {top n r : Nat} (h : NearestEven value top (value n) r) (hn : n ≤ top) : r = n := by
  have hgap := (h n hn).1
  unfold gap at hgap
  exact hv.injective (by omega)

end Nearest

end Sys2Proof.Machine

/-! PROOFS. The statements of 40_float16.md on rounding, monotonicity, tie rules and the round trip (R98, R100, R116,
93_implementation_defined.md U2, 95_test_vectors.md section 2), and those of 41_bfloat16.md on `bf16.enc.rne` (R138). -/

namespace Sys2Proof.Machine

open Sys2Proof.Claims

/-! ### `f16.enc` rounds to nearest -/

/-- The value of the binary16 pattern `n` in units of 2^-149, infinity being the next value above the largest finite one
(log 16). -/
def f16Value (n : Nat) : Nat := patternMag 10 n * 2 ^ 125

theorem f16Value_strictMono : StrictMono f16Value := fun _ _ h =>
  Nat.mul_lt_mul_of_pos_right (patternMag_strictMono 10 h) (by decide)

theorem magF16_eq_f16Value (h : Code) : magF16 h = f16Value (low15 h) := magF16_eq_patternMag h

section F16
variable {e m : Nat} (hm : m < 2 ^ 23)
include hm

/-- The normal range: between two neighbouring codes lie 2^13 equal parts, which the dropped bits count
(40_float16.md R98). -/
theorem nearestEven_f16encNormal (top : Nat) (he : 113 ≤ e) :
    NearestEven f16Value top (patternMag 23 (e * 2 ^ 23 + m)) (f16encNormal .even e m) := by
  have hrem : m % 2 ^ 13 < 2 * 2 ^ 12 := by omega
  obtain ⟨q, hq, rfl⟩ : ∃ q, 0 < q ∧ e = q + 112 := ⟨e - 112, by omega, by omega⟩
  have hexp : (q * 2 ^ 10 + m / 2 ^ 13) / 2 ^ 10 = q := by omega
  have hsplit : q * 2 ^ 23 + m = (q * 2 ^ 10 + m / 2 ^ 13) * 2 ^ 13 + m % 2 ^ 13 := by omega
  have hfield : (q * 2 ^ 10 + m / 2 ^ 13) * 2 ^ 13 = q * 2 ^ 23 + m / 2 ^ 13 * 2 ^ 13 := by ring
  have hx : patternMag 23 ((q + 112) * 2 ^ 23 + m) =
      f16Value (q * 2 ^ 10 + m / 2 ^ 13) + m % 2 ^ 13 * (2 ^ (q - 1) * 2 ^ 112) := by
    rw [patternMag_rebias hq hm.le, hsplit, hfield, patternMag_linear (by omega), ← hfield, patternMag_shift 10 13,
      f16Value]
    ring
  have hnext : f16Value (q * 2 ^ 10 + m / 2 ^ 13 + 1) =
      f16Value (q * 2 ^ 10 + m / 2 ^ 13) + 2 * 2 ^ 12 * (2 ^ (q - 1) * 2 ^ 112) := by
    rw [f16Value, patternMag_succ, hexp, f16Value]
    ring
  rw [f16encNormal_eq _ hm, Nat.add_sub_cancel]
  exact nearestEven_roundNearest f16Value_strictMono (by positivity) hx hnext hrem

/-- The subnormal range: codes are one unit of 2^-24 apart, which is `2^sh` parts of the operand's unit
(40_float16.md R98). -/
theorem nearestEven_f16encSubnormal (top : Nat) (he : 101 ≤ e) (he' : e ≤ 112) :
    NearestEven f16Value top (patternMag 23 (e * 2 ^ 23 + m)) (f16encSubnormal .even e m) := by
  obtain ⟨sh, hsh, hsh', rfl⟩ : ∃ sh, 13 ≤ sh ∧ sh ≤ 24 ∧ e = 125 - sh := ⟨125 - e, by omega, by omega, by omega⟩
  have hmin : min (126 - (125 - sh)) 25 = sh + 1 := by omega
  have hexp : sh + 1 + (125 - sh - 1) = 125 := by omega
  have hunit : 2 ^ (sh + 1) * 2 ^ (125 - sh - 1) = 2 ^ 125 := by rw [← Nat.pow_add, hexp]
  have hk : (2 ^ 23 + m) / 2 ^ (sh + 1) < 2 ^ 10 := by
    rw [Nat.div_lt_iff_lt_mul (Nat.two_pow_pos _)]
    have hpow : 2 ^ 14 ≤ 2 ^ (sh + 1) := Nat.pow_le_pow_right (by decide) (by omega)
    omega
  have hx : patternMag 23 ((125 - sh) * 2 ^ 23 + m) = f16Value ((2 ^ 23 + m) / 2 ^ (sh + 1)) +
      (2 ^ 23 + m) % 2 ^ (sh + 1) * 2 ^ (125 - sh - 1) := by
    rw [patternMag_fields (by omega) hm.le, f16Value, patternMag_of_lt hk, ← hunit, ← Nat.mul_assoc, ← Nat.add_mul,
      Nat.div_add_mod']
  have hnext : f16Value ((2 ^ 23 + m) / 2 ^ (sh + 1) + 1) = f16Value ((2 ^ 23 + m) / 2 ^ (sh + 1)) +
      2 * 2 ^ sh * 2 ^ (125 - sh - 1) := by
    rw [f16Value, patternMag_succ, Nat.div_eq_of_lt hk, f16Value, ← Nat.pow_succ', hunit]
    ring
  rw [f16encSubnormal_eq _ hm, hmin]
  exact nearestEven_roundNearest f16Value_strictMono (Nat.two_pow_pos _) hx hnext
    (Nat.pow_succ' (m := 2) ▸ Nat.mod_lt _ (Nat.two_pow_pos _))

end F16

/-- Far below the least subnormal 0 is nearest (40_float16.md R99). -/
theorem nearestEven_zero {x top : Nat} (hx : x < 2 ^ 124) : NearestEven f16Value top x 0 := by
  intro n _
  have h0 : f16Value 0 = 0 := rfl
  rcases Nat.eq_zero_or_pos n with rfl | hn
  · exact ⟨le_rfl, fun _ _ => rfl⟩
  · have h1 : 2 ^ 125 ≤ f16Value n := f16Value_strictMono.monotone hn
    rw [h0]
    unfold gap
    exact ⟨by omega, fun _ _ => rfl⟩

/-- `f16.enc` gives an operand that is no NaN the pattern nearest to it (40_float16.md R98). -/
theorem nearestEven_f16enc {x : Word32} (hc : class32 x ≠ .nan) :
    NearestEven f16Value 0x7C00 (mag32 x) (low15 (f16enc x)) := by
  have hm := man32_lt x
  rw [low15_f16enc]
  rcases Nat.lt_or_ge (exp32 x) 113 with hsub | hnorm
  · rw [f16encBits_of_le _ (by omega)]
    rcases Nat.lt_or_ge (exp32 x) 102 with htiny | he
    · rw [f16encSubnormal_of_le _ hm (by omega)]
      exact nearestEven_zero (mag32_lt_of_exp32_lt htiny)
    · rw [mag32_eq_patternMag, low31_eq_fields]
      exact nearestEven_f16encSubnormal hm _ (by omega) (by omega)
  · rcases Nat.lt_or_ge (exp32 x) 143 with he | hover
    · rw [f16encBits_of_normal _ hnorm (by omega), mag32_eq_patternMag, low31_eq_fields]
      exact nearestEven_f16encNormal hm _ hnorm
    · rw [f16encBits_of_ge _ hover (mt (classOf_eq_nan_iff ..).mpr hc)]
      exact nearestEven_top f16Value_strictMono (le_mag32_of_le_exp32 (e := 143) (by decide) hover) rfl

theorem low15_f16enc_le {x : Word32} (hc : class32 x ≠ .nan) : low15 (f16enc x) ≤ 0x7C00 := by
  rw [low15_f16enc]
  exact f16encBits_le _ (man32_lt x) (mt (classOf_eq_nan_iff ..).mpr hc)

theorem low15_le_of_not_nan {h : Code} (hc : classF16 h ≠ .nan) : low15 h ≤ 0x7C00 := by
  rw [Ne, classF16_eq_nan_iff] at hc
  omega

/-- The last bit of a code is the parity of its pattern. -/
theorem getLsbD_zero_eq_false {b : Code} (h : low15 b % 2 = 0) : b.getLsbD 0 = false := by
  rw [low15] at h
  rw [BitVec.getLsbD, Nat.testBit_zero, decide_eq_false_iff_not]
  omega

/-- Settles O23: the result is nearest among the patterns up to infinity, which are the codes that are no NaN. -/
theorem f16EncRoundsToNearestEven : Obligations.F16EncRoundsToNearestEven := by
  refine ⟨fun x hc => ⟨sign16_f16enc x, ?_, fun h hh => ?_⟩, by decide, by decide, by decide, by decide⟩
  · rw [Ne, classF16_eq_nan_iff]
    have := low15_f16enc_le hc
    omega
  · obtain ⟨hnear, heven⟩ := nearestEven_f16enc hc _ (low15_le_of_not_nan hh)
    rw [magF16_eq_f16Value, magF16_eq_f16Value]
    exact ⟨hnear, fun htie hne => getLsbD_zero_eq_false (heven htie hne)⟩

/-- Settles O24: the two ranges stop where the next class begins, and the three carries happen. -/
theorem f16EncCarryStaysInField : Obligations.F16EncCarryStaysInField :=
  ⟨fun tie _ _ _ he hm => f16encNormal_le tie hm he, fun tie _ _ he hm => f16encSubnormal_le tie hm he,
    by decide, by decide, by decide⟩

/-- Settles O25: rounding to nearest keeps the order of values. -/
theorem f16EncMonotone : Obligations.F16EncMonotone := by
  intro x y hx hy _ hxy
  rcases Nat.lt_or_eq_of_le hxy with hlt | heq
  · have hmag : mag32 x < mag32 y := by
      rw [mag32_eq_patternMag, mag32_eq_patternMag]
      exact patternMag_strictMono 23 hlt
    exact nearestEven_mono f16Value_strictMono (nearestEven_f16enc hx) (nearestEven_f16enc hy) (low15_f16enc_le hx)
      (low15_f16enc_le hy) hmag
  · have := man32_lt x
    have := man32_lt y
    rw [low31_eq_fields, low31_eq_fields] at heq
    obtain ⟨he, hm⟩ : exp32 x = exp32 y ∧ man32 x = man32 y := by omega
    rw [low15_f16enc, low15_f16enc, he, hm]

/-! ### The round trip -/

/-- A code is its sign beside its fifteen lower bits. -/
theorem signedCode_low15 (h : Code) : signedCode (sign16 h) (low15 h) = h := by
  apply BitVec.eq_of_toNat_eq
  have := h.isLt
  rw [signedCode_toNat, sign16_eq, low15]
  omega

/-- A finite code is the pattern nearest to its own value (40_float16.md R116). -/
theorem f16enc_f16dec_of_finite {h : Code} (hnan : classF16 h ≠ .nan) (hinf : classF16 h ≠ .infinity) :
    f16enc (f16dec h) = h := by
  obtain ⟨hexp, hmag⟩ := f16dec_finite_exact hnan hinf
  have hc : class32 (f16dec h) ≠ .nan := fun hc => hexp.ne ((classOf_eq_nan_iff ..).mp hc).1
  have hnear := nearestEven_f16enc hc
  rw [hmag, magF16_eq_f16Value] at hnear
  have hlow := nearestEven_value f16Value_strictMono hnear (low15_le_of_not_nan hnan)
  rw [← signedCode_low15 (f16enc (f16dec h)), hlow, sign16_f16enc, sign32_f16dec, signedCode_low15]

/-- Settles O30: a finite code by its value, an infinity by its row, a NaN because it decodes to a NaN. -/
theorem f16RoundTrip : Obligations.F16RoundTrip := by
  intro h
  obtain ⟨hspecial, -⟩ := f16DecSpecialCodes
  refine ⟨fun hnan => ?_, fun hnan => ?_⟩
  · by_cases hinf : classF16 h = .infinity
    · obtain ⟨he, hm⟩ := (classOf_eq_infinity_iff ..).mp hinf
      have hlow : 0x7C00 = low15 h := by
        rw [low15_eq_fields]
        omega
      obtain ⟨-, -, henc⟩ := f16EncCanonicalisesNaN (f16dec h)
      rw [henc (class32_f16dec_of_infinity hinf), sign32_f16dec, hlow, signedCode_low15]
    · exact f16enc_f16dec_of_finite hnan hinf
  · obtain ⟨-, -, hdec⟩ := hspecial h
    obtain ⟨henc, -⟩ := f16EncCanonicalisesNaN (f16dec h)
    rw [(henc (hdec hnan).1).1, sign32_f16dec]

/-! ### The two tie rules -/

/-- The tie rules agree but on a tie at an even number (93_implementation_defined.md U2). -/
theorem roundNearest_away (h rem half : Nat) : roundNearest .away h rem half =
    roundNearest .even h rem half + if rem = half ∧ h % 2 = 0 then 1 else 0 := by
  rcases Nat.lt_trichotomy rem half with hr | rfl | hr
  · rw [roundNearest_of_lt _ _ hr, roundNearest_of_lt _ _ hr, if_neg (by omega), Nat.add_zero]
  · have haway : roundNearest .away h rem rem = h + 1 := if_pos le_rfl
    rcases roundNearest_even_tie h rem with ⟨hh, heven⟩ | ⟨hh, heven⟩
    · rw [haway, heven, if_pos ⟨rfl, hh⟩]
    · rw [haway, heven, if_neg (by omega), Nat.add_zero]
  · rw [roundNearest_of_gt _ _ hr, roundNearest_of_gt _ _ hr, if_neg (by omega), Nat.add_zero]

/-- The operands of 93_implementation_defined.md U2: in either range, half a unit dropped and the kept bit 0. -/
def evenTie (e m : Nat) : Prop :=
  (113 ≤ e ∧ e ≤ 142 ∧ m % 2 ^ 13 = 0x1000 ∧ m / 2 ^ 13 % 2 = 0) ∨
    (102 ≤ e ∧ e ≤ 112 ∧ (2 ^ 23 + m) % 2 ^ (126 - e) = 2 ^ (125 - e) ∧ (2 ^ 23 + m) / 2 ^ (126 - e) % 2 = 0)

/-- The tie rules differ on those operands alone, by one. -/
theorem f16encBits_away {e m : Nat} (hm : m < 2 ^ 23) :
    (evenTie e m ∧ f16encBits .away e m = f16encBits .even e m + 1) ∨
      (¬ evenTie e m ∧ f16encBits .away e m = f16encBits .even e m) := by
  unfold evenTie
  rcases Nat.lt_or_ge e 113 with hsub | hnorm
  · rw [f16encBits_of_le _ (by omega), f16encBits_of_le _ (by omega)]
    rcases Nat.lt_or_ge e 102 with htiny | he
    · rw [f16encSubnormal_of_le _ hm (by omega), f16encSubnormal_of_le _ hm (by omega)]
      exact .inr ⟨by omega, rfl⟩
    · have hmin : min (126 - e) 25 = 126 - e := by omega
      have hhalf : 126 - e - 1 = 125 - e := by omega
      rw [f16encSubnormal_eq _ hm, f16encSubnormal_eq _ hm, hmin, hhalf, roundNearest_away]
      split
      · next h => exact .inl ⟨.inr ⟨he, by omega, h⟩, rfl⟩
      · next h => exact .inr ⟨fun hor => hor.elim (by omega) fun ⟨_, _, htie⟩ => h htie, rfl⟩
  · rcases Nat.lt_or_ge e 143 with hfin | hover
    · rw [f16encBits_of_normal _ hnorm (by omega), f16encBits_of_normal _ hnorm (by omega), f16encNormal_eq _ hm,
        f16encNormal_eq _ hm, roundNearest_away]
      split
      · next h => exact .inl ⟨.inl ⟨hnorm, by omega, h.1, by omega⟩, rfl⟩
      · next h => exact .inr ⟨by omega, rfl⟩
    · refine .inr ⟨by omega, ?_⟩
      by_cases hn : e = 255 ∧ m ≠ 0
      · rw [hn.1, f16encBits_of_nan _ hn.2, f16encBits_of_nan _ hn.2]
      · rw [f16encBits_of_ge _ hover hn, f16encBits_of_ge _ hover hn]

theorem f16encWith_toNat (tie : TieRule) (x : Word32) :
    (f16encWith tie x).toNat = (sign32 x).toNat * 2 ^ 15 + f16encBits tie (exp32 x) (man32 x) := by
  rw [f16encWith_eq, signedCode_toNat, Nat.mod_eq_of_lt (f16encBits_lt tie (man32_lt x) _)]

/-- The whole encodings differ as their lower bits do. -/
theorem f16encWith_away (x : Word32) :
    (evenTie (exp32 x) (man32 x) ∧ (f16encWith .away x).toNat = (f16enc x).toNat + 1) ∨
      (¬ evenTie (exp32 x) (man32 x) ∧ f16encWith .away x = f16enc x) := by
  have haway := f16encWith_toNat .away x
  have heven : (f16enc x).toNat = (sign32 x).toNat * 2 ^ 15 + f16encBits .even (exp32 x) (man32 x) :=
    f16encWith_toNat .even x
  refine (f16encBits_away (man32_lt x)).imp (And.imp_right fun h => ?_) (And.imp_right fun h => ?_)
  · rw [haway, h, heven, Nat.add_assoc]
  · exact BitVec.eq_of_toNat_eq (by rw [haway, h, heven])

theorem f16encWith_away_ne_iff (x : Word32) : f16encWith .away x ≠ f16enc x ↔ evenTie (exp32 x) (man32 x) := by
  rcases f16encWith_away x with ⟨ht, h⟩ | ⟨ht, h⟩
  · exact iff_of_true (fun heq => by rw [heq] at h; omega) ht
  · exact iff_of_false (not_not_intro h) ht

/-- Settles O26: the operands on which the rules differ, range by range. -/
theorem tieRulesDifferOnlyOnEvenTies : Obligations.TieRulesDifferOnlyOnEvenTies := by
  intro x
  refine ⟨?_, fun he he' => ?_, fun he he' => ?_, fun he => ?_⟩
  · rcases f16encWith_away x with ⟨-, h⟩ | ⟨-, h⟩
    · exact .inr h
    · exact .inl (congrArg BitVec.toNat h)
  · rw [f16encWith_away_ne_iff]
    refine ⟨fun h => ?_, fun ⟨hrem, hk⟩ => .inl ⟨he, he', hrem, hk⟩⟩
    rcases h with ⟨-, -, htie⟩ | ⟨-, hle, -⟩
    · exact htie
    · omega
  · rw [f16encWith_away_ne_iff]
    refine ⟨fun h => ?_, fun htie => .inr ⟨he, he', htie⟩⟩
    rcases h with ⟨hge, -⟩ | ⟨-, -, htie⟩
    · omega
    · exact htie
  · by_contra hne
    rcases (f16encWith_away_ne_iff x).mp hne with ⟨hge, hle, -⟩ | ⟨hge, hle, -⟩ <;> omega

/-! ### `bf16.enc.rne` -/

/-- The sum of 41_bfloat16.md R138 rounds the upper half to nearest, ties to even, at bit 16. -/
theorem low15_bf16encr {x : Word32} (hc : class32 x ≠ .nan) :
    low15 (bf16encr x) = roundNearest .even (low31 x / 2 ^ 16) (low31 x % 2 ^ 16) 0x8000 := by
  have hle := low31_le_of_not_nan hc
  have hsum : low15 (bf16encr x) = (low31 x + 0x7FFF + low31 x / 2 ^ 16 % 2) / 2 ^ 16 := by
    have hbit : x.toNat / 2 ^ 16 % 2 = low31 x / 2 ^ 16 % 2 := by
      rw [low31]
      omega
    rw [low15, bf16encr_toNat_of_not_nan hc, hbit]
    have hlow : x.toNat = x.toNat / 2 ^ 31 * 2 ^ 31 + low31 x := (Nat.div_add_mod' ..).symm
    omega
  rw [hsum]
  rcases Nat.lt_trichotomy (low31 x % 2 ^ 16) 0x8000 with hr | hr | hr
  · rw [roundNearest_of_lt _ _ hr]
    omega
  · rw [hr]
    rcases roundNearest_even_tie (low31 x / 2 ^ 16) 0x8000 with ⟨hk, h⟩ | ⟨hk, h⟩ <;> rw [h] <;> omega
  · rw [roundNearest_of_gt _ _ hr]
    omega

/-- The increment stops at infinity (41_bfloat16.md R138). -/
theorem low15_bf16encr_le {x : Word32} (hc : class32 x ≠ .nan) : low15 (bf16encr x) ≤ 0x7F80 := by
  have hle := low31_le_of_not_nan hc
  rcases Nat.lt_or_eq_of_le hle with hlt | heq
  · have := roundNearest_cases .even (low31 x / 2 ^ 16) (low31 x % 2 ^ 16) 0x8000
    rw [low15_bf16encr hc]
    omega
  · rw [low15_bf16encr hc, heq]
    decide

theorem sign16_bf16encr {x : Word32} (hc : class32 x ≠ .nan) : sign16 (bf16encr x) = sign32 x := by
  have hle := low31_le_of_not_nan hc
  apply BitVec.eq_of_toNat_eq
  rw [low31] at hle
  rw [sign16_eq, bf16encr_toNat_of_not_nan hc, sign32_eq]
  omega

/-- Setting bit 6 of a code sets the top bit of its mantissa and nothing else. -/
theorem quieted_fields (b : Code) : expBF16 (b ||| 0x0040) = expBF16 b ∧ manBF16 (b ||| 0x0040) = manBF16 b ||| 0x40 ∧
    quietBF16 (b ||| 0x0040) = true := by
  refine ⟨?_, ?_, ?_⟩
  · rw [expBF16, BitVec.extractLsb'_or, expBF16]
    exact congrArg BitVec.toNat BitVec.or_zero
  · rw [manBF16, BitVec.extractLsb'_or, BitVec.toNat_or, manBF16]
    rfl
  · rw [quietBF16, BitVec.getLsbD_or]
    exact Bool.or_true _

/-- Settles O36: the sum with what it keeps; a quieted NaN; an infinity, whose dropped half is zero. -/
theorem bf16EncRneSumAndNaN : Obligations.Bf16EncRneSumAndNaN := by
  refine ⟨fun x => ⟨fun hc => ⟨bf16encr_toNat_of_not_nan hc, sign16_bf16encr hc, fun hnan => ?_⟩, fun hc => ?_,
    fun hc => ?_⟩, by decide, by decide, by decide, by decide, by decide⟩
  · have := low15_bf16encr_le hc
    have := (classBF16_eq_nan_iff _).mp hnan
    omega
  · obtain ⟨he, -⟩ := (classOf_eq_nan_iff ..).mp hc
    obtain ⟨hexp, hman, hquiet⟩ := quieted_fields (bf16enc x)
    rw [bf16encr_of_nan hc]
    refine ⟨(classOf_eq_nan_iff ..).mpr ⟨by rw [hexp, expBF16_bf16enc, he], ?_⟩, hquiet, rfl⟩
    have hset : 0x40 ≤ manBF16 (bf16enc x) ||| 0x40 := Nat.right_le_or
    omega
  · obtain ⟨he, hm⟩ := (classOf_eq_infinity_iff ..).mp hc
    have hlow := low31_eq_fields x
    refine (bf16EncodersDiffer x).1 (by simp [hc]) (.inl ?_)
    rw [he, hm, low31] at hlow
    omega

/-- The value of the bfloat16 pattern `n` in units of 2^-149, infinity being the next value above the largest finite one
(log 16). -/
def bf16Value (n : Nat) : Nat := patternMag 7 n * 2 ^ 16

theorem bf16Value_strictMono : StrictMono bf16Value := fun _ _ h =>
  Nat.mul_lt_mul_of_pos_right (patternMag_strictMono 7 h) (by decide)

/-- Between two neighbouring codes lie 2^16 equal parts, which the lower half counts (41_bfloat16.md R138). -/
theorem nearestEven_bf16encr {x : Word32} (hc : class32 x ≠ .nan) (top : Nat) :
    NearestEven bf16Value top (mag32 x) (low15 (bf16encr x)) := by
  obtain ⟨k, rem, hrem, hx⟩ : ∃ k rem, rem < 2 ^ 16 ∧ low31 x = k * 2 ^ 16 + rem :=
    ⟨_, _, Nat.mod_lt _ (by decide), (Nat.div_add_mod' ..).symm⟩
  have hdiv : low31 x / 2 ^ 16 = k := by omega
  have hmod : low31 x % 2 ^ 16 = rem := by omega
  have hfield : k * 2 ^ 16 = k / 2 ^ 7 * 2 ^ 23 + k % 2 ^ 7 * 2 ^ 16 := by omega
  have hmag : mag32 x = bf16Value k + rem * 2 ^ (k / 2 ^ 7 - 1) := by
    rw [mag32_eq_patternMag, hx, hfield, patternMag_linear (by omega), ← hfield, patternMag_shift 7 16, bf16Value]
  have hnext : bf16Value (k + 1) = bf16Value k + 2 * 0x8000 * 2 ^ (k / 2 ^ 7 - 1) := by
    rw [bf16Value, patternMag_succ, bf16Value]
    ring
  rw [low15_bf16encr hc, hdiv, hmod]
  exact nearestEven_roundNearest bf16Value_strictMono (Nat.two_pow_pos _) hmag hnext hrem

/-- Settles O37: the result is nearest among all patterns. -/
theorem bf16EncRneRoundsToNearestEven : Obligations.Bf16EncRneRoundsToNearestEven := by
  intro x hc b _
  obtain ⟨hnear, heven⟩ := nearestEven_bf16encr hc (low15 b) _ le_rfl
  rw [magBF16_eq_patternMag, magBF16_eq_patternMag]
  exact ⟨hnear, fun htie hne => getLsbD_zero_eq_false (heven htie hne)⟩

/-! ### Named constants -/

/-- Settles O32: each row of the two tables by its own digits. -/
theorem namedConstants : Obligations.NamedConstants := by
  unfold Obligations.NamedConstants
  decide

end Sys2Proof.Machine

/-! PROOFS. The statements of 20_memory.md and 42_lanes_and_batch.md on what a store, a batch, a round and two batches
leave in memory (R41, R55, R153, R156). -/

namespace Sys2Proof.Machine

open Sys2Proof.Safety Sys2Proof.Claims

/-- Settles O41: what `MemWrite` does to its own bytes and to the others. -/
theorem hostStoreWritesItsBytesOnly : Obligations.HostStoreWritesItsBytesOnly := by
  intro s a n v rest hm hwf
  rw [step_of_move hm]
  refine ⟨_, rfl, memRead_memWrite_self hwf a n v, fun b hb => ?_, rfl, rfl, rfl, rfl, rfl, rfl⟩
  rw [State.hostStore_mem, readByte_memWrite hwf, if_neg (by omega)]

/-! ### Elements and their bytes -/

/-- Where element `p.2` of batch `p.1` is stored. -/
def elementAddr (p : Batch × Nat) : Nat := p.1.dst + dstBytes p.1.op * p.2

/-- The bytes of that element. -/
def inElement (p : Batch × Nat) (a : Nat) : Prop := elementAddr p ≤ a ∧ a < elementAddr p + dstBytes p.1.op

/-- A byte lies in the element whose number its distance from the array's start gives. -/
theorem inElement_iff (b : Batch) (k a : Nat) :
    inElement (b, k) a ↔ b.dst ≤ a ∧ (a - b.dst) / dstBytes b.op = k := by
  have hw := dstBytes_pos b.op
  simp only [inElement, elementAddr]
  constructor
  · intro ⟨h, h'⟩
    refine ⟨by omega, Nat.div_eq_of_lt_le ?_ ?_⟩
    · rw [Nat.mul_comm]
      omega
    · rw [Nat.mul_comm, Nat.mul_succ]
      omega
  · rintro ⟨h, rfl⟩
    have hdm := Nat.div_add_mod (a - b.dst) (dstBytes b.op)
    have hlt := Nat.mod_lt (a - b.dst) hw
    omega

/-- The bytes a batch writes are those of its elements. -/
theorem inDst_iff (b : Batch) (a : Nat) : inDst b a ↔ ∃ k, k < b.n ∧ inElement (b, k) a := by
  simp only [inDst, inElement_iff]
  constructor
  · intro ⟨h, h'⟩
    refine ⟨_, ?_, h, rfl⟩
    rw [Nat.div_lt_iff_lt_mul (dstBytes_pos b.op), Nat.mul_comm]
    omega
  · rintro ⟨k, hk, h, hdiv⟩
    rw [← hdiv, Nat.div_lt_iff_lt_mul (dstBytes_pos b.op), Nat.mul_comm] at hk
    omega

/-- A byte of a value read at `a`. -/
theorem readByte_of_memRead (m : Memory) (a : Nat) {n i : Nat} (hi : i < n) :
    Memory.readByte m (a + i) = BitVec.ofNat 8 (memRead m a n / 256 ^ i) := by
  induction n generalizing a i with
  | zero => cases hi
  | succ n ih =>
    have hlt := (Memory.readByte m a).isLt
    rw [memRead]
    cases i with
    | zero =>
      apply BitVec.eq_of_toNat_eq
      rw [Nat.add_zero, Nat.pow_zero, Nat.div_one, BitVec.toNat_ofNat]
      omega
    | succ i =>
      have hdiv : ((Memory.readByte m a).toNat + 256 * memRead m (a + 1) n) / 256 = memRead m (a + 1) n := by omega
      rw [← Nat.add_assoc, Nat.add_right_comm, ih (a + 1) (Nat.lt_of_succ_lt_succ hi), Nat.pow_succ',
        ← Nat.div_div_eq_div_mul, hdiv]

/-! ### Memory with some results stored -/

/-- Memory `m` is `m₀` with exactly the results of the elements in `D` stored, each computed from `m₀`. -/
structure StoredResults (m₀ : Memory) (D : Set (Batch × Nat)) (m : Memory) : Prop where
  wf : Memory.wf m
  inside : ∀ p ∈ D, memRead m (elementAddr p) (dstBytes p.1.op) = elementResult p.1 m₀ p.2
  outside : ∀ a, (∀ p ∈ D, ¬ inElement p a) → Memory.readByte m a = Memory.readByte m₀ a

namespace StoredResults
variable {m₀ m m' : Memory} {D : Set (Batch × Nat)}

theorem none_stored (h : Memory.wf m₀) : StoredResults m₀ ∅ m₀ := ⟨h, by simp, fun _ _ => rfl⟩

/-- The stored elements determine the memory, whatever the order of the stores. -/
theorem unique (h : StoredResults m₀ D m) (h' : StoredResults m₀ D m') : m = m' := by
  refine Memory.ext_of_readByte h.wf h'.wf fun a => ?_
  by_cases ha : ∃ p ∈ D, inElement p a
  · obtain ⟨p, hp, hle, hlt⟩ := ha
    obtain ⟨i, rfl⟩ := Nat.exists_eq_add_of_le hle
    rw [readByte_of_memRead m _ (Nat.lt_of_add_lt_add_left hlt), h.inside p hp,
      readByte_of_memRead m' _ (Nat.lt_of_add_lt_add_left hlt), h'.inside p hp]
  · have hout : ∀ p ∈ D, ¬ inElement p a := fun p hp hin => ha ⟨p, hp, hin⟩
    rw [h.outside a hout, h'.outside a hout]

/-- A read that shares no byte with the stored elements returns what it did before. -/
theorem memRead_eq (h : StoredResults m₀ D m) {a n : Nat} (hd : ∀ p ∈ D, ∀ c, inElement p c → ¬ (a ≤ c ∧ c < a + n)) :
    memRead m a n = memRead m₀ a n :=
  memRead_congr fun c hc hc' => h.outside c fun p hp hin => hd p hp c hin ⟨hc, hc'⟩

/-- Storing one more result, which shares no byte with another element. -/
theorem storeElement (h : StoredResults m₀ D m) {b : Batch} {k : Nat}
    (hd : ∀ p ∈ D, p ≠ (b, k) → ∀ a, inElement p a → ¬ inElement (b, k) a) :
    StoredResults m₀ (insert (b, k) D) (storeElement b m k (elementResult b m₀ k)) where
  wf := wf_memWrite h.wf ..
  inside := fun p hp => by
    by_cases hpk : p = (b, k)
    · subst hpk
      refine (memRead_memWrite_self h.wf ..).trans (Nat.mod_eq_of_lt ?_)
      rw [elementResult_eq]
      exact Op.scalarNat_lt ..
    · have hpD : p ∈ D := (Set.mem_insert_iff.mp hp).resolve_left hpk
      rw [← h.inside p hpD]
      refine memRead_congr fun c hc hc' => ?_
      have hout : ¬ inElement (b, k) c := hd p hpD hpk c ⟨hc, hc'⟩
      rw [Machine.storeElement, readByte_memWrite h.wf]
      exact if_neg hout
  outside := fun a ha => by
    have hout : ¬ inElement (b, k) a := ha _ (Set.mem_insert ..)
    rw [← h.outside a fun p hp => ha p (Set.mem_insert_of_mem _ hp), Machine.storeElement, readByte_memWrite h.wf]
    exact if_neg hout

end StoredResults

/-! ### Independent batches -/

/-- None of the batches reads what one of them writes, and no two write the same byte (20_memory.md R55). -/
structure Independent (bs : Set Batch) : Prop where
  source : ∀ b ∈ bs, ∀ c ∈ bs, ∀ a, ¬ (inSrc b a ∧ inDst c a)
  dest : ∀ b ∈ bs, ∀ c ∈ bs, b ≠ c → ∀ a, ¬ (inDst b a ∧ inDst c a)

/-- The elements of batches. -/
def elementsOf (bs : Set Batch) : Set (Batch × Nat) := {p | p.1 ∈ bs ∧ p.2 < p.1.n}

theorem inDst_of_inElement {p : Batch × Nat} {a : Nat} (hp : p.2 < p.1.n) (h : inElement p a) : inDst p.1 a :=
  (inDst_iff ..).mpr ⟨p.2, hp, h⟩

theorem independent_single {b : Batch} (h : batchDisjoint b = true) : Independent {b} where
  source := by
    rintro _ rfl _ rfl
    exact (batchDisjoint_iff _).mp h
  dest := by
    rintro _ rfl _ rfl hne
    exact absurd rfl hne

section Independent
variable {bs : Set Batch} (hi : Independent bs)
include hi

/-- Two elements of independent batches share no byte. -/
theorem Independent.elements_apart {p q : Batch × Nat} (hp : p ∈ elementsOf bs) (hq : q ∈ elementsOf bs) (hne : p ≠ q)
    {a : Nat} (ha : inElement p a) : ¬ inElement q a := by
  intro ha'
  by_cases hb : p.1 = q.1
  · obtain ⟨b, k⟩ := p
    obtain ⟨c, l⟩ := q
    obtain rfl : b = c := hb
    obtain ⟨-, hk⟩ := (inElement_iff ..).mp ha
    obtain ⟨-, hl⟩ := (inElement_iff ..).mp ha'
    exact hne (by rw [← hk, hl])
  · exact hi.dest _ hp.1 _ hq.1 hb a ⟨inDst_of_inElement hp.2 ha, inDst_of_inElement hq.2 ha'⟩

/-- Storing results of independent batches leaves their sources. -/
theorem Independent.sourceElement_eq {m₀ m : Memory} {D : Set (Batch × Nat)} (h : StoredResults m₀ D m)
    (hD : D ⊆ elementsOf bs) {b : Batch} (hb : b ∈ bs) {k : Nat} (hk : k < b.n) :
    sourceElement b m k = sourceElement b m₀ k := by
  have hsrc : srcBytes b.op * (k + 1) ≤ srcBytes b.op * b.n := Nat.mul_le_mul_left _ hk
  rw [Nat.mul_succ] at hsrc
  refine h.memRead_eq fun p hp c hin ⟨hc, hc'⟩ => ?_
  exact hi.source b hb p.1 (hD hp).1 c ⟨⟨by omega, by omega⟩, inDst_of_inElement (hD hp).2 hin⟩

/-- So each result is the one from the memory before. -/
theorem Independent.elementResult_eq {m₀ m : Memory} {D : Set (Batch × Nat)} (h : StoredResults m₀ D m)
    (hD : D ⊆ elementsOf bs) {b : Batch} (hb : b ∈ bs) {k : Nat} (hk : k < b.n) :
    elementResult b m k = elementResult b m₀ k := by
  rw [Machine.elementResult_eq, hi.sourceElement_eq h hD hb hk, ← Machine.elementResult_eq]

end Independent

/-- Storing the results of a list of a batch's elements. -/
theorem StoredResults.foldl {m₀ m : Memory} {D : Set (Batch × Nat)} (b : Batch) (l : List Nat)
    (h : StoredResults m₀ D m) (hd : ∀ k ∈ l, ∀ p ∈ D, p ≠ (b, k) → ∀ a, inElement p a → ¬ inElement (b, k) a) :
    StoredResults m₀ (D ∪ {p | p.1 = b ∧ p.2 ∈ l})
      (l.foldl (fun m k => Machine.storeElement b m k (elementResult b m₀ k)) m) := by
  induction l generalizing D m with
  | nil => simpa using h
  | cons k l ih =>
    have hset : D ∪ {p | p.1 = b ∧ p.2 ∈ k :: l} = insert (b, k) D ∪ {p | p.1 = b ∧ p.2 ∈ l} := by
      ext ⟨c, i⟩
      simp only [Set.mem_union, Set.mem_ofPred_eq, Set.mem_insert_iff, List.mem_cons, Prod.mk.injEq]
      tauto
    rw [hset, List.foldl_cons]
    refine ih (h.storeElement (hd k (List.mem_cons_self ..))) fun i hi p hp hne a ha ha' => ?_
    rcases Set.mem_insert_iff.mp hp with rfl | hp
    · obtain ⟨-, hk⟩ := (inElement_iff ..).mp ha
      obtain ⟨-, hi'⟩ := (inElement_iff ..).mp ha'
      exact hne (by rw [← hk, hi'])
    · exact hd i (List.mem_cons_of_mem _ hi) p hp hne a ha ha'

/-- The same with each result computed from the memory the stores begin with: no source has changed. -/
theorem StoredResults.foldl_results {m₀ m : Memory} {D : Set (Batch × Nat)} {bs : Set Batch} (hi : Independent bs)
    (h : StoredResults m₀ D m) (hD : D ⊆ elementsOf bs) {b : Batch} (hb : b ∈ bs) {l : List Nat}
    (hl : ∀ k ∈ l, k < b.n) : StoredResults m₀ (D ∪ {p | p.1 = b ∧ p.2 ∈ l})
      (l.foldl (fun m' k => Machine.storeElement b m' k (elementResult b m k)) m) := by
  have hvalues : l.foldl (fun m' k => Machine.storeElement b m' k (elementResult b m k)) m =
      l.foldl (fun m' k => Machine.storeElement b m' k (elementResult b m₀ k)) m :=
    List.foldl_ext _ _ _ fun m' k hk => by rw [hi.elementResult_eq h hD hb (hl k hk)]
  rw [hvalues]
  exact h.foldl b l fun k hk p hp hne a ha => hi.elements_apart (hD hp) ⟨hb, hl k hk⟩ hne ha

/-- Of batches that may be converted at the same time no two different ones meet, and none meets itself. -/
theorem independent_of_compatible {bs : List Batch} (hc : bs.Pairwise Compatible)
    (hd : ∀ b ∈ bs, batchDisjoint b = true) : Independent {b | b ∈ bs} := by
  have hsymm : Std.Symm Compatible := ⟨fun b c ⟨hdd, hds, hsd⟩ =>
    ⟨fun a h => hdd a h.symm, fun a h => hsd a h.symm, fun a h => hds a h.symm⟩⟩
  refine ⟨fun b hb c hcmem => ?_, fun b hb c hcmem hne => (hc.forall hb hcmem hne).1⟩
  by_cases hbc : b = c
  · subst hbc
    exact (batchDisjoint_iff b).mp (hd b hb)
  · exact (hc.forall hb hcmem hbc).2.2

/-! ### Whole batches -/

theorem elementsOf_single (b : Batch) : elementsOf {b} = {p | p.1 = b ∧ p.2 ∈ List.range b.n} := by
  ext ⟨c, k⟩
  simp only [elementsOf, Set.mem_singleton_iff, Set.mem_ofPred_eq, List.mem_range]
  constructor <;> rintro ⟨rfl, h⟩ <;> exact ⟨rfl, h⟩

/-- A batch adds its elements to those stored. -/
theorem StoredResults.execBatch {m₀ : Memory} {D : Set (Batch × Nat)} {bs : Set Batch} {s t : State}
    (hi : Independent bs) (h : StoredResults m₀ D s.mem) (hD : D ⊆ elementsOf bs) {b : Batch} (hb : b ∈ bs)
    (ht : execBatch b s = .next t) : StoredResults m₀ (D ∪ elementsOf {b}) t.mem := by
  rw [mem_execBatch h.wf ht, elementsOf_single, converted]
  exact h.foldl_results hi hD hb fun k hk => List.mem_range.mp hk

/-- The memory a batch leaves: its own elements stored, every other byte as before. -/
theorem storedResults_converted {b : Batch} {m : Memory} (h : Memory.wf m) (hd : batchDisjoint b = true) :
    StoredResults m (elementsOf {b}) (converted b m b.n) := by
  have hstored := (StoredResults.none_stored h).foldl_results (independent_single hd) (Set.empty_subset _)
    (Set.mem_singleton b) (l := List.range b.n) fun k hk => List.mem_range.mp hk
  rwa [Set.empty_union, ← elementsOf_single] at hstored

/-- A byte no batch writes lies in none of their elements. -/
theorem not_inElement_of_not_inDst {bs : Set Batch} {a : Nat} (h : ∀ b ∈ bs, ¬ inDst b a) :
    ∀ p ∈ elementsOf bs, ¬ inElement p a :=
  fun p hp hin => h p.1 hp.1 (inDst_of_inElement hp.2 hin)

/-- Settles O42: the whole effect of a batch, its memory taken apart into elements and other bytes. -/
theorem batchWholeEffect : Obligations.BatchWholeEffect := by
  intro s b rest hm hd hwf hn
  have hmem := storedResults_converted hwf hd
  rw [step_batch hm]
  refine ⟨_, execBatch_eq hwf hd hn, fun k hk => hmem.inside (b, k) ⟨rfl, hk⟩, fun a ha => ?_, hmem.wf, rfl, rfl, rfl,
    rfl, rfl⟩
  exact hmem.outside a (not_inElement_of_not_inDst fun c hc => Set.mem_singleton_iff.mp hc ▸ ha)

/-! ### Single rounds -/

/-- The elements of round `j`. -/
def roundElements (L : LaneCount) (b : Batch) (j : Nat) : List Nat :=
  (List.range (roundCount L b j)).map (j * L.count + ·)

/-- Element `k` belongs to round `k / LANES`. -/
theorem mem_roundElements_iff {L : LaneCount} {b : Batch} {j k : Nat} :
    k ∈ roundElements L b j ↔ k < b.n ∧ k / L.count = j := by
  have hL := LaneCount.count_pos L
  simp only [roundElements, List.mem_map, List.mem_range, roundCount]
  constructor
  · rintro ⟨i, hi, rfl⟩
    refine ⟨by omega, ?_⟩
    rw [Nat.mul_comm, Nat.mul_add_div hL, Nat.div_eq_of_lt (by omega), Nat.add_zero]
  · rintro ⟨hk, rfl⟩
    have hdm := Nat.div_add_mod' k L.count
    have hlt := Nat.mod_lt k hL
    exact ⟨k % L.count, by omega, hdm⟩

/-- Lane `i` of round `j`, if it is a real one, holds one of the round's elements. -/
theorem mem_roundElements {L : LaneCount} {b : Batch} {i j : Nat} (hi : i < L.count) (hk : j * L.count + i < b.n) :
    j * L.count + i ∈ roundElements L b j :=
  List.mem_map_of_mem (List.mem_range.mpr (by rw [roundCount]; omega))

/-- The bytes before a round's first element and after its last belong to none of its elements. -/
theorem not_inElement_of_outside_round {L : LaneCount} {b : Batch} {j a : Nat}
    (ha : a < b.dst + dstBytes b.op * (j * L.count) ∨ b.dst + dstBytes b.op * min b.n ((j + 1) * L.count) ≤ a) :
    ∀ p ∈ {p : Batch × Nat | p.1 = b ∧ p.2 ∈ roundElements L b j}, ¬ inElement p a := by
  rintro ⟨c, k⟩ ⟨hc, hk⟩ ⟨hle, hlt⟩
  obtain rfl : b = c := hc.symm
  obtain ⟨i, hi, rfl⟩ := List.mem_map.mp hk
  have hreal := List.mem_range.mp hi
  simp only [roundCount] at hreal
  have hend : j * L.count + i + 1 ≤ min b.n ((j + 1) * L.count) := by
    rw [Nat.succ_mul]
    omega
  have hlow := Nat.mul_le_mul_left (dstBytes b.op) (Nat.le_add_right (j * L.count) i)
  have hhigh := Nat.mul_le_mul_left (dstBytes b.op) hend
  rw [Nat.mul_succ] at hhigh
  simp only [elementAddr] at hle hlt
  omega

/-- Storing a round's real lanes is storing the results of its elements. -/
theorem storeRound_eq (L : LaneCount) (b : Batch) (j : Nat) (m m' : Memory) :
    storeRound L b j ((Op.scalar b.op).lanes L (roundOperand L b m j)) m' =
      (roundElements L b j).foldl (fun m' k => storeElement b m' k (elementResult b m k)) m' := by
  rw [roundElements, List.foldl_map, storeRound]
  exact List.foldl_ext _ _ _ fun m' i hi => by rw [resultLane_round (List.mem_range.mp hi)]

/-- A `round` move is the round. -/
theorem step_round {s : State} {b : Batch} {j : Nat} {rest : List HostMove} (h : s.moves = .round b j :: rest) :
    step s = execRound b j { s with moves := rest } := by
  simp only [step, h, runMove]

/-- Settles O43: a round the batch has not does nothing; another stores the results of its own elements. -/
theorem roundStoresItsRealLanes : Obligations.RoundStoresItsRealLanes := by
  intro s b j rest hm hd hwf
  rw [step_round hm, execRound, if_pos hd]
  refine ⟨fun hj => if_neg (Nat.not_lt.mpr hj), fun hj => ?_⟩
  have hmem := (StoredResults.none_stored hwf).foldl_results (independent_single hd) (Set.empty_subset _)
    (Set.mem_singleton b) (l := roundElements s.params.lanes b j) fun k hk => (mem_roundElements_iff.mp hk).1
  rw [Set.empty_union, ← storeRound_eq] at hmem
  refine ⟨_, (if_pos hj).trans (batchRound_eq b j _), fun i hi hk => ?_, fun a ha => ?_, rfl, rfl, rfl, rfl, rfl⟩
  · exact hmem.inside (b, j * s.params.lanes.count + i) ⟨rfl, mem_roundElements hi hk⟩
  · exact hmem.outside a (not_inElement_of_outside_round ha)

/-! ### The rounds of two batches in any order -/

/-- A round, of any batch and any number, stores the results of its elements and leaves the constants. -/
theorem StoredResults.execRound {m₀ : Memory} {D : Set (Batch × Nat)} {bs : Set Batch} {s t : State}
    (hi : Independent bs) (h : StoredResults m₀ D s.mem) (hD : D ⊆ elementsOf bs) {b : Batch} {j : Nat} (hb : b ∈ bs)
    (ht : execRound b j s = .next t) :
    StoredResults m₀ (D ∪ {p | p.1 = b ∧ p.2 ∈ roundElements s.params.lanes b j}) t.mem ∧ t.params = s.params := by
  have hmem := h.foldl_results hi hD hb (l := roundElements s.params.lanes b j) fun k hk =>
    (mem_roundElements_iff.mp hk).1
  unfold Machine.execRound at ht
  split at ht
  · split at ht
    · cases (batchRound_eq b j s).symm.trans ht
      rw [storeRound_eq]
      exact ⟨hmem, rfl⟩
    · next hj =>
      cases ht
      have hnone : roundElements s.params.lanes b j = [] := by
        rw [lt_batchRequests_iff] at hj
        simp [roundElements, roundCount, Nat.sub_eq_zero_of_le (Nat.not_lt.mp hj)]
      rw [hnone] at hmem ⊢
      exact ⟨hmem, rfl⟩
  · cases ht

/-- The elements of a list of rounds. -/
def elementsOfRounds (L : LaneCount) (l : List (Batch × Nat)) : Set (Batch × Nat) :=
  {p | p.2 < p.1.n ∧ (p.1, p.2 / L.count) ∈ l}

theorem elementsOfRounds_cons (L : LaneCount) (b : Batch) (j : Nat) (l : List (Batch × Nat)) :
    elementsOfRounds L ((b, j) :: l) = {p | p.1 = b ∧ p.2 ∈ roundElements L b j} ∪ elementsOfRounds L l := by
  ext ⟨c, k⟩
  simp only [elementsOfRounds, Set.mem_union, Set.mem_ofPred_eq, List.mem_cons, Prod.mk.injEq, mem_roundElements_iff]
  constructor
  · rintro ⟨hk, ⟨rfl, hj⟩ | h⟩
    · exact .inl ⟨rfl, hk, hj⟩
    · exact .inr ⟨hk, h⟩
  · rintro (⟨rfl, hk, hj⟩ | ⟨hk, h⟩)
    · exact ⟨hk, .inl ⟨rfl, hj⟩⟩
    · exact ⟨hk, .inr h⟩

/-- Rounds one after the other, in any order, store the results of their elements. -/
theorem StoredResults.runRounds {m₀ : Memory} {D : Set (Batch × Nat)} {bs : Set Batch} (hi : Independent bs)
    {l : List (Batch × Nat)} {s t : State} (h : StoredResults m₀ D s.mem) (hD : D ⊆ elementsOf bs)
    (hl : ∀ p ∈ l, p.1 ∈ bs) (ht : runRounds l s = .next t) :
    StoredResults m₀ (D ∪ elementsOfRounds s.params.lanes l) t.mem := by
  induction l generalizing D s with
  | nil =>
    cases ht
    simpa [elementsOfRounds] using h
  | cons q l ih =>
    obtain ⟨b, j⟩ := q
    have hb : b ∈ bs := hl (b, j) (List.mem_cons_self ..)
    rw [Claims.runRounds] at ht
    cases hu : Machine.execRound b j s with
    | next u =>
      rw [hu] at ht
      obtain ⟨hmem, hp⟩ := h.execRound hi hD hb hu
      rw [elementsOfRounds_cons, ← Set.union_assoc, ← hp]
      rw [← hp] at hmem
      refine ih hmem (Set.union_subset hD ?_) (fun p hp => hl p (List.mem_cons_of_mem _ hp)) ht
      rintro ⟨c, k⟩ ⟨rfl, hk⟩
      exact ⟨hb, (mem_roundElements_iff.mp hk).1⟩
    | fault f => rw [hu] at ht; cases ht
    | refused r => rw [hu] at ht; cases ht

/-- All the rounds of two batches have all their elements. -/
theorem elementsOfRounds_of_perm {L : LaneCount} {b c : Batch} {l : List (Batch × Nat)}
    (hl : l.Perm (roundsOf L b ++ roundsOf L c)) : elementsOfRounds L l = elementsOf {b} ∪ elementsOf {c} := by
  have hround : ∀ (b : Batch) (p : Batch × Nat),
      (p.2 < p.1.n ∧ (p.1, p.2 / L.count) ∈ roundsOf L b) ↔ p ∈ elementsOf {b} := by
    rintro b ⟨d, k⟩
    simp only [roundsOf, elementsOf, List.mem_map, List.mem_range, Set.mem_ofPred_eq, Set.mem_singleton_iff,
      Prod.mk.injEq]
    constructor
    · rintro ⟨hk, j, -, rfl, -⟩
      exact ⟨rfl, hk⟩
    · rintro ⟨rfl, hk⟩
      exact ⟨hk, _, lt_batchRequests_iff.mpr (Nat.lt_of_le_of_lt (Nat.div_mul_le_self ..) hk), rfl, rfl⟩
  ext p
  rw [Set.mem_union, ← hround b, ← hround c, ← and_or_left, ← List.mem_append, ← hl.mem_iff]
  rfl

/-- Two independent batches one after the other store the results of both. -/
theorem StoredResults.execBatch_twice {m₀ : Memory} {b c : Batch} {s u v : State} (hi : Independent {x | x ∈ [b, c]})
    (h : StoredResults m₀ ∅ s.mem) (hu : Machine.execBatch b s = .next u) (hv : Machine.execBatch c u = .next v) :
    StoredResults m₀ (elementsOf {b} ∪ elementsOf {c}) v.mem := by
  have hfirst := h.execBatch hi (Set.empty_subset _) (b := b) (by simp) hu
  rw [Set.empty_union] at hfirst
  refine hfirst.execBatch hi ?_ (by simp) hv
  rintro p ⟨hb, hk⟩
  exact ⟨Set.mem_singleton_iff.mp hb ▸ List.mem_cons_self .., hk⟩

/-- Settles O46: either way the same elements are stored, and they determine the memory. -/
theorem roundsInAnyOrderGiveSameMemory : Obligations.RoundsInAnyOrderGiveSameMemory := by
  intro s t u v b c l hwf hb hc hdd hds hsd hl ht hu hv
  have hi : Independent {x | x ∈ [b, c]} :=
    independent_of_compatible (List.pairwise_pair.mpr ⟨hdd, hds, hsd⟩) (by simp [hb, hc])
  have hnone := StoredResults.none_stored hwf
  have hall : ∀ p ∈ l, p.1 ∈ [b, c] := fun p hp => by
    have hmem := hl.mem_iff.mp hp
    simp only [roundsOf, List.mem_append, List.mem_map] at hmem
    rcases hmem with ⟨j, -, rfl⟩ | ⟨j, -, rfl⟩ <;> simp
  have hrounds := hnone.runRounds hi (Set.empty_subset _) hall ht
  rw [Set.empty_union, elementsOfRounds_of_perm hl] at hrounds
  exact hrounds.unique (hnone.execBatch_twice hi hu hv)

end Sys2Proof.Machine

/-! PROOFS. Runs of edges and the `ask` move: responses in finite time (30_encoding.md section 6), and rounds that count
on their responses (20_memory.md section 3). -/

namespace Sys2Proof.Machine

open Sys2Proof.Safety Sys2Proof.Claims

/-! ### Edges at which the host takes -/

/-- A run goes on from where its first step leads. -/
theorem run_succ {s t : State} (h : step s = .next t) (k : Nat) :
    Sys2Proof.core.run (k + 1) s = Sys2Proof.core.run k t := by
  have hcore : Sys2Proof.core.step s = .next t := h
  simp only [Host.Core.run, hcore]

/-- What an edge does to the queue when the host keeps `rst_n` and `rsp_ready` 1: a finished head is taken, everything
else is one edge older, and something may join at the end. -/
def TakesOffer (s t : State) : Prop :=
  ∃ q, (∃ e l, s.queue = e :: l ∧ t.queue = l.map Entry.age ++ q ∧ t.received = s.received ++ [e.rsp]) ∨
    ((∀ e l, s.queue = e :: l → 0 < e.wait) ∧ t.queue = s.queue.map Entry.age ++ q ∧ t.received = s.received)

theorem edge_takesOffer {p : Pins} (hr : p.rstN = true) (hrdy : p.rspReady = true) (s : State) :
    ∃ t, edge p s = .next t ∧ TakesOffer s t := by
  obtain ⟨q, he, -, -⟩ := edge_of_rstN hr s
  refine ⟨_, he, q, ?_⟩
  rcases restOfEdge_cases p s with ⟨e, l, hq, -, -, -, h⟩ | ⟨hnot, h⟩ <;> rw [h]
  · exact .inl ⟨e, l, hq, rfl, rfl⟩
  · refine .inr ⟨fun e l hq => Nat.pos_of_ne_zero fun hw => ?_, rfl, rfl⟩
    have hv := (s.rspValid_iff p.rstN).mpr ⟨hr, e, l, hq, hw⟩
    simp [hv, hrdy] at hnot

theorem askPins_rstN (k : Nat) (rdy : Bool) (s : State) : (askPins k rdy s).rstN = true := by
  unfold askPins
  split <;> rfl

theorem askPins_rspReady (k : Nat) (rdy : Bool) (s : State) : (askPins k rdy s).rspReady = rdy := by
  unfold askPins
  split <;> rfl

/-- A move that keeps `rst_n` and `rsp_ready` 1 is such an edge. -/
theorem runMove_takesOffer {m : HostMove} (hm : keepsTaking m = true) (s : State) :
    ∃ t, runMove m s = .next t ∧ TakesOffer s t := by
  cases m with
  | drive p =>
    obtain ⟨hr, hrdy⟩ := Bool.and_eq_true_iff.mp hm
    exact edge_takesOffer hr hrdy s
  | ask k rdy =>
    obtain ⟨t, rs, ht, h⟩ := askRound_eq_edge k rdy s
    obtain ⟨u, hu, htakes⟩ := edge_takesOffer (askPins_rstN k rdy s) ((askPins_rspReady k rdy s).trans hm) s
    cases hu.symm.trans ht
    exact ⟨_, h, htakes⟩
  | batch | round | start | load | await | write | store => cases hm

/-- A step is such an edge if the next move is, idle pins being the move when none is left (log 2). -/
theorem step_takesOffer {s : State} (h : ∀ m ∈ s.moves.head?, keepsTaking m = true) :
    ∃ t, step s = .next t ∧ TakesOffer s t ∧ t.moves = s.moves.tail := by
  cases hm : s.moves with
  | nil =>
    obtain ⟨t, ht, htakes⟩ := edge_takesOffer (p := Pins.idle) rfl rfl s
    cases (edge_of_not_accepted rfl (acceptedRequest_of_reqValid_false rfl)).symm.trans ht
    exact ⟨_, step_of_no_moves hm, htakes, (restOfEdge_moves ..).trans hm⟩
  | cons m rest =>
    obtain ⟨t, ht, htakes⟩ := runMove_takesOffer (h m (by simp [hm])) { s with moves := rest }
    exact ⟨t, (step_of_move hm).trans ht, htakes, (runMove_frame ht).2⟩

/-! ### Responses in finite time -/

/-- Edges that are enough to answer a list of entries: one more than its wait for each. -/
def edgesEnough (q : List Entry) : Nat := (q.map fun e => e.wait + 1).sum

theorem edgesEnough_cons (e : Entry) (q : List Entry) : edgesEnough (e :: q) = e.wait + 1 + edgesEnough q := rfl

theorem edgesEnough_age_le (q : List Entry) : edgesEnough (q.map Entry.age) ≤ edgesEnough q := by
  induction q with
  | nil => exact le_rfl
  | cons e q ih =>
    rw [List.map_cons, edgesEnough_cons, edgesEnough_cons, Entry.age_wait]
    omega

theorem map_rsp_age (q : List Entry) : (q.map Entry.age).map Entry.rsp = q.map Entry.rsp := by
  rw [List.map_map]
  rfl

/-- At such an edge the entries in front come one edge nearer to being answered, or their first one is. -/
theorem TakesOffer.front {s t : State} (h : TakesOffer s t) {front back : List Entry} (hq : s.queue = front ++ back) :
    ∃ front' back', t.queue = front' ++ back' ∧ edgesEnough front' ≤ edgesEnough front - 1 ∧
      (s.received ++ front.map Entry.rsp) <+: (t.received ++ front'.map Entry.rsp) := by
  have hle := edgesEnough_age_le
  obtain ⟨q, ⟨e, l, hel, htq, htr⟩ | ⟨hwait, htq, htr⟩⟩ := h
  · cases front with
    | nil => exact ⟨[], t.queue, rfl, Nat.zero_le _, by simp [htr]⟩
    | cons e' front =>
      obtain ⟨rfl, hl⟩ := List.cons.inj (hel.symm.trans hq)
      refine ⟨front.map Entry.age, back.map Entry.age ++ q, ?_, ?_, ?_⟩
      · rw [htq, hl, List.append_eq, List.map_append, List.append_assoc]
      · have := hle front
        rw [edgesEnough_cons]
        omega
      · rw [htr, map_rsp_age, List.append_assoc]
        exact List.prefix_rfl
  · refine ⟨front.map Entry.age, back.map Entry.age ++ q, ?_, ?_, ?_⟩
    · rw [htq, hq, List.map_append, List.append_assoc]
    · cases front with
      | nil => exact Nat.zero_le _
      | cons e front =>
        have := hle front
        have hpos := hwait e (front ++ back) hq
        rw [List.map_cons, edgesEnough_cons, edgesEnough_cons, Entry.age_wait]
        omega
    · rw [htr, map_rsp_age]

/-- The oldest entries are answered, in order, in as many edges as are enough for them, whatever is behind them. -/
theorem run_answers_front {k : Nat} {s : State} {front back : List Entry} (hq : s.queue = front ++ back)
    (hk : edgesEnough front ≤ k) (hm : ∀ m ∈ s.moves.take k, keepsTaking m = true) :
    ∃ t : State, Sys2Proof.core.run k s = .next t ∧ (s.received ++ front.map Entry.rsp) <+: t.received := by
  induction k generalizing s front back with
  | zero =>
    cases front with
    | nil => exact ⟨s, rfl, by simp⟩
    | cons e front =>
      rw [edgesEnough_cons] at hk
      omega
  | succ k ih =>
    have hhead : ∀ m ∈ s.moves.head?, keepsTaking m = true := fun m h => hm m <| by
      obtain ⟨l, hl⟩ := List.head?_eq_some_iff.mp h
      simp [hl]
    obtain ⟨t, ht, htakes, hmoves⟩ := step_takesOffer hhead
    have htail : ∀ m ∈ t.moves.take k, keepsTaking m = true := fun m h => hm m <| by
      rw [hmoves] at h
      cases hs : s.moves with
      | nil => simp [hs] at h
      | cons m' l =>
        rw [hs] at h
        exact List.mem_cons_of_mem _ h
    obtain ⟨front', back', htq, hle, hpre⟩ := htakes.front hq
    obtain ⟨u, hu, hpre'⟩ := ih htq (by omega) htail
    rw [run_succ ht]
    exact ⟨u, hu, hpre.trans hpre'⟩

/-- Settles O53: the whole queue is in front. -/
theorem requestsAreAnsweredInFiniteTime : Obligations.RequestsAreAnsweredInFiniteTime := fun s _ hk hm =>
  run_answers_front (List.append_nil s.queue).symm hk hm

/-! ### Asks -/

/-- Changing a place that is there sets it. -/
theorem modify_eq_set_of_getElem? {α : Type} {l : List α} {k : Nat} {x : α} (f : α → α) (h : l[k]? = some x) :
    l.modify k f = l.set k (f x) := by
  rw [List.modify_eq_set_getElem?, h]
  rfl

/-- An `ask` move is the ask of its round. -/
theorem step_ask {s : State} {k : Nat} {rdy : Bool} {rest : List HostMove} (h : s.moves = .ask k rdy :: rest) :
    step s = askRound k rdy { s with moves := rest } := by
  simp only [step, h, runMove]

/-- The request an `ask` move brings is the one its edge accepts. -/
theorem nextRequest_ask {s : State} {k : Nat} {rdy : Bool} {rest : List HostMove} (h : s.moves = .ask k rdy :: rest) :
    nextRequest s = acceptedRequest (askPins k rdy { s with moves := rest }) { s with moves := rest } := by
  simp only [nextRequest, h, edgePins, Option.bind_some]
  rfl

/-- A round with its lanes read and no request accepted offers its request. -/
theorem askPins_of_ready {s : State} {k : Nat} {r : Round} (rdy : Bool) (hr : s.rounds[k]? = some r)
    (ht : r.ticket = none) (hready : r.ready s.params.lanes = true) :
    askPins k rdy s = offerPins (r.request s.params.lanes) rdy := by
  simp [askPins, State.toAsk_eq_some.mpr ⟨r, hr, ht, hready, rfl⟩]

/-- Any other has nothing to offer. -/
theorem askPins_of_nothing {s : State} {k : Nat} (rdy : Bool)
    (h : ∀ r, s.rounds[k]? = some r → r.ticket ≠ none ∨ r.ready s.params.lanes = false) :
    askPins k rdy s = { Pins.idle with rspReady := rdy } := by
  have hnone : s.toAsk k = none := Option.eq_none_iff_forall_ne_some.mpr fun q hq => by
    obtain ⟨r, hr, ht, hready, -⟩ := State.toAsk_eq_some.mp hq
    rcases h r hr with hne | hf
    · exact hne ht
    · cases hf.symm.trans hready
  simp [askPins, hnone]

/-- With room in the queue the request of a ready round is accepted (log 6). -/
theorem acceptedRequest_ask {s : State} {k : Nat} {r : Round} (rdy : Bool) (hr : s.rounds[k]? = some r)
    (ht : r.ticket = none) (hready : r.ready s.params.lanes = true) (hq : s.queue.length < s.params.depth) :
    acceptedRequest (askPins k rdy s) s = some (r.request s.params.lanes) := by
  rw [askPins_of_ready rdy hr ht hready, acceptedRequest_of_room rfl rfl hq]
  simp only [offerPins, fitLanes_request]

/-- A full queue accepts nothing, even at the edge that takes its head (log 7). -/
theorem acceptedRequest_of_full {p : Pins} {s : State} (hq : s.params.depth ≤ s.queue.length) :
    acceptedRequest p s = none := by
  have hready : s.reqReady p.rstN = false := by simp [State.reqReady, hq]
  simp [acceptedRequest, hready]

/-- The `ask` of a ready round beside the edge with its request on the pins. -/
theorem askRound_of_ready {s : State} {k : Nat} {r : Round} (rdy : Bool) (hr : s.rounds[k]? = some r)
    (ht : r.ticket = none) (hready : r.ready s.params.lanes = true) :
    ∃ u t, edge (offerPins (r.request s.params.lanes) rdy) s = .next u ∧ askRound k rdy s = .next t ∧
      (s.params.depth ≤ s.queue.length → t = u) ∧
      (s.queue.length < s.params.depth →
        t = { u with rounds := s.rounds.set k { r with ticket := some s.nextTicket } } ∧
        (responsesInOrder t)[s.nextTicket]? = some (respond s.params.lanes (r.request s.params.lanes))) := by
  rw [← askPins_of_ready rdy hr ht hready]
  rcases Nat.lt_or_ge s.queue.length s.params.depth with hq | hq
  · have hacc := acceptedRequest_ask rdy hr ht hready hq
    rcases edge_cases (askPins k rdy s) s with ⟨h, -⟩ | ⟨-, h, -⟩ | ⟨-, r', h, he⟩
    · cases h.symm.trans (askPins_rstN ..)
    · cases h.symm.trans hacc
    · obtain rfl := Option.some.inj (hacc.symm.trans h)
      refine ⟨_, _, he, Timing.askRound_of_accepts_some hacc, fun h => by omega, fun _ => ⟨?_, responsesInOrder_ask ..⟩⟩
      rw [← modify_eq_set_of_getElem? (fun r => { r with ticket := some s.nextTicket }) hr,
        ← restOfEdge_rounds (askPins k rdy s) s]
      rfl
  · have hacc : acceptedRequest (askPins k rdy s) s = none := acceptedRequest_of_full hq
    exact ⟨_, _, edge_of_not_accepted (askPins_rstN ..) hacc, Timing.askRound_of_accepts_none hacc, fun _ => rfl,
      fun h => by omega⟩

/-- Settles O59: a ready round by the edge its request is offered at, another by idle pins, a reset round by round. -/
theorem roundsCountTheirResponses : Obligations.RoundsCountTheirResponses := by
  refine ⟨fun s k rdy rest hm => ⟨fun r hr ht hready => ?_, fun hnothing => ?_⟩, fun s p rest hm hreset => ?_⟩
  · obtain ⟨u, t, hu, hask, hfull, hroom⟩ := askRound_of_ready (s := { s with moves := rest }) rdy hr ht hready
    rw [step_ask hm, nextRequest_ask hm, step_drive (s := { s with moves := _ :: rest }) rfl]
    refine ⟨u, t, hu, hask, fun hq => ⟨acceptedRequest_of_full hq, hfull hq⟩, fun hq => ⟨?_, hroom hq⟩⟩
    exact acceptedRequest_ask (s := { s with moves := rest }) rdy hr ht hready hq
  · have hpins := askPins_of_nothing (s := { s with moves := rest }) rdy hnothing
    have hacc : acceptedRequest (askPins k rdy { s with moves := rest }) { s with moves := rest } = none := by
      rw [hpins]
      exact acceptedRequest_of_reqValid_false rfl
    rw [step_ask hm, step_drive (s := { s with moves := _ :: rest }) rfl, Timing.askRound_of_accepts_none hacc, ← hpins]
    exact (edge_of_not_accepted (askPins_rstN ..) hacc).symm
  · rw [step_drive hm, edge_of_reset hreset]
    refine ⟨_, rfl, List.length_map .., fun k r hr => ⟨r.lose s.received.length, ?_, rfl, rfl, rfl, rfl, fun n => ?_⟩⟩
    · rw [State.resetBlock_rounds, List.getElem?_map, hr]
      rfl
    · rw [Round.lose_ticket, Option.filter_eq_some_iff, decide_eq_true_iff]

/-! ### The assembler -/

/-- Settles O57: each line by its own characters. -/
theorem assemblerLines : Obligations.AssemblerLines := by
  unfold Obligations.AssemblerLines
  decide

end Sys2Proof.Machine

/-! PROOFS. One round in hand, access by access, from beginning to end (42_lanes_and_batch.md R153). -/

namespace Sys2Proof.Machine

open Sys2Proof.Safety Sys2Proof.Claims

/-! ### What a round has read -/

/-- What the round has read is what `m₀` holds, of real lanes alone. -/
def Round.LoadedFrom (L : LaneCount) (m₀ : Memory) (r : Round) : Prop :=
  ∀ i v, r.loaded.lookup i = some v → i < r.cnt L ∧ v = sourceElement r.batch m₀ (r.element L i)

theorem Round.loadedFrom_fresh (L : LaneCount) (m₀ : Memory) (b : Batch) (j : Nat) :
    (Round.fresh b j).LoadedFrom L m₀ := fun _ _ h => by cases h

theorem Round.ready_iff {L : LaneCount} {r : Round} :
    r.ready L = true ↔ ∀ i, i < r.cnt L → (r.loaded.lookup i).isSome = true := by
  simp [Round.ready]

theorem Round.finished_iff {L : LaneCount} {r : Round} : r.finished L = true ↔ ∀ i, i < r.cnt L → i ∈ r.written := by
  simp [Round.finished]

/-- Lane `i` is read after a look at it, and what was read stays read. -/
theorem Round.lookup_load (L : LaneCount) (m : Memory) (i x : Nat) {r : Round} (ht : r.ticket = none) :
    (r.load L m i).loaded.lookup x = if x = i ∧ i < r.cnt L ∧ r.loaded.lookup i = none then
      some (sourceElement r.batch m (r.element L i)) else r.loaded.lookup x := by
  unfold Round.load
  by_cases h : i < r.cnt L ∧ r.loaded.lookup i = none
  · rw [if_pos ⟨h.1, ht, h.2⟩]
    by_cases hx : x = i
    · subst hx
      simp [h]
    · have hne : (x == i) = false := beq_false_of_ne hx
      simp [hx, List.lookup_cons, hne]
  · rw [if_neg fun hload => h ⟨hload.1, hload.2.2⟩, if_neg fun hload => h hload.2]

section Load
variable {L : LaneCount} {m₀ m : Memory} {i : Nat} {r : Round}

/-- Reading a source element that still is as in `m₀`. -/
theorem Round.LoadedFrom.load (h : r.LoadedFrom L m₀)
    (hsrc : i < r.cnt L → sourceElement r.batch m (r.element L i) = sourceElement r.batch m₀ (r.element L i)) :
    (r.load L m i).LoadedFrom L m₀ := by
  rcases r.load_cases L m i with he | ⟨hi, ht, hnone, he⟩
  · rw [he]
    exact h
  · intro x v hv
    have hbatch : (r.load L m i).batch = r.batch := Round.load_batch ..
    have hj : (r.load L m i).j = r.j := Round.load_j ..
    rw [Round.lookup_load L m i x ht] at hv
    simp only [Round.cnt, Round.element, hbatch, hj]
    split at hv
    · next hx =>
      obtain ⟨rfl, -⟩ := hx
      exact ⟨hi, (Option.some.inj hv).symm.trans (hsrc hi)⟩
    · exact h x v hv

/-- With every real lane read, the request is the one R153 gives the round. -/
theorem Round.LoadedFrom.request_eq (h : r.LoadedFrom L m₀) (hready : r.ready L = true) :
    r.request L = ⟨r.batch.op.code, roundOperand L r.batch m₀ r.j⟩ := by
  rw [Round.request, Round.operand_eq fun i => ?_]
  split
  · next hi =>
    obtain ⟨v, hv⟩ := Option.isSome_iff_exists.mp (Round.ready_iff.mp hready i hi)
    rw [hv, (h i v hv).2]
  · next hi => exact Option.eq_none_iff_forall_ne_some.mpr fun v hv => hi (h i v hv).1

/-- Lane `i` of the round's response is the result of its element. -/
theorem Round.LoadedFrom.resultLane_eq (h : r.LoadedFrom L m₀) (hready : r.ready L = true) (hi : i < r.cnt L) :
    resultLane r.batch.op (respond L (r.request L)).data i = elementResult r.batch m₀ (r.element L i) := by
  rw [h.request_eq hready, respond_code]
  exact resultLane_round hi

end Load

/-! ### One round from beginning to end -/

/-- The round after lanes are read, in the order of the list. -/
def Round.loadAll (L : LaneCount) (m : Memory) (l : List Nat) (r : Round) : Round := l.foldl (fun r i => r.load L m i) r

/-- Setting a place to what it holds changes nothing. -/
theorem set_of_getElem? {α : Type} {l : List α} {k : Nat} {x : α} (h : l[k]? = some x) : l.set k x = l := by
  obtain ⟨hk, rfl⟩ := List.getElem?_eq_some_iff.mp h
  exact List.set_getElem_self hk

/-- A run of reads. -/
theorem run_loads {k n : Nat} {l : List Nat} {ms : List HostMove} {s : State} {r : Round} (hr : s.rounds[k]? = some r)
    (hm : s.moves = l.map (.load k) ++ ms) : Sys2Proof.core.run (l.length + n) s =
      Sys2Proof.core.run n { s with rounds := s.rounds.set k (r.loadAll s.params.lanes s.mem l), moves := ms } := by
  induction l generalizing s r with
  | nil =>
    simp only [List.map_nil, List.nil_append] at hm
    simp only [List.length_nil, Nat.zero_add, Round.loadAll, List.foldl_nil, set_of_getElem? hr, ← hm]
  | cons i l ih =>
    have hk := (List.getElem?_eq_some_iff.mp hr).1
    have hstep := step_of_move (m := .load k i) (rest := l.map (.load k) ++ ms) hm
    simp only [runMove, State.loadLane, modify_eq_set_of_getElem? _ hr] at hstep
    rw [List.length_cons, Nat.add_right_comm, run_succ hstep, ih (List.getElem?_set_self hk) rfl]
    simp only [List.set_set]
    rfl

/-- The memory after result lanes of a round are stored, in the order of the list. -/
def storeLanes (L : LaneCount) (r : Round) (data : DataVec) (l : List Nat) (m : Memory) : Memory :=
  l.foldl (fun m i => storeElement r.batch m (r.element L i) (resultLane r.batch.op data i)) m

/-- A run of stores of different real lanes. -/
theorem run_writes {k n : Nat} {l : List Nat} {ms : List HostMove} {s : State} {r : Round} {q : Response}
    (hr : s.rounds[k]? = some r) (hq : r.response s.received = some q) (hnodup : l.Nodup)
    (hl : ∀ i ∈ l, i < r.cnt s.params.lanes ∧ i ∉ r.written) (hm : s.moves = l.map (.write k) ++ ms) :
    Sys2Proof.core.run (l.length + n) s = Sys2Proof.core.run n { s with
      mem := storeLanes s.params.lanes r q.data l s.mem
      rounds := s.rounds.set k { r with written := l.reverse ++ r.written }
      moves := ms } := by
  induction l generalizing s r with
  | nil =>
    simp only [List.map_nil, List.nil_append] at hm
    simp only [List.length_nil, Nat.zero_add, storeLanes, List.foldl_nil, List.reverse_nil, List.nil_append,
      set_of_getElem? hr, ← hm]
  | cons i l ih =>
    obtain ⟨hi, hnodup'⟩ := List.nodup_cons.mp hnodup
    obtain ⟨hcnt, hnew⟩ := hl i (List.mem_cons_self ..)
    have hk := (List.getElem?_eq_some_iff.mp hr).1
    have hstep := step_of_move (m := .write k i) (rest := l.map (.write k) ++ ms) hm
    obtain ⟨t, ht, hn⟩ := Option.bind_eq_some_iff.mp hq
    have hwrite : State.toWrite k i { s with moves := l.map (.write k) ++ ms } =
        some (r, resultLane r.batch.op q.data i) := State.toWrite_eq_some.mpr ⟨hr, hcnt, hnew, t, q, ht, hn, rfl⟩
    simp only [runMove, State.writeLane, hwrite] at hstep
    rw [List.length_cons, Nat.add_right_comm, run_succ hstep]
    refine (ih (s := { s with
        mem := storeElement r.batch s.mem (r.element s.params.lanes i) (resultLane r.batch.op q.data i)
        rounds := s.rounds.set k { r with written := i :: r.written }
        moves := l.map (.write k) ++ ms })
      (List.getElem?_set_self hk) hq hnodup' (fun x hx => ?_) rfl).trans ?_
    · obtain ⟨hxc, hxw⟩ := hl x (List.mem_cons_of_mem _ hx)
      refine ⟨hxc, ?_⟩
      rintro (_ | ⟨_, hmem⟩)
      · exact hi hx
      · exact hxw hmem
    · simp only [List.set_set, List.reverse_cons, List.append_assoc, List.singleton_append]
      rfl

section LoadAll
variable {L : LaneCount} {m : Memory} {l : List Nat} {r : Round}

theorem Round.loadAll_frame (L : LaneCount) (m : Memory) (l : List Nat) (r : Round) :
    (r.loadAll L m l).batch = r.batch ∧ (r.loadAll L m l).j = r.j ∧ (r.loadAll L m l).ticket = r.ticket ∧
      (r.loadAll L m l).written = r.written := by
  induction l generalizing r with
  | nil => exact ⟨rfl, rfl, rfl, rfl⟩
  | cons i l ih =>
    obtain ⟨hb, hj, ht, hw⟩ := ih (r.load L m i)
    exact ⟨hb.trans (Round.load_batch ..), hj.trans (Round.load_j ..), ht.trans (Round.load_ticket ..),
      hw.trans (Round.load_written ..)⟩

theorem Round.LoadedFrom.loadAll (h : r.LoadedFrom L m) : (r.loadAll L m l).LoadedFrom L m := by
  induction l generalizing r with
  | nil => exact h
  | cons i l ih => exact ih (h.load fun _ => rfl)

/-- Every real lane of the list is read, and every lane that was read before. -/
theorem Round.isSome_lookup_loadAll (ht : r.ticket = none) {x : Nat}
    (hx : (x ∈ l ∧ x < r.cnt L) ∨ (r.loaded.lookup x).isSome = true) :
    ((r.loadAll L m l).loaded.lookup x).isSome = true := by
  induction l generalizing r with
  | nil => exact hx.resolve_left (by simp)
  | cons i l ih =>
    refine ih (r := r.load L m i) ((Round.load_ticket ..).trans ht) ?_
    have hcnt : (r.load L m i).cnt L = r.cnt L := by rw [Round.cnt, Round.load_batch, Round.load_j, Round.cnt]
    rw [hcnt, Round.lookup_load L m i x ht]
    rcases hx with ⟨hmem, hlt⟩ | hsome
    · rcases List.mem_cons.mp hmem with rfl | hmem
      · right
        split
        · rfl
        · next hread =>
          rw [← Option.ne_none_iff_isSome]
          exact fun hnone => hread ⟨rfl, hlt, hnone⟩
      · exact .inl ⟨hmem, hlt⟩
    · right
      split
      · rfl
      · exact hsome

end LoadAll

/-- A fresh round with every real lane read, in any order, is ready, and offers the request R153 gives it. -/
theorem Round.loadAll_fresh {L : LaneCount} {b : Batch} {j : Nat} (m : Memory) {l : List Nat}
    (hl : l.Perm (List.range (roundCount L b j))) :
    ((Round.fresh b j).loadAll L m l).ready L = true ∧ ((Round.fresh b j).loadAll L m l).LoadedFrom L m := by
  obtain ⟨hb, hj, -, -⟩ := Round.loadAll_frame L m l (Round.fresh b j)
  refine ⟨Round.ready_iff.mpr fun i hi => Round.isSome_lookup_loadAll rfl (.inl ?_),
    (Round.loadedFrom_fresh L m b j).loadAll⟩
  rw [Round.cnt, hb, hj] at hi
  exact ⟨hl.mem_iff.mpr (List.mem_range.mpr hi), hi⟩

/-- Storing every real lane of a round's response, in any order, stores the results of the round's elements. -/
theorem storedResults_storeLanes {L : LaneCount} {m : Memory} (h : Memory.wf m) {r : Round} (hfrom : r.LoadedFrom L m)
    (hready : r.ready L = true) {l : List Nat} (hl : l.Perm (List.range (r.cnt L))) :
    StoredResults m {p | p.1 = r.batch ∧ p.2 ∈ roundElements L r.batch r.j}
      (storeLanes L r (respond L (r.request L)).data l m) := by
  have hfold : storeLanes L r (respond L (r.request L)).data l m =
      (l.map (r.element L)).foldl (fun m' k => storeElement r.batch m' k (elementResult r.batch m k)) m := by
    rw [storeLanes, List.foldl_map]
    refine List.foldl_ext _ _ _ fun m' i hi => ?_
    rw [hfrom.resultLane_eq hready (List.mem_range.mp (hl.mem_iff.mp hi))]
  have hset : {p : Batch × Nat | p.1 = r.batch ∧ p.2 ∈ roundElements L r.batch r.j} =
      ∅ ∪ {p | p.1 = r.batch ∧ p.2 ∈ l.map (r.element L)} := by
    ext p
    simp only [Set.empty_union, Set.mem_ofPred_eq, (hl.map (r.element L)).mem_iff]
    rfl
  rw [hfold, hset]
  exact (StoredResults.none_stored h).foldl r.batch _ (by simp)

/-- What an accepted `ask` does: the round counts on a response at the end of those owed or given. -/
theorem askRound_accepts {k : Nat} {s : State} {r : Round} (rdy : Bool) (hr : s.rounds[k]? = some r)
    (ht : r.ticket = none) (hready : r.ready s.params.lanes = true) (hq : s.queue.length < s.params.depth) :
    ∃ t, askRound k rdy s = .next t ∧ t.rounds = s.rounds.set k { r with ticket := some s.nextTicket } ∧
      responsesInOrder t = responsesInOrder s ++ [respond s.params.lanes (r.request s.params.lanes)] ∧
      t.mem = s.mem ∧ t.params = s.params ∧ t.moves = s.moves := by
  refine ⟨_, Timing.askRound_of_accepts_some (acceptedRequest_ask rdy hr ht hready hq), ?_, by simp, by simp,
    by simp, by simp⟩
  simp [modify_eq_set_of_getElem? _ hr]

/-- The run of an `ask` that is accepted and of the `await` after it: what was in flight and the round's response are
taken. -/
theorem run_ask_await {k : Nat} {rdy : Bool} {ms : List HostMove} {s : State} {r : Round} (n : Nat)
    (hr : s.rounds[k]? = some r) (ht : r.ticket = none) (hready : r.ready s.params.lanes = true)
    (hq : s.queue.length < s.params.depth) (hm : s.moves = .ask k rdy :: .await :: ms) :
    ∃ t : State, Sys2Proof.core.run (n + 2) s = Sys2Proof.core.run n t ∧
      t.rounds = s.rounds.set k { r with ticket := some s.nextTicket } ∧
      t.received = responsesInOrder s ++ [respond s.params.lanes (r.request s.params.lanes)] ∧
      t.queue = [] ∧ t.mem = s.mem ∧ t.params = s.params ∧ t.moves = ms := by
  obtain ⟨u, hask, hrounds, hresponses, hmem, hparams, hmoves⟩ :=
    askRound_accepts (s := { s with moves := .await :: ms }) rdy hr ht hready hq
  have hawait := step_of_move (m := .await) hmoves
  exact ⟨_, (run_succ ((step_ask hm).trans hask) (n + 1)).trans (run_succ hawait n), hrounds, hresponses, rfl, hmem,
    hparams, rfl⟩

/-- The run of a whole round, from fresh to finished, ends with every response taken and the results of the round `r`,
as it was when it asked, stored. -/
theorem run_round {s : State} {b : Batch} {j k : Nat} {rdy : Bool} {reads writes : List Nat} {rest : List HostMove}
    (hr : s.rounds[k]? = some (Round.fresh b j)) (hq : s.queue.length < s.params.depth)
    (hreads : reads.Perm (List.range (roundCount s.params.lanes b j)))
    (hwrites : writes.Perm (List.range (roundCount s.params.lanes b j)))
    (hm : s.moves = reads.map (.load k) ++ [.ask k rdy, .await] ++ writes.map (.write k) ++ rest) :
    ∃ (t : State) (r : Round), Sys2Proof.core.run (reads.length + 2 + writes.length) s = .next t ∧ r.batch = b ∧
      r.j = j ∧ r.ready s.params.lanes = true ∧ r.LoadedFrom s.params.lanes s.mem ∧
      t.rounds = s.rounds.set k { r with ticket := some s.nextTicket, written := writes.reverse } ∧
      t.received = responsesInOrder s ++ [respond s.params.lanes (r.request s.params.lanes)] ∧ t.queue = [] ∧
      t.mem = storeLanes s.params.lanes r (respond s.params.lanes (r.request s.params.lanes)).data writes s.mem ∧
      t.params = s.params ∧ t.moves = rest := by
  have hk := (List.getElem?_eq_some_iff.mp hr).1
  have hloads := run_loads (n := writes.length + 2) (ms := .ask k rdy :: .await :: (writes.map (.write k) ++ rest)) hr
    (by simpa using hm)
  obtain ⟨hready, hfrom⟩ := Round.loadAll_fresh s.mem hreads
  obtain ⟨hb, hj, hticket, hwritten⟩ : _ = b ∧ _ = j ∧ _ = none ∧ _ = [] :=
    Round.loadAll_frame s.params.lanes s.mem reads (Round.fresh b j)
  generalize (Round.fresh b j).loadAll s.params.lanes s.mem reads = r at *
  subst hb hj
  obtain ⟨t, hask, hrounds, hreceived, hqueue, hmem, hparams, hmoves⟩ := run_ask_await writes.length
    (s := { s with rounds := s.rounds.set k r, moves := .ask k rdy :: .await :: (writes.map (.write k) ++ rest) })
    (List.getElem?_set_self hk) hticket hready hq rfl
  rw [List.set_set] at hrounds
  have hown : t.received[s.nextTicket]? = some (respond s.params.lanes (r.request s.params.lanes)) := by
    rw [hreceived, ← responsesInOrder_length]
    exact List.getElem?_concat_length ..
  have hstores := run_writes (n := 0) (s := t) (k := k) (r := { r with ticket := some s.nextTicket })
    (q := respond s.params.lanes (r.request s.params.lanes)) (l := writes) (ms := rest)
    (by rw [hrounds]; exact List.getElem?_set_self hk) hown (hwrites.nodup_iff.mpr List.nodup_range)
    (fun i hi => ⟨by rw [hparams]; exact List.mem_range.mp (hwrites.mem_iff.mp hi), by simp [hwritten]⟩) hmoves
  rw [hmem, hparams, hrounds, List.set_set, hwritten, List.append_nil] at hstores
  have hlength : reads.length + 2 + writes.length = reads.length + (writes.length + 2) := by omega
  rw [hlength]
  exact ⟨_, r, hloads.trans (hask.trans hstores), rfl, rfl, hready, hfrom, rfl, hreceived, hqueue, rfl, rfl, rfl⟩

/-- Settles O58: the stores of the run are the results of the round's elements, computed from the memory before. -/
theorem roundInHandCompletes : Obligations.RoundInHandCompletes := by
  intro s b j k rdy reads writes rest hr hwf hq hreads hwrites hm
  obtain ⟨t, r, hrun, rfl, rfl, hready, hfrom, hrounds, hreceived, hqueue, hmem, hparams, hmoves⟩ :=
    run_round hr hq hreads hwrites hm
  have hstored := storedResults_storeLanes hwf hfrom hready hwrites
  rw [← hmem] at hstored
  refine ⟨t, _, hrun, hrounds, rfl, rfl, Round.finished_iff.mpr fun i hi => ?_, fun i hi hn => ?_, fun a ha => ?_, ?_,
    hqueue, hparams, hmoves⟩
  · exact List.mem_reverse.mpr (hwrites.mem_iff.mpr (List.mem_range.mpr hi))
  · exact hstored.inside (r.batch, r.j * s.params.lanes.count + i) ⟨rfl, mem_roundElements hi hn⟩
  · exact hstored.outside a (not_inElement_of_outside_round ha)
  · rw [← hfrom.request_eq hready]
    exact hreceived

end Sys2Proof.Machine

/-! PROOFS. Batches under way at the same time (20_memory.md R55): an invariant of the host's rounds, kept by every
access and every edge, a reset among them. -/

namespace Sys2Proof.Machine

open Sys2Proof.Safety Sys2Proof.Claims

/-! ### The invariant -/

/-- A round of one of the batches `bs`: what it has read is what `m₀` holds, it has asked only when it had read all of
it, and it has stored real lanes only. -/
structure RoundInHand (L : LaneCount) (m₀ : Memory) (bs : List Batch) (r : Round) : Prop where
  listed : r.batch ∈ bs
  loaded : r.LoadedFrom L m₀
  asked : r.ticket ≠ none → r.ready L = true
  written : ∀ i ∈ r.written, i < r.cnt L

/-- The elements whose results rounds in hand have stored. -/
def writtenElements (L : LaneCount) (rs : List Round) : Set (Batch × Nat) :=
  {p | ∃ r ∈ rs, r.batch = p.1 ∧ ∃ i ∈ r.written, r.element L i = p.2}

/-- How far a round is, as memory shows it. -/
def progress (r : Round) : Batch × Nat × List Nat := (r.batch, r.j, r.written)

theorem exists_mem_of_progress {rs rs' : List Round} (h : rs.map progress = rs'.map progress) {r : Round}
    (hr : r ∈ rs) :
    ∃ q ∈ rs', q.batch = r.batch ∧ q.j = r.j ∧ q.written = r.written := by
  obtain ⟨q, hq, heq⟩ := List.mem_map.mp (h ▸ List.mem_map_of_mem (f := progress) hr)
  exact ⟨q, hq, by simpa [progress] using heq⟩

/-- What is stored depends on the progress of the rounds alone. -/
theorem writtenElements_mono {L : LaneCount} {rs rs' : List Round} (h : rs.map progress = rs'.map progress) :
    writtenElements L rs ⊆ writtenElements L rs' := by
  rintro p ⟨r, hr, hb, i, hi, hk⟩
  obtain ⟨q, hq, hqb, hqj, hqw⟩ := exists_mem_of_progress h hr
  exact ⟨q, hq, hqb.trans hb, i, hqw ▸ hi, by rw [← hk, Round.element, hqj, Round.element]⟩

/-- Rounds of which nothing is done have stored nothing. -/
theorem writtenElements_append_freshRounds (L : LaneCount) (b : Batch) (rs : List Round) :
    writtenElements L (rs ++ freshRounds L b) = writtenElements L rs := by
  ext p
  constructor
  · rintro ⟨r, hr, hp, i, hi, hk⟩
    rcases List.mem_append.mp hr with hold | hnew
    · exact ⟨r, hold, hp, i, hi, hk⟩
    · obtain ⟨j, -, rfl⟩ := mem_freshRounds_iff.mp hnew
      cases hi
  · rintro ⟨r, hr, hp⟩
    exact ⟨r, List.mem_append_left _ hr, hp⟩

/-- The rounds in hand are those of the batches `bs`, and memory is `m₀` with the results they have stored. -/
structure InHand (m₀ : Memory) (bs : List Batch) (s : State) : Prop where
  disjoint : ∀ b ∈ bs, batchDisjoint b = true
  rounds : ∀ r ∈ s.rounds, RoundInHand s.params.lanes m₀ bs r
  counts : RoundsOk s
  covered : ∀ b ∈ bs, ∀ j, j < batchRequests s.params.lanes b.n → ∃ r ∈ s.rounds, r.batch = b ∧ r.j = j
  stored : StoredResults m₀ (writtenElements s.params.lanes s.rounds) s.mem

theorem inHand_none {s : State} (h : Memory.wf s.mem) (hr : s.rounds = []) : InHand s.mem [] s where
  disjoint := by simp
  rounds := by simp [hr]
  counts := by simp [RoundsOk, hr]
  covered := by simp
  stored := by simpa [writtenElements, hr] using StoredResults.none_stored h

/-- The element of a real lane is one of the batch's. -/
theorem Round.element_lt {L : LaneCount} {r : Round} {i : Nat} (hi : i < r.cnt L) : r.element L i < r.batch.n := by
  simp only [Round.cnt, roundCount] at hi
  simp only [Round.element]
  omega

namespace InHand
variable {m₀ : Memory} {bs : List Batch} {s t : State}

theorem set_moves (h : InHand m₀ bs s) (ms : List HostMove) : InHand m₀ bs { s with moves := ms } :=
  ⟨h.disjoint, h.rounds, h.counts, h.covered, h.stored⟩

/-- What is stored are elements of the batches. -/
theorem writtenElements_subset (h : InHand m₀ bs s) :
    writtenElements s.params.lanes s.rounds ⊆ elementsOf {b | b ∈ bs} := by
  rintro ⟨b, k⟩ ⟨r, hr, rfl, i, hi, rfl⟩
  have hround := h.rounds r hr
  exact ⟨hround.listed, Round.element_lt (hround.written i hi)⟩

/-- Source elements still are as in `m₀`. -/
theorem sourceElement_eq (h : InHand m₀ bs s) (hc : bs.Pairwise Compatible) {b : Batch} (hb : b ∈ bs) {k : Nat}
    (hk : k < b.n) : sourceElement b s.mem k = sourceElement b m₀ k :=
  (independent_of_compatible hc h.disjoint).sourceElement_eq h.stored h.writtenElements_subset hb hk

/-- A move that stores nothing and leaves each round as far as it was. -/
theorem of_progress (h : InHand m₀ bs s) (hp : t.params = s.params) (hm : t.mem = s.mem)
    (hprogress : t.rounds.map progress = s.rounds.map progress)
    (hrounds : ∀ r ∈ t.rounds, RoundInHand s.params.lanes m₀ bs r) (hcounts : RoundsOk t) : InHand m₀ bs t := by
  refine ⟨h.disjoint, by rwa [hp], hcounts, fun b hb j hj => ?_, ?_⟩
  · rw [hp] at hj
    obtain ⟨r, hr, rfl, rfl⟩ := h.covered b hb j hj
    obtain ⟨q, hq, hqb, hqj, -⟩ := exists_mem_of_progress hprogress.symm hr
    exact ⟨q, hq, hqb, hqj⟩
  · rw [hp, hm, (writtenElements_mono hprogress).antisymm (writtenElements_mono hprogress.symm)]
    exact h.stored

end InHand

/-- Changing a place in a way `g` does not see. -/
theorem map_modify_of_eq {α β : Type} {g : α → β} {f : α → α} (hf : ∀ a, g (f a) = g a) (k : Nat) (l : List α) :
    (l.modify k f).map g = l.map g := by
  have h := Timing.map_modify_eq_of_view (g := g) (g' := g) (l := l) (f := f) (f' := id) k rfl
    fun a b hab => (hf a).trans hab
  rwa [List.modify_id] at h

/-! ### Each move -/

section Moves
variable {m₀ : Memory} {bs : List Batch} {s t : State} (h : InHand m₀ bs s)
include h

/-- The host forgets what a round counts on: nothing was read or stored. -/
theorem InHand.resetBlock : InHand m₀ bs s.resetBlock := by
  refine h.of_progress rfl rfl ?_ (fun q hq => ?_) (roundsOk_resetBlock h.counts)
  · rw [State.resetBlock_rounds, List.map_map]
    rfl
  · obtain ⟨r, hr, rfl⟩ := List.mem_map.mp hq
    have hround := h.rounds r hr
    refine ⟨hround.listed, hround.loaded, fun hticket => hround.asked fun hnone => hticket ?_, hround.written⟩
    rw [Round.lose_ticket, hnone, Option.filter_none]

theorem InHand.edge {p : Pins} (ht : edge p s = .next t) : InHand m₀ bs t := by
  have hcounts := roundsOk_edge h.counts ht
  rcases edge_cases p s with ⟨-, hs⟩ | ⟨-, -, hs⟩ | ⟨-, r, -, hs⟩ <;> cases hs.symm.trans ht
  · exact h.resetBlock
  · exact h.of_progress (restOfEdge_params ..) (restOfEdge_mem ..) (by rw [restOfEdge_rounds])
      (by rw [restOfEdge_rounds]; exact h.rounds) hcounts
  · exact h.of_progress (restOfEdge_params ..) (restOfEdge_mem ..) (by rw [State.answer_rounds, restOfEdge_rounds])
      (by rw [State.answer_rounds, restOfEdge_rounds]; exact h.rounds) hcounts

/-- A round asks only with every real lane read. -/
theorem InHand.askRound {k : Nat} {rdy : Bool} (ht : askRound k rdy s = .next t) : InHand m₀ bs t := by
  have hcounts := roundsOk_askRound h.counts ht
  rcases askRound_cases k rdy s with ⟨-, hs⟩ | ⟨r, hr, -, hready, -, -, hs⟩ <;> cases hs.symm.trans ht
  · exact h.of_progress (restOfEdge_params ..) (restOfEdge_mem ..) (by rw [restOfEdge_rounds])
      (by rw [restOfEdge_rounds]; exact h.rounds) hcounts
  · refine h.of_progress (restOfEdge_params ..) (restOfEdge_mem ..) ?_ (fun q hq => ?_) hcounts
    · rw [State.noteTicket_rounds, State.answer_rounds, restOfEdge_rounds]
      exact map_modify_of_eq (g := progress) (f := fun r => { r with ticket := some s.nextTicket })
        (fun _ => rfl) k s.rounds
    · rw [State.noteTicket_rounds, State.answer_rounds, restOfEdge_rounds] at hq
      rcases mem_modify_cases hq with hold | ⟨r', hr', rfl⟩
      · exact h.rounds q hold
      · obtain rfl := Option.some.inj (hr.symm.trans hr')
        have hround := h.rounds r (List.mem_of_getElem? hr)
        exact ⟨hround.listed, hround.loaded, fun _ => hready, hround.written⟩

/-- Reading finds the source as it was in `m₀`. -/
theorem InHand.loadLane (hc : bs.Pairwise Compatible) (k i : Nat) : InHand m₀ bs (s.loadLane k i) := by
  refine h.of_progress rfl rfl ?_ (fun q hq => ?_) (roundsOk_loadLane k i h.counts)
  · refine map_modify_of_eq (fun r => ?_) k s.rounds
    rw [progress, Round.load_batch, Round.load_j, Round.load_written, progress]
  · rcases mem_modify_cases hq with hold | ⟨r, hr, rfl⟩
    · exact h.rounds q hold
    · have hround := h.rounds r (List.mem_of_getElem? hr)
      have hloaded := hround.loaded.load (m := s.mem) (i := i) fun hi =>
        h.sourceElement_eq hc hround.listed (Round.element_lt hi)
      refine ⟨?_, hloaded, fun hticket => ?_, fun x hx => ?_⟩
      · rw [Round.load_batch]
        exact hround.listed
      · rw [Round.load_ticket] at hticket
        obtain ⟨n, hn⟩ := Option.ne_none_iff_exists'.mp hticket
        rw [Round.load_of_ticket hn]
        exact hround.asked hticket
      · rw [Round.load_written] at hx
        rw [Round.cnt, Round.load_batch, Round.load_j]
        exact hround.written x hx

/-- A batch taken in hand brings its rounds, of which nothing is done. -/
theorem InHand.startBatch {b : Batch} (ht : startBatch b s = .next t) : InHand m₀ (bs ++ [b]) t := by
  have hcounts := roundsOk_startBatch h.counts ht
  rcases startBatch_cases b s with ⟨hd, hs⟩ | ⟨-, hs⟩ <;> cases hs.symm.trans ht
  refine ⟨fun c hc => ?_, fun q hq => ?_, hcounts, fun c hc j hj => ?_, ?_⟩
  · rcases List.mem_append.mp hc with hold | hnew
    · exact h.disjoint c hold
    · rwa [List.mem_singleton.mp hnew]
  · rcases List.mem_append.mp hq with hold | hnew
    · have hround := h.rounds q hold
      exact ⟨List.mem_append_left _ hround.listed, hround.loaded, hround.asked, hround.written⟩
    · obtain ⟨j, -, rfl⟩ := mem_freshRounds_iff.mp hnew
      exact ⟨List.mem_append_right _ (List.mem_singleton_self b), Round.loadedFrom_fresh _ _ _ _,
        fun hne => absurd rfl hne, by simp [Round.fresh]⟩
  · rcases List.mem_append.mp hc with hold | hnew
    · obtain ⟨r, hr, hrj⟩ := h.covered c hold j hj
      exact ⟨r, List.mem_append_left _ hr, hrj⟩
    · obtain rfl := List.mem_singleton.mp hnew
      exact ⟨Round.fresh c j, List.mem_append_right _ (mem_freshRounds_iff.mpr ⟨j, hj, rfl⟩), rfl, rfl⟩
  · rw [writtenElements_append_freshRounds]
    exact h.stored

end Moves

/-! ### A store -/

/-- After a round's place is set anew, the other rounds are still there. -/
theorem mem_set_or_eq {rs : List Round} {k : Nat} {r r' q : Round} (hr : rs[k]? = some r) (hq : q ∈ rs) :
    q = r ∨ q ∈ rs.set k r' := by
  obtain ⟨x, hx⟩ := List.mem_iff_getElem?.mp hq
  by_cases hxk : k = x
  · subst hxk
    exact .inl (Option.some.inj (hx.symm.trans hr))
  · exact .inr (List.mem_iff_getElem?.mpr ⟨x, by rw [List.getElem?_set_ne hxk, hx]⟩)

/-- One more stored lane is one more stored element. -/
theorem writtenElements_set {L : LaneCount} {rs : List Round} {k i : Nat} {r : Round} (hr : rs[k]? = some r) :
    writtenElements L (rs.set k { r with written := i :: r.written }) =
      insert (r.batch, r.element L i) (writtenElements L rs) := by
  have hmem : r ∈ rs := List.mem_of_getElem? hr
  have hnew : { r with written := i :: r.written } ∈ rs.set k { r with written := i :: r.written } :=
    List.mem_set (List.getElem?_eq_some_iff.mp hr).1 _
  ext ⟨b, n⟩
  constructor
  · rintro ⟨q, hq, hb, x, hx, hn⟩
    rcases List.mem_or_eq_of_mem_set hq with hold | rfl
    · exact .inr ⟨q, hold, hb, x, hx, hn⟩
    · rcases List.mem_cons.mp hx with rfl | hx
      · exact .inl (Prod.ext hb.symm hn.symm)
      · exact .inr ⟨r, hmem, hb, x, hx, hn⟩
  · rintro (heq | ⟨q, hq, hb, x, hx, hn⟩)
    · obtain ⟨rfl, rfl⟩ := Prod.mk.inj heq
      exact ⟨_, hnew, rfl, i, List.mem_cons_self .., rfl⟩
    · rcases mem_set_or_eq hr hq with rfl | hset
      · exact ⟨_, hnew, hb, x, List.mem_cons_of_mem _ hx, hn⟩
      · exact ⟨q, hset, hb, x, hx, hn⟩

/-- A stored lane is the result of its element: the response is the round's own, and its request is the one R153 gives
the round. -/
theorem InHand.writeLane {m₀ : Memory} {bs : List Batch} {s : State} (h : InHand m₀ bs s) (hc : bs.Pairwise Compatible)
    (k i : Nat) : InHand m₀ bs (s.writeLane k i) := by
  have hcounts := roundsOk_writeLane k i h.counts
  rcases s.writeLane_cases k i with he | ⟨r, v, hv, he⟩
  · rw [he]
    exact h
  · obtain ⟨hr, hi, -, n, q, hticket, hq, rfl⟩ := State.toWrite_eq_some.mp hv
    have hmem : r ∈ s.rounds := List.mem_of_getElem? hr
    have hround := h.rounds r hmem
    have hown : q = respond s.params.lanes (r.request s.params.lanes) := by
      have hcount := h.counts r hmem n hticket
      rw [responsesInOrder, List.getElem?_append_left (List.getElem?_eq_some_iff.mp hq).1, hq] at hcount
      exact Option.some.inj hcount
    have hvalue : resultLane r.batch.op q.data i = elementResult r.batch m₀ (r.element s.params.lanes i) := by
      rw [hown]
      exact hround.loaded.resultLane_eq (hround.asked (by simp [hticket])) hi
    rw [he] at hcounts ⊢
    refine ⟨h.disjoint, fun q hq => ?_, hcounts, fun b hb j hj => ?_, ?_⟩
    · rcases List.mem_or_eq_of_mem_set hq with hold | rfl
      · exact h.rounds q hold
      · refine ⟨hround.listed, hround.loaded, hround.asked, fun x hx => ?_⟩
        rcases List.mem_cons.mp hx with rfl | hx
        · exact hi
        · exact hround.written x hx
    · obtain ⟨q, hq, hqb⟩ := h.covered b hb j hj
      rcases mem_set_or_eq hr hq with rfl | hset
      · exact ⟨_, List.mem_set (List.getElem?_eq_some_iff.mp hr).1 _, hqb⟩
      · exact ⟨q, hset, hqb⟩
    · rw [writtenElements_set hr, hvalue]
      refine h.stored.storeElement fun p hp hne a ha => ?_
      exact (independent_of_compatible hc h.disjoint).elements_apart (h.writtenElements_subset hp)
        (q := (r.batch, r.element s.params.lanes i)) ⟨hround.listed, Round.element_lt hi⟩ hne ha

/-! ### Runs -/

theorem startsOf_cons (m : HostMove) (ms : List HostMove) : startsOf (m :: ms) = startsOf [m] ++ startsOf ms :=
  List.filterMap_append (l := [m])

/-- Every move of the work in hand keeps the invariant, a start for one batch more. -/
theorem InHand.runMove {m₀ : Memory} {bs : List Batch} {s t : State} {m : HostMove} (h : InHand m₀ bs s)
    (hc : bs.Pairwise Compatible) (hm : worksInHand m = true) (ht : runMove m s = .next t) :
    InHand m₀ (bs ++ startsOf [m]) t := by
  have hsame : ∀ {u}, InHand m₀ bs u → InHand m₀ (bs ++ []) u := fun hu => (List.append_nil bs).symm ▸ hu
  cases m with
  | drive p => exact hsame (h.edge ht)
  | start b => exact h.startBatch ht
  | load k i => cases ht; exact hsame (h.loadLane hc k i)
  | ask k rdy => exact hsame (h.askRound ht)
  | await =>
    cases ht
    exact hsame (h.of_progress rfl rfl rfl h.rounds
      (roundsOk_of_prefix h.counts rfl (by simp [responsesInOrder]) rfl))
  | write k i => cases ht; exact hsame (h.writeLane hc k i)
  | batch | round | store => cases hm

theorem InHand.run {m₀ : Memory} {ms : List HostMove} {bs : List Batch} {s t : State} (h : InHand m₀ bs s)
    (hms : s.moves = ms) (hworks : ∀ m ∈ ms, worksInHand m = true) (hc : (bs ++ startsOf ms).Pairwise Compatible)
    (ht : Sys2Proof.core.run ms.length s = .next t) : InHand m₀ (bs ++ startsOf ms) t ∧ t.params = s.params := by
  induction ms generalizing bs s with
  | nil =>
    cases ht
    exact ⟨(List.append_nil bs).symm ▸ h, rfl⟩
  | cons m ms ih =>
    rw [startsOf_cons, ← List.append_assoc] at hc ⊢
    have hnow : (bs ++ startsOf [m]).Pairwise Compatible := (List.pairwise_append.mp hc).1
    rcases stepStopsOnlyOnOverlappingBatch s with ⟨u, hu⟩ | ⟨b, rest, -, -, hu⟩
    · have hmove := (step_of_move hms).symm.trans hu
      obtain ⟨hparams, hmoves⟩ := runMove_frame hmove
      have hu' := (h.set_moves ms).runMove (List.pairwise_append.mp hnow).1 (hworks m (List.mem_cons_self ..)) hmove
      rw [List.length_cons, run_succ hu] at ht
      obtain ⟨hfinal, hp⟩ := ih hu' hmoves (fun m' hm' => hworks m' (List.mem_cons_of_mem _ hm')) hc ht
      exact ⟨hfinal, hp.trans hparams⟩
    · have hstop : Sys2Proof.core.step s = .refused .batchOverlap := hu
      simp only [List.length_cons, Host.Core.run, hstop] at ht
      cases ht

/-- With every round finished, every element of every batch is stored. -/
theorem InHand.writtenElements_eq {m₀ : Memory} {bs : List Batch} {s : State} (h : InHand m₀ bs s)
    (hf : ∀ r ∈ s.rounds, r.finished s.params.lanes = true) :
    writtenElements s.params.lanes s.rounds = elementsOf {b | b ∈ bs} := by
  refine h.writtenElements_subset.antisymm ?_
  rintro ⟨b, n⟩ ⟨hb, hn⟩
  have hL := LaneCount.count_pos s.params.lanes
  have hround : n ∈ roundElements s.params.lanes b (n / s.params.lanes.count) := mem_roundElements_iff.mpr ⟨hn, rfl⟩
  obtain ⟨i, hi, hin⟩ := List.mem_map.mp hround
  obtain ⟨r, hr, rfl, hj⟩ := h.covered b hb (n / s.params.lanes.count)
    (lt_batchRequests_iff.mpr (Nat.lt_of_le_of_lt (Nat.div_mul_le_self ..) hn))
  rw [← hj] at hi hin
  exact ⟨r, hr, rfl, i, Round.finished_iff.mp (hf r hr) i (List.mem_range.mp hi), hin⟩

theorem elementsOf_pair (b c : Batch) : elementsOf {x | x ∈ [b, c]} = elementsOf {b} ∪ elementsOf {c} := by
  ext p
  simp [elementsOf, or_and_right]

/-- Settles O60: the invariant at the end of the run gives every element and every other byte, and two batches one after
the other store the same elements. -/
theorem concurrentBatchesGiveSameMemory : Obligations.ConcurrentBatchesGiveSameMemory := by
  intro s t hwf hnone hworks hc hrun hfin
  obtain ⟨h, hparams⟩ := (inHand_none hwf hnone).run rfl hworks hc hrun
  rw [← hparams] at hfin
  rw [List.nil_append] at h
  have hstored := h.writtenElements_eq hfin ▸ h.stored
  refine ⟨fun b hb k hk => hstored.inside (b, k) ⟨hb, hk⟩,
    fun a ha => hstored.outside a (not_inElement_of_not_inDst ha), hstored.wf, fun b c hperm => ?_⟩
  have hset : {x | x ∈ startsOf s.moves} = {x | x ∈ [b, c]} := Set.ext fun _ => hperm.mem_iff
  have hi : Independent {x | x ∈ [b, c]} := hset ▸ independent_of_compatible hc h.disjoint
  have hnext : ∀ x ∈ [b, c], ∀ u, ∃ v, execBatch x u = .next v := fun x hx u => by
    rcases execBatch_stops x u with ⟨-, hv⟩ | ⟨hd, -⟩
    · exact hv
    · cases hd.symm.trans (h.disjoint x (hperm.mem_iff.mpr hx))
  obtain ⟨u, hu⟩ := hnext b (by simp) s
  obtain ⟨v, hv⟩ := hnext c (by simp) u
  rw [hset, elementsOf_pair] at hstored
  exact ⟨u, v, hu, hv, hstored.unique ((StoredResults.none_stored hwf).execBatch_twice hi hu hv)⟩

end Sys2Proof.Machine
